-- ==== Sys2Proof/Word.lean ====
section
/-! DEFINITION. The two widths of the block: the byte of every frame, response and register (R6, R7), and the 16-bit
unsigned millisecond count of the timeout registers (R24, D4). -/

namespace Sys2Proof

/-- A byte; bit 0 has weight 0x01 (R7); always unsigned. -/
abbrev Byte := BitVec 8

/-- A timeout in milliseconds, `TMO_W` = 16 bits, unsigned (R6, R24). -/
abbrev Millis := BitVec 16

end Sys2Proof
end

