-- ==== Sys2Proof/Syntax.lean ====
section
/-! DEFINITION. The six wire commands (R55), one constructor for each row of spec/opcode_table.json. -/

namespace Sys2Proof

/-- A wire command with its operands; every operand is one unsigned byte (R57). -/
inductive Instr where
  /-- RDPAGE, opcode 0x52 (R89). -/
  | rdpage (page : Byte)
  /-- WRPAGE, opcode 0x57 (R90). -/
  | wrpage (page d0 d1 d2 d3 : Byte)
  /-- STATUS, opcode 0x53 (R91). -/
  | status
  /-- UID, opcode 0x55 (R92). -/
  | uid
  /-- IDENT, opcode 0x7A (R93). -/
  | ident
  /-- PROGEE, opcode 0x50 (R94). -/
  | progee (address value : Byte)
  deriving DecidableEq, Repr

end Sys2Proof
end

