-- ==== Sys2Proof/Machine/Types.lean ====
section
/-! DEFINITION. The plain data the machine's state is made of: the names the spec gives (levels, waits, failure causes,
phases, payload modes), the operand registers and their private copy, the environment's moves, and the host's operations. -/

namespace Sys2Proof.Machine

/-- The level of the ready line (R126): LOW means the device is listening. -/
inductive Level where
  | low
  | high
  deriving DecidableEq, Repr, Inhabited

/-- Which wait a timeout event names (R21, R68): the log holds `Timeout(LISTEN)` and `Timeout(DATA)`. -/
inductive WaitKind where
  | listen
  | data
  deriving DecidableEq, Repr, Inhabited

/-- The four failure causes (R111 to R115). -/
inductive FailCause where
  /-- Code 0 (R112). -/
  | notListening
  /-- Code 1 (R113). -/
  | noResponse
  /-- Code 2 (R114). -/
  | ackMismatch
  /-- Code 3 (R115). -/
  | payloadTimeout
  deriving DecidableEq, Repr, Inhabited

/-- The payload mode `PM` (R14). -/
inductive PayloadMode where
  | none
  | fixed
  | drain
  deriving DecidableEq, Repr, Inhabited

/-- The sequencer's phases (R18); each names the step it performs next. -/
inductive Phase where
  /-- 0: no operation. -/
  | idle
  /-- 1: one poll of "device listening". -/
  | wl
  /-- 2: transmit `x[txi]`. -/
  | tx
  /-- 3: one poll for the acknowledgment. -/
  | wa
  /-- 4: settle before the acknowledgment read. -/
  | sa
  /-- 5: read the acknowledgment and store it. -/
  | ra
  /-- 6: masked comparison. -/
  | ck
  /-- 7: one poll for payload byte `rxi`. -/
  | wp
  /-- 8: settle before a payload read. -/
  | sp
  /-- 9: read payload byte `rxi`. -/
  | rp
  /-- 10: one poll before a drain. -/
  | wd
  /-- 11: drain check. -/
  | dc
  /-- 12: settle before a drained read. -/
  | sd
  /-- 13: read one drained byte. -/
  | rd
  deriving DecidableEq, Repr, Inhabited

/-- The six frame registers `x[0]` to `x[5]` (R12). -/
structure FrameRegs where
  x0 : Byte
  x1 : Byte
  x2 : Byte
  x3 : Byte
  x4 : Byte
  x5 : Byte
  deriving DecidableEq, Repr, Inhabited

/-- The four payload registers `DATA[0]` to `DATA[3]` (R16). -/
structure DataRegs where
  b0 : Byte
  b1 : Byte
  b2 : Byte
  b3 : Byte
  deriving DecidableEq, Repr, Inhabited

/-- The operand registers the host writes (R12, R13, R14), in the widths of their ports (R34). -/
structure OperandRegs where
  x    : FrameRegs
  len  : BitVec 3
  mask : Byte
  ae   : Bool
  wl   : Bool
  pm   : BitVec 2
  pcnt : BitVec 3
  deriving DecidableEq, Repr, Inhabited

/-- The private copy an operation runs from (R15). `waitOnly` is the model's: the operation is a bare WAIT (R65). -/
structure Latched where
  x         : FrameRegs
  len       : Nat
  mask      : Byte
  ae        : Bool
  wl        : Bool
  pm        : PayloadMode
  pcnt      : Nat
  tmoListen : Millis
  tmoData   : Millis
  waitOnly  : Bool
  deriving DecidableEq, Repr, Inhabited

/-- What a command asks the host to load (R55). `mask = none` for IDENT, which has no mask: the register is left alone. -/
structure Descriptor where
  frame : List Byte
  mask  : Option Byte
  ae    : Bool
  wl    : Bool
  pm    : PayloadMode
  pcnt  : Nat
  deriving DecidableEq, Repr, Inhabited

/-- One byte the device stores in its own memory: byte `j` of tag page `page` (R29), or EEPROM byte `a` (R30). -/
inductive DevStore where
  | tag (page : BitVec 3) (j : BitVec 2) (v : Byte)
  | ee (a : Byte) (v : Byte)
  deriving DecidableEq, Repr

/-- One turn of the environment (R2c, R8, R48): bytes that arrive, the level the ready line now has, and what the device
stores. Nothing constrains it. -/
structure EnvMove where
  arrivals : List Byte
  ready    : Level
  stores   : List DevStore
  deriving DecidableEq, Repr, Inhabited

/-- The open parameters a run has (R6): whether a drain first waits for data, and the identifier buffer's capacity. -/
structure Params where
  identWaitData : Bool
  identCap      : Nat
  deriving DecidableEq, Repr, Inhabited

/-- The sequences (R64): host programs made of wire commands. -/
inductive Sequence where
  | writeEEPROMRange (start : Byte) (data : List Byte) (length : Nat)
  | authorizeTag (uid : List Byte) (slot : Nat)
  | deauthorizeAllTags
  | setReaderPassword (password : List Byte)
  | setTagPassword (password : List Byte)
  | setTagPasswordInEEPROM (password : List Byte)
  | writeUserData (data : List Byte)
  | readUserData
  | enableUIDQuery
  | getStatus
  | getUID
  | getIdentifier
  | writeTagPage (page : Byte) (data : List Byte)
  | readTagPage (page : Byte)
  | writeEEPROMByte (address value : Byte)
  deriving DecidableEq, Repr

/-- What the host can do to the framer (R2a, R63). -/
inductive HostOp where
  /-- Issue one of the six wire commands, given as its frame (R88). -/
  | wire (frame : List Byte)
  /-- Generic `sendCommand(bytes[1..6], expectedMask)` (R61, R74). -/
  | sendCommand (bytes : List Byte) (mask : Byte)
  /-- The fire-and-forget single byte, SENDB (R81). -/
  | sendByte (b : Byte)
  /-- Write the operand registers through their ports (R12, R34). -/
  | load (regs : OperandRegs)
  /-- The start pulse, with the operand registers as they stand (R34, R85). -/
  | start
  /-- `waitFor(predicate, timeoutMillis)` with one of the two predicates (R65, R69, R70). -/
  | wait (kind : WaitKind) (timeout : Millis)
  /-- Write both timeout registers (R24). -/
  | setTimeouts (listen data : Millis)
  /-- GETACK (R95). -/
  | getAck
  /-- Read `DATA[0..3]` (R16). -/
  | readData
  /-- Read `IDBUF` (R17). -/
  | readIdent
  /-- `begin(enableUID)` (R109). -/
  | beginFramer (enableUID : Bool)
  /-- A sequence (R96). -/
  | sequence (q : Sequence)
  /-- The reset pulse, between two operations (R34, R133); no operation in progress can be abandoned (R121). -/
  | reset
  deriving DecidableEq, Repr

/-- Which output buffer the host fills when a command succeeds (R16, R17, R104). -/
inductive OutBuffer where
  /-- No output. -/
  | nothing
  /-- `out data[4]` or `out uid[4]`: the payload of the command. -/
  | payload
  /-- `out data[16]`: four payloads, one after the other (R104). -/
  | userData
  /-- `out buffer`: the identifier. -/
  | identifier
  deriving DecidableEq, Repr, Inhabited

/-- The call whose return the host waits for (R96): the commands of the sequence not yet issued, the buffer they fill, and
what has been collected so far. -/
structure Call where
  todo : List Instr
  out  : OutBuffer
  got  : List Byte
  deriving DecidableEq, Repr

/-- What a call returned to the host (R10): its boolean and its output buffer. -/
structure HostResult where
  value : Bool
  out   : List Byte
  deriving DecidableEq, Repr

end Sys2Proof.Machine
end

