-- ==== Sys2Proof/Config.lean ====
section
/-! DEFINITION. What the spec leaves open: the OPEN parameters of R6 and the free values. Each is a constant with no body,
so that a claim holds for every value of it. -/

namespace Sys2Proof

open Sys2Proof.Machine

/-- `LAST_ACK_RESET` (R6, R22, R33): any byte. Log 1. -/
opaque Config.lastAckReset : Byte

/-- `IDENT_CAP` (R6, R17, D8): the capacity of the identifier buffer at reset. Log 9. -/
opaque Config.identCap : Nat

/-- What the receive queue holds when the framer leaves reset (R33, R140: not known to be empty). Log 3. -/
opaque Config.rxAtReset : List Byte

/-- The level of the ready line when the framer leaves reset (R33). Log 3. -/
opaque Config.readyAtReset : Level

/-- The environment's move number `n`, where no move is listed in the state (R48, D30). Log 7. -/
opaque Config.envMove : Nat → EnvMove

/-- Sample number `n` of a ready line that is not configured as an input (R27, U12). Log 10. -/
opaque Config.unconfiguredLevel : Nat → Level

/-- What the 16-bit `elapsed` holds after a sleep that would take it past 65535, under a timeout of 0: R73 lets it saturate or
wrap, and no rule reads it there. Log 17. -/
opaque Config.elapsedPastEnd : Millis → Millis

/-- The `cause` output after a success, which R116 calls unspecified. Log 4. -/
opaque Config.causeAfterSuccess : Nat → FailCause

/-- What the host reads from a payload buffer whose content is undefined (R16, R146, U5). Log 5. -/
opaque Config.undefinedData : Nat → DataRegs

/-- What the host reads from an identifier buffer whose content is undefined (R146, U5). Log 5. -/
opaque Config.undefinedIdent : Nat → List Byte

end Sys2Proof
end

