-- ==== Sys2Proof/Machine/Params.lean ====
section
/-! DEFINITION. The hardwired constants of the block (R6, R25) and the codes of its named values (R18, R21, R34, R116).
They stand under Machine/ so that a later audit of the literals (U9) changes one place. -/

namespace Sys2Proof.Machine

/-- `OKAY`, the canonical okay acknowledgment byte (R25). -/
def okay : Byte := 0xD6

/-- `POLL_INC`, the poll sleep in milliseconds (R25). -/
def pollInc : Nat := 5

/-- `SETTLE`, the delay before each byte read, about 1 ms (R25); no value depends on it (R137). -/
def settle : Nat := 1

/-- `TMO_DEFAULT` (R25). -/
def tmoDefault : Millis := 1000

/-- `MASK_READ` (R25). -/
def maskRead : Byte := 0x3E

/-- `MASK_WRITE` (R25). -/
def maskWrite : Byte := 0x3E

/-- `MASK_STATUS` (R25). -/
def maskStatus : Byte := 0x28

/-- `MASK_UID` (R25). -/
def maskUid : Byte := 0x3E

/-- `MASK_PROG` (R25). -/
def maskProg : Byte := 0x01

/-- The fixed payload length DOC uses (R6, R56). -/
def fixedPayload : Nat := 4

/-- The fixed first data byte of the tag password write (R45, R101). -/
def tagPasswordLead : Byte := 0x06

/-- The 4-bit code of a phase (R18). -/
def phaseCode : Phase → BitVec 4
  | .idle => 0
  | .wl => 1
  | .tx => 2
  | .wa => 3
  | .sa => 4
  | .ra => 5
  | .ck => 6
  | .wp => 7
  | .sp => 8
  | .rp => 9
  | .wd => 10
  | .dc => 11
  | .sd => 12
  | .rd => 13

/-- The phase of a 4-bit code; 14 and 15 are never taken (R18). -/
def phaseOfCode (c : BitVec 4) : Option Phase :=
  match c.toNat with
  | 0 => some .idle
  | 1 => some .wl
  | 2 => some .tx
  | 3 => some .wa
  | 4 => some .sa
  | 5 => some .ra
  | 6 => some .ck
  | 7 => some .wp
  | 8 => some .sp
  | 9 => some .rp
  | 10 => some .wd
  | 11 => some .dc
  | 12 => some .sd
  | 13 => some .rd
  | _ => none

/-- The 2-bit code on the `cause` output (R112 to R116). -/
def causeCode : FailCause → BitVec 2
  | .notListening => 0
  | .noResponse => 1
  | .ackMismatch => 2
  | .payloadTimeout => 3

/-- `tmo_src`: 0 for LISTEN, 1 for DATA (R21). -/
def tmoSrc : WaitKind → BitVec 1
  | .listen => 0
  | .data => 1

/-- `ready_level`: 0 for LOW, 1 for HIGH (R34). -/
def readyCode : Level → BitVec 1
  | .low => 0
  | .high => 1

/-- `h_pm`: 0 NONE, 1 FIXED, 2 DRAIN (R34). -/
def pmCode : PayloadMode → BitVec 2
  | .none => 0
  | .fixed => 1
  | .drain => 2

/-- The payload mode of an `h_pm` code; 3 is refused (R34, R87). -/
def pmOfCode (c : BitVec 2) : Option PayloadMode :=
  match c.toNat with
  | 0 => some .none
  | 1 => some .fixed
  | 2 => some .drain
  | _ => Option.none

end Sys2Proof.Machine
end

