-- ==== Sys2Proof/Machine/Flags.lean ====
section
/-! DEFINITION. The masked comparison that decides success (R80) and the named bits of the acknowledgment byte (R23). -/

namespace Sys2Proof.Machine

/-- Step 6: `(response & expectedMask) == (canonicalOkay & expectedMask)` (R80). -/
def ackAccepted (r mask : Byte) : Bool := (r &&& mask) == (okay &&& mask)

/-- Antenna fault, weight 0x20 (R23). -/
def antennaFault (r : Byte) : Bool := r.getLsbD 5

/-- Relay enabled, weight 0x10 (R23). -/
def relayEnabled (r : Byte) : Bool := r.getLsbD 4

/-- Serial error, weight 0x08 (R23). -/
def serialError (r : Byte) : Bool := r.getLsbD 3

/-- Receive-okay, weight 0x04 (R23). -/
def receiveOkay (r : Byte) : Bool := r.getLsbD 2

/-- Tag-okay, weight 0x02 (R23). -/
def tagOkay (r : Byte) : Bool := r.getLsbD 1

/-- EEPROM-error, weight 0x01 (R23). -/
def eepromError (r : Byte) : Bool := r.getLsbD 0

/-- Bits 7 and 6, which have no name and are in no mask (R23, D27). -/
def unnamedBits (r : Byte) : BitVec 2 := r.extractLsb' 6 2

end Sys2Proof.Machine
end

