-- ==== Sys2Proof/Machine/Poller.lean ====
section
/-! DEFINITION. The Timeout Poller as a pure function of the timeout and of the predicate's samples (R65 to R67, R72): the
clear form of a wait, which the sequencer's polls are compared with. -/

namespace Sys2Proof.Machine

/-- `elapsed + POLL_INC` in 16 bits (R65, R124, D4). Past 65535, which only a wait with timeout 0 reaches and no rule then reads
(R73), it is a free value, log 17. -/
def afterSleep (elapsed : Millis) : Millis :=
  if elapsed.toNat + pollInc < 2 ^ 16 then elapsed + BitVec.ofNat 16 pollInc else Config.elapsedPastEnd elapsed

/-- The deadline of R65's loop: not with a timeout of 0 (R66); else once `elapsed` has reached it. -/
def deadlinePassed (timeout elapsed : Millis) : Bool := timeout != 0 && decide (timeout.toNat ≤ elapsed.toNat)

/-- How a wait stands after a list of samples, with the `elapsed` it has reached. -/
inductive WaitResult where
  /-- The predicate held; the samples not taken are left. -/
  | holds (elapsed : Millis) (unused : List Bool)
  /-- The deadline passed; the samples not taken are left. -/
  | timedOut (elapsed : Millis) (unused : List Bool)
  /-- Every sample was false and the wait goes on. -/
  | waiting (elapsed : Millis)
  deriving DecidableEq, Repr

/-- `waitFor(predicate, timeoutMillis)` over the predicate's samples (R65). -/
def waitFor (timeout elapsed : Millis) : List Bool → WaitResult
  | [] => .waiting elapsed
  | true :: rest => .holds elapsed rest
  | false :: rest =>
    if deadlinePassed timeout elapsed then .timedOut elapsed rest
    else waitFor timeout (afterSleep elapsed) rest

/-- `ceil(T / 5)`: the sleeps of a failing wait (R67). -/
def failingSleeps (timeout : Nat) : Nat := (timeout + (pollInc - 1)) / pollInc

/-- The polls of a failing wait (R67). -/
def failingPolls (timeout : Nat) : Nat := failingSleeps timeout + 1

end Sys2Proof.Machine
end

