-- ==== Sys2Proof/Decode.lean ====
section
/-! DEFINITION. Frames and commands (R53 to R59): the decoder an observer cuts a byte stream with, total and refusing by
name, and after it the encoder, written from the same formats F0, F1, F2, F5. -/

namespace Sys2Proof

/-- Opcode of RDPAGE (R55). -/
def opRdpage : Byte := 0x52
/-- Opcode of WRPAGE (R55). -/
def opWrpage : Byte := 0x57
/-- Opcode of STATUS (R55). -/
def opStatus : Byte := 0x53
/-- Opcode of UID (R55). -/
def opUid : Byte := 0x55
/-- Opcode of IDENT (R55). -/
def opIdent : Byte := 0x7A
/-- Opcode of PROGEE (R55). -/
def opProgee : Byte := 0x50

/-- Why a byte stream does not begin with one of the six commands. -/
inductive DecodeError where
  /-- No byte is left. -/
  | empty
  /-- The first byte is none of the six opcodes (R60). -/
  | unknownOpcode (opcode : Byte)
  /-- The opcode's operand bytes are not all there (R59). -/
  | truncated (opcode : Byte)
  deriving DecidableEq, Repr

/-- The length of a frame follows from its opcode alone (R59). -/
def frameLength (opcode : Byte) : Option Nat :=
  if opcode = opRdpage then some 2
  else if opcode = opWrpage then some 6
  else if opcode = opStatus then some 1
  else if opcode = opUid then some 1
  else if opcode = opIdent then some 1
  else if opcode = opProgee then some 3
  else none

/-- The command at the head of a byte stream and the bytes after it (R54, R59). A page byte above 7 is a legal operand of
the framer (R39). -/
def decode : List Byte → Except DecodeError (Instr × List Byte)
  | [] => .error .empty
  | op :: rest =>
    if op = opRdpage then
      match rest with
      | p :: r => .ok (.rdpage p, r)
      | _ => .error (.truncated op)
    else if op = opWrpage then
      match rest with
      | p :: d0 :: d1 :: d2 :: d3 :: r => .ok (.wrpage p d0 d1 d2 d3, r)
      | _ => .error (.truncated op)
    else if op = opStatus then .ok (.status, rest)
    else if op = opUid then .ok (.uid, rest)
    else if op = opIdent then .ok (.ident, rest)
    else if op = opProgee then
      match rest with
      | a :: v :: r => .ok (.progee a v, r)
      | _ => .error (.truncated op)
    else .error (.unknownOpcode op)

/-- A frame that is exactly one command, nothing before or after it. -/
def decodeFrame (bytes : List Byte) : Option Instr :=
  match decode bytes with
  | .ok (i, []) => some i
  | _ => none

/-- The cut of a stream with `fuel` commands at most. -/
def cutFuel : Nat → List Byte → Except DecodeError (List Instr)
  | _, [] => .ok []
  | 0, op :: _ => .error (.truncated op)
  | fuel + 1, op :: rest =>
    match decode (op :: rest) with
    | .error e => .error e
    | .ok (i, r) =>
      match cutFuel fuel r with
      | .error e => .error e
      | .ok is => .ok (i :: is)

/-- An observer's cut of a transmit stream, from a known frame start, into the six commands (R59). -/
def cut (stream : List Byte) : Except DecodeError (List Instr) :=
  cutFuel stream.length stream

/-- The opcode of a command (R55). -/
def opcodeOf : Instr → Byte
  | .rdpage _ => opRdpage
  | .wrpage _ _ _ _ _ => opWrpage
  | .status => opStatus
  | .uid => opUid
  | .ident => opIdent
  | .progee _ _ => opProgee

/-- The frame of a command, in the order of transmission: formats F0, F1, F2, F5 (R35, R54, R57). -/
def encode : Instr → List Byte
  | .rdpage page => [opRdpage, page]
  | .wrpage page d0 d1 d2 d3 => [opWrpage, page, d0, d1, d2, d3]
  | .status => [opStatus]
  | .uid => [opUid]
  | .ident => [opIdent]
  | .progee address value => [opProgee, address, value]

/-- The first `n` bytes of a number, the least significant first (the first byte transmitted is bits 7:0). -/
def bytesOf : Nat → Nat → List Byte
  | 0, _ => []
  | n + 1, w => BitVec.ofNat 8 w :: bytesOf n (w / 256)

/-- The six bytes of a table word: its `nbits` bits as the table numbers them, every bit above them 0. -/
def tableBytes (nbits w : Nat) : List Byte := bytesOf 6 (w % 2 ^ nbits)

/-- The frame a table word stands for: as many of its bytes as its opcode's frame has. -/
def tableFrame (nbits w : Nat) : List Byte :=
  let bytes := tableBytes nbits w
  match bytes with
  | [] => []
  | op :: _ => bytes.take ((frameLength op).getD bytes.length)

/-- The instruction the decoder reads from a table word. -/
def decodeTableWord (nbits w : Nat) : Option Instr := decodeFrame (tableFrame nbits w)

end Sys2Proof
end

