-- ==== Sys2Proof/Machine/Operands.lean ====
section
/-! DEFINITION. Every operand form: the frame registers, the descriptors of the six commands and of the generic operations
(R55, R61), the shapes the sequencer admits (R87), and the operands the sequences compute (R58). -/

namespace Sys2Proof.Machine

/-- Read `x[i]` (R12); there are six registers. -/
def frameGet (x : FrameRegs) : Nat → Option Byte
  | 0 => some x.x0
  | 1 => some x.x1
  | 2 => some x.x2
  | 3 => some x.x3
  | 4 => some x.x4
  | 5 => some x.x5
  | _ => none

/-- The six registers, index 0 first. -/
def frameList (x : FrameRegs) : List Byte := [x.x0, x.x1, x.x2, x.x3, x.x4, x.x5]

/-- The frame of length `len` that the registers hold (R12): `x[0]` to `x[len - 1]`. -/
def frameTake (x : FrameRegs) (len : Nat) : List Byte := (frameList x).take len

/-- The host writes a frame into the registers: byte `i` goes to `x[i]` (R12). DESIGN CHOICE, log 16: the registers past the
frame keep their bytes; the spec says only that no rule reads them. -/
def frameLoad (x : FrameRegs) (f : List Byte) : FrameRegs :=
  { x0 := (f[0]?).getD x.x0
    x1 := (f[1]?).getD x.x1
    x2 := (f[2]?).getD x.x2
    x3 := (f[3]?).getD x.x3
    x4 := (f[4]?).getD x.x4
    x5 := (f[5]?).getD x.x5 }

/-- The four payload registers, `DATA[0]` first. -/
def dataList (d : DataRegs) : List Byte := [d.b0, d.b1, d.b2, d.b3]

/-- Read `DATA[j]` (R16). -/
def dataGet (d : DataRegs) : Nat → Option Byte
  | 0 => some d.b0
  | 1 => some d.b1
  | 2 => some d.b2
  | 3 => some d.b3
  | _ => none

/-- Write `DATA[j]` (R82); there are four registers. -/
def dataSet (d : DataRegs) (j : Nat) (v : Byte) : Option DataRegs :=
  match j with
  | 0 => some { d with b0 := v }
  | 1 => some { d with b1 := v }
  | 2 => some { d with b2 := v }
  | 3 => some { d with b3 := v }
  | _ => none

/-- The command map (R55): the descriptor of each wire command. -/
def descriptorOf : Instr → Descriptor
  | .rdpage page =>
    { frame := encode (.rdpage page), mask := some maskRead, ae := true, wl := true, pm := .fixed, pcnt := fixedPayload }
  | .wrpage page d0 d1 d2 d3 =>
    { frame := encode (.wrpage page d0 d1 d2 d3), mask := some maskWrite, ae := true, wl := true, pm := .none, pcnt := 0 }
  | .status =>
    { frame := encode .status, mask := some maskStatus, ae := true, wl := true, pm := .none, pcnt := 0 }
  | .uid =>
    { frame := encode .uid, mask := some maskUid, ae := true, wl := true, pm := .fixed, pcnt := fixedPayload }
  | .ident =>
    { frame := encode .ident, mask := none, ae := false, wl := true, pm := .drain, pcnt := 0 }
  | .progee address value =>
    { frame := encode (.progee address value), mask := some maskProg, ae := true, wl := true, pm := .none, pcnt := 0 }

/-- The descriptor of a generic SENDCMD (R61, R74). -/
def sendCommandDescriptor (bytes : List Byte) (mask : Byte) : Descriptor :=
  { frame := bytes, mask := some mask, ae := true, wl := true, pm := .none, pcnt := 0 }

/-- The descriptor of a bare SENDB (R81). -/
def sendByteDescriptor (b : Byte) : Descriptor :=
  { frame := [b], mask := none, ae := false, wl := false, pm := .none, pcnt := 0 }

/-- The operand registers after the host has loaded a descriptor (R88). -/
def loadDescriptor (r : OperandRegs) (d : Descriptor) : OperandRegs :=
  { x := frameLoad r.x d.frame
    len := BitVec.ofNat 3 d.frame.length
    mask := d.mask.getD r.mask
    ae := d.ae
    wl := d.wl
    pm := pmCode d.pm
    pcnt := BitVec.ofNat 3 d.pcnt }

/-- The length a frame may have (R12, R87). -/
def lengthAdmitted (len : Nat) : Bool := decide (1 ≤ len) && decide (len ≤ 6)

/-- The shapes of R87's table, for a length from 1 to 6 and a count of at most 4. -/
def shapeAdmitted (wl ae : Bool) (pm : PayloadMode) (pcnt len : Nat) : Bool :=
  match wl, ae, pm with
  | true, true, .none => pcnt == 0
  | true, true, .fixed => decide (1 ≤ pcnt)
  | true, false, .drain => pcnt == 0 && len == 1
  | false, false, .none => pcnt == 0 && len == 1
  | _, _, _ => false

/-- R87 as a whole, over the operand registers. -/
def operandsAdmitted (r : OperandRegs) : Bool :=
  lengthAdmitted r.len.toNat && decide (r.pcnt.toNat ≤ 4) &&
    match pmOfCode r.pm with
    | some pm => shapeAdmitted r.wl r.ae pm r.pcnt.toNat r.len.toNat
    | none => false

/-- R87 over a descriptor, before it is loaded. -/
def descriptorAdmitted (d : Descriptor) : Bool :=
  lengthAdmitted d.frame.length && decide (d.pcnt ≤ 4) && shapeAdmitted d.wl d.ae d.pm d.pcnt d.frame.length

/-- The private copy of the operand registers and timeouts (R15), for a payload mode already named. -/
def latchOperands (r : OperandRegs) (pm : PayloadMode) (listen data : Millis) : Latched :=
  { x := r.x, len := r.len.toNat, mask := r.mask, ae := r.ae, wl := r.wl, pm := pm, pcnt := r.pcnt.toNat
    tmoListen := listen, tmoData := data, waitOnly := false }

/-- The EEPROM address of authorization slot `slot` (R58a). -/
def slotAddress (slot : Nat) : Nat := 12 + 4 * slot

/-- The highest authorization slot (R6, R98). -/
def lastSlot : Nat := 59

/-- The address of the reader password (R44, R100). -/
def readerPasswordAddress : Nat := 4

/-- The address of the tag password in the EEPROM (R44, R102). -/
def tagPasswordAddress : Nat := 9

/-- The address of the UID-enable flag (R44, R105). -/
def uidEnableAddress : Nat := 0x0C

/-- The tag page the tag password is written to (R45, R101). -/
def tagPasswordPage : Byte := 1

/-- The tag page of user-data block `k` (R31, R58c). -/
def userPage (k : Nat) : Byte := BitVec.ofNat 8 (4 + k)

/-- The range write stays inside the EEPROM: `start + length - 1 <= 255` (R39, R97); an empty range always does (D14). -/
def rangeInside (start length : Nat) : Bool := length == 0 || decide (start + length ≤ 256)

/-- The operand lists of a sequence have the lengths the caller owes (R97 to R104, R145). -/
def sequenceLengthsRight : Sequence → Bool
  | .writeEEPROMRange _ data length => decide (length ≤ data.length)
  | .authorizeTag uid _ => uid.length == 4
  | .deauthorizeAllTags => true
  | .setReaderPassword password => password.length == 4
  | .setTagPassword password => password.length == 3
  | .setTagPasswordInEEPROM password => password.length == 3
  | .writeUserData data => data.length == 16
  | .readUserData => true
  | .enableUIDQuery => true
  | .getStatus => true
  | .getUID => true
  | .getIdentifier => true
  | .writeTagPage _ data => data.length == 4
  | .readTagPage _ => true
  | .writeEEPROMByte _ _ => true

/-- The addresses and slots of a sequence are ones the caller may use (R39, R97, R98). -/
def sequenceRangesRight : Sequence → Bool
  | .writeEEPROMRange start _ length => rangeInside start.toNat length
  | .authorizeTag _ slot => decide (slot ≤ lastSlot)
  | _ => true

end Sys2Proof.Machine
end

