-- ==== Sys2Proof/Machine/State.lean ====
section
/-! DEFINITION. The machine's state (R11 to R33), the reasons a step stops, and the state after reset (R33, R132). -/

namespace Sys2Proof.Machine

/-- Everything the spec gives the machine: the framer, the host that drives it, and the environment it is wired to
(R2, R11, R32). -/
structure State where
  /-- `LAST_ACK` (R22). -/
  lastAck   : Byte
  /-- `TMO_LISTEN` (R24). -/
  tmoListen : Millis
  /-- `TMO_DATA` (R24). -/
  tmoData   : Millis
  /-- `INIT` (R27). -/
  init      : Bool
  /-- `LOG`, oldest entry first (R21). -/
  log       : List WaitKind
  /-- `DATA[0..3]` (R16). -/
  data      : DataRegs
  /-- `IDBUF` (R17). -/
  idBuf     : List Byte
  /-- The operand registers (R12 to R14). -/
  opnd      : OperandRegs
  /-- Their private copy (R15). -/
  lat       : Latched
  /-- `phase` (R18). -/
  phase     : Phase
  /-- `txi` (R19). -/
  txi       : Nat
  /-- `rxi` (R19). -/
  rxi       : Nat
  /-- `elapsed`, 16 bits (R26, R124, D4). -/
  elapsed   : Millis
  /-- `busy` (R20). -/
  busy      : Bool
  /-- `ok` (R20). -/
  ok        : Bool
  /-- `cause` (R116). -/
  cause     : FailCause
  /-- `RX`, the oldest byte first (R28). DESIGN CHOICE, log 15: it has no bound. Its depth is not in the source (N18), and an
  overflowing real buffer would lose bytes that this list keeps. -/
  rx        : List Byte
  /-- The bytes removed from `RX`, the oldest first (R10). The model's own record, log 19. -/
  removed   : List Byte
  /-- `TX`, the oldest byte first (R28). -/
  tx        : List Byte
  /-- The level of the ready line (R126). -/
  ready     : Level
  /-- `TAG`: byte `j` of page `p` is at `4 * p + j` (R29). -/
  tag       : List Host.Cell
  /-- `EE` (R30). -/
  ee        : List Host.Cell
  /-- The environment's coming moves, the next one first (R8, R48). The model's own. -/
  env       : List EnvMove
  /-- How many free values have been drawn. The model's own. -/
  draws     : Nat
  /-- The operations the host has still to issue (R47). The model's own. -/
  host      : List HostOp
  /-- The call whose return the host waits for (R96). The model's own. -/
  call      : Option Call
  /-- What has been returned to the host (R10). The model's own. -/
  results   : List HostResult
  /-- How many of `DATA[0]`, `DATA[1]`, ... hold the payload of a successful operation (R16, R146). The model's own. -/
  dataValid : Nat
  /-- `IDBUF` is defined content: empty since reset (R33), or the identifier of a successful operation (R17, R146). The model's
  own. -/
  idValid   : Bool
  /-- An operation has ended since reset, so that `ok` is valid while `busy` is 0 (R20, R33). The model's own, log 20. -/
  okValid   : Bool
  /-- The open parameters (R6); no step writes them. -/
  cfg       : Params
  deriving DecidableEq, Repr

/-- Why a step stops although no rule refuses the operation. Each is raised only in states no run reaches, and is safe:
the model stops where nothing is said of the hardware. -/
inductive Fault where
  /-- Raised by the sequencer: `busy` is 1 and `phase` is IDLE, which no row of R85 leaves. Safe. -/
  | busyWhileIdle
  /-- Raised by phase TX: `txi` names no byte of the frame (R19). Safe. -/
  | frameIndex
  /-- Raised by phase RP: `rxi` names no register of `DATA` (R19). Safe. -/
  | dataIndex
  /-- Raised by phases TX and CK: the latched descriptor has a shape R87 does not admit. Safe. -/
  | latchedShape
  deriving DecidableEq, Repr

/-- What the spec gives no meaning to and a model refuses by name (R9). Every one is safe: the model stops. -/
inductive Refusal where
  /-- Raised by `exec` alone, for an instruction without a meaning; no arm of this model raises it. Safe. -/
  | notModelled (mnemonic : String)
  /-- Raised by every start of an operation while `busy` is 1 (R52, R87). Safe. -/
  | startWhileBusy
  /-- Raised by a start: `LEN` is 0 or above 6 (R61, R87). Safe. -/
  | frameLength
  /-- Raised by a start: `PCNT` is above 4 (R61, R87). Safe. -/
  | payloadCount
  /-- Raised by a start: `h_pm` is 3 (R34, R87). Safe. -/
  | payloadMode
  /-- Raised by a start: the descriptor has none of the four shapes of R87. Safe. -/
  | descriptorShape
  /-- Raised by `RxPop` on an empty queue (R131); no defined operation reaches it. Safe. -/
  | rxEmpty
  /-- Raised by phase RD: the drain has filled the identifier buffer's `IDENT_CAP` bytes (R17, R83). Safe. -/
  | identOverflow
  /-- Raised by the host's wire operation: its bytes are not exactly one of the six commands (R60). Safe. -/
  | notAWireCommand
  /-- Raised by a sequence whose operand list has another length than its caller owes (R145).
  DESIGN CHOICE, log 18. Safe. -/
  | operandLength
  /-- Raised by a range write past EEPROM address 255 (R39, R97). Safe. -/
  | rangePastEnd
  /-- Raised by `authorizeTag` with a slot above 59 (R98). Safe. -/
  | slotPastEnd
  deriving DecidableEq, Repr

/-- How a part of a step ends. -/
abbrev Result := Host.Outcome State Fault Refusal

/-- The operand registers at reset: unspecified (R33); zeros, log 2. -/
def OperandRegs.reset : OperandRegs :=
  { x := ⟨0, 0, 0, 0, 0, 0⟩, len := 0, mask := 0, ae := false, wl := false, pm := 0, pcnt := 0 }

/-- The private copy at reset: unspecified (R33); zeros, log 2. -/
def Latched.reset : Latched :=
  { x := ⟨0, 0, 0, 0, 0, 0⟩, len := 0, mask := 0, ae := false, wl := false, pm := .none, pcnt := 0
    tmoListen := 0, tmoData := 0, waitOnly := false }

/-- The state after reset (R33, R132). The values the spec gives: both timeouts 1000, `INIT` 0, `LOG` and `IDBUF` empty (so
`IDBUF` is defined content), `phase` IDLE, `busy` 0. The others are named in the assumption log. -/
def State.reset : State :=
  { lastAck := Config.lastAckReset
    tmoListen := tmoDefault
    tmoData := tmoDefault
    init := false
    log := []
    data := ⟨0, 0, 0, 0⟩
    idBuf := []
    opnd := OperandRegs.reset
    lat := Latched.reset
    phase := .idle
    txi := 0
    rxi := 0
    elapsed := 0
    busy := false
    ok := false
    cause := .notListening
    rx := Config.rxAtReset
    removed := []
    tx := []
    ready := Config.readyAtReset
    tag := []
    ee := []
    env := []
    draws := 0
    host := []
    call := none
    results := []
    dataValid := 0
    idValid := true
    okValid := false
    cfg := { identWaitData := true, identCap := Config.identCap } }

end Sys2Proof.Machine
end

