-- ==== Sys2Proof/Machine/Ops.lean ====
section
/-! DEFINITION. The named operations on the machine's parts: the device's memories, the environment's turn, the primitives of
R8, the poll of R65, and the two ways an operation ends: with success, or in a failure (R111, R120). -/

namespace Sys2Proof.Machine

/-- One part of a step after another; a fault or a refusal ends the whole. -/
def andThen (r : Result) (k : State → Result) : Result :=
  match r with
  | .next s => k s
  | .fault f => .fault f
  | .refused x => .refused x

/-! ### The device's memories (R29, R30): lists of cells with rising addresses -/

/-- One byte of a memory; nothing where the device is not known to have stored any. -/
def memRead : List Host.Cell → Nat → Option Byte
  | [], _ => none
  | (b, v) :: m, a => if a = b then some v else memRead m a

/-- Store one byte, keeping the addresses rising. -/
def memWrite : List Host.Cell → Nat → Byte → List Host.Cell
  | [], a, v => [(a, v)]
  | (b, w) :: m, a, v =>
    if a < b then (a, v) :: (b, w) :: m
    else if a = b then (a, v) :: m
    else (b, w) :: memWrite m a v

/-- The canonical form: addresses strictly rising and inside a space of `size` bytes. -/
abbrev memWf (size : Nat) (m : List Host.Cell) : Prop :=
  m.Pairwise (fun c d => c.1 < d.1) ∧ ∀ c ∈ m, c.1 < size

/-- `TAG` has 8 pages of 4 bytes (R29). -/
def tagSize : Nat := 32

/-- `EE` has 256 bytes (R30). -/
def eeSize : Nat := 256

/-- The place of byte `j` of tag page `page` (R29). -/
def tagAddress (page : BitVec 3) (j : BitVec 2) : Nat := 4 * page.toNat + j.toNat

/-- What a list of device stores leaves in `TAG`, the first one stored first. -/
def storeTag : List DevStore → List Host.Cell → List Host.Cell
  | [], m => m
  | .tag page j v :: ds, m => storeTag ds (memWrite m (tagAddress page j) v)
  | .ee _ _ :: ds, m => storeTag ds m

/-- What a list of device stores leaves in `EE`, the first one stored first. -/
def storeEe : List DevStore → List Host.Cell → List Host.Cell
  | [], m => m
  | .tag _ _ _ :: ds, m => storeEe ds m
  | .ee a v :: ds, m => storeEe ds (memWrite m a.toNat v)

/-! ### The environment's turn (R2c, R8) -/

/-- What the environment does in one move: bytes arrive at the tail of `RX`, the line takes a level, the device stores. -/
def applyMove (m : EnvMove) (s : State) : State :=
  { s with
    rx := s.rx ++ m.arrivals
    ready := m.ready
    tag := storeTag m.stores s.tag
    ee := storeEe m.stores s.ee }

/-- The moves of the environment that are listed from here on. -/
def setEnv (ms : List EnvMove) (s : State) : State := { s with env := ms }

/-- `n` more free values have been drawn. -/
def draw (n : Nat) (s : State) : State := { s with draws := s.draws + n }

/-- The environment's next move: the first one listed, else a free one. -/
def nextMove (s : State) : EnvMove × State :=
  match s.env with
  | m :: ms => (m, setEnv ms s)
  | [] => (Config.envMove s.draws, draw 1 s)

/-- One turn of the environment. -/
def envTurn (s : State) : State := applyMove (nextMove s).1 (nextMove s).2

/-! ### The primitives of R8 -/

/-- `ReadyLevel()`: the level of the line once `INIT` is 1; a free level at each sample before that (R27, R126). -/
def readyLevel (s : State) : Level × State :=
  if s.init then (s.ready, s)
  else (Config.unconfiguredLevel s.draws, draw 1 s)

/-- `RxAvail()` (R8). -/
def rxAvail (s : State) : Bool := !s.rx.isEmpty

/-- The head `r` of the receive queue is removed, `q` is left; an observer sees which byte it was (R10). -/
def takeHead (r : Byte) (q : List Byte) (s : State) : State := { s with rx := q, removed := s.removed ++ [r] }

/-- `RxPop()`: the oldest byte of `RX`, removed; nothing on an empty queue (R131). -/
def rxPop (s : State) : Option (Byte × State) :=
  match s.rx with
  | [] => none
  | r :: q => some (r, takeHead r q s)

/-- `TxPush(b)` (R8, R76). -/
def txPush (b : Byte) (s : State) : State := { s with tx := s.tx ++ [b] }

/-- `Log(Timeout(kind))` (R21, R68). -/
def logTimeout (kind : WaitKind) (s : State) : State := { s with log := s.log ++ [kind] }

/-- `pc <- P` (R8, R18). -/
def toPhase (p : Phase) (s : State) : State := { s with phase := p }

/-- `pc <- P` for a phase that begins a wait, whose `elapsed` starts at 0 (R26, R71). -/
def toWait (p : Phase) (s : State) : State := { s with phase := p, elapsed := 0 }

/-! ### One poll of a wait (R65) -/

/-- `Sleep(POLL_INC)`: `elapsed` grows by it (R65). -/
def slept (s : State) : State := { s with elapsed := afterSleep s.elapsed }

/-- The predicate first; if it fails, the deadline, which a timeout of 0 does not have (R66); if it is not due, the sleep,
which adds `POLL_INC` to `elapsed`. -/
def poll (holds : Bool) (timeout : Millis) (kind : WaitKind) (onTrue onTimeout : State → State) (s : State) : State :=
  if holds then onTrue s
  else if deadlinePassed timeout s.elapsed then onTimeout (logTimeout kind s)
  else slept s

/-! ### The end of an operation -/

/-- End `true` (R85): `ok` 1 and valid (R20), `busy` 0, IDLE. `cause` is unspecified after a success (R116): a free value. The payload or the
identifier the operation read is now defined content (R16, R17). -/
def succeed (s : State) : State :=
  { s with
    ok := true
    busy := false
    phase := .idle
    cause := Config.causeAfterSuccess s.draws
    draws := s.draws + 1
    dataValid := if s.lat.pm = .fixed then max s.lat.pcnt s.dataValid else s.dataValid
    idValid := if s.lat.pm = .drain then true else s.idValid
    okValid := true }

/-- Take a failure (R111, R120): `ok` 0 and valid (R20), `busy` 0, IDLE, and the cause. Nothing else is saved and nothing is switched; the
operation's own output buffer is undefined content from here on (R146). -/
def fail (c : FailCause) (s : State) : State :=
  { s with
    ok := false
    busy := false
    phase := .idle
    cause := c
    dataValid := if s.lat.pm = .fixed then 0 else s.dataValid
    idValid := if s.lat.pm = .drain then false else s.idValid
    okValid := true }

/-- End a bare WAIT (R65): the host gets the boolean; `ok` and `cause` are not written. -/
def endWait (v : Bool) (s : State) : State :=
  { s with busy := false, phase := .idle, call := none, results := s.results ++ [{ value := v, out := [] }] }

/-! ### The host's writes (R12, R24, R27) -/

/-- The host writes the operand registers. -/
def writeOperands (r : OperandRegs) (s : State) : State := { s with opnd := r }

/-- The host writes both timeout registers (R24). -/
def writeTimeouts (listen data : Millis) (s : State) : State := { s with tmoListen := listen, tmoData := data }

/-- `INIT <- 1` (R109, R134). -/
def setInit (s : State) : State := { s with init := true }

/-- Reset of the framer (R33, R132): everything that is its own gets its reset value. The device, the queue, the stream and the
line are not reset (R133). -/
def resetFramer (s : State) : State :=
  { s with
    lastAck := State.reset.lastAck
    tmoListen := State.reset.tmoListen
    tmoData := State.reset.tmoData
    init := State.reset.init
    log := State.reset.log
    data := State.reset.data
    idBuf := State.reset.idBuf
    opnd := State.reset.opnd
    lat := State.reset.lat
    phase := State.reset.phase
    txi := State.reset.txi
    rxi := State.reset.rxi
    elapsed := State.reset.elapsed
    busy := State.reset.busy
    ok := State.reset.ok
    cause := State.reset.cause
    dataValid := State.reset.dataValid
    idValid := State.reset.idValid
    okValid := State.reset.okValid }

/-- GETACK (R95). -/
def lastAcknowledgment (s : State) : Byte := s.lastAck

/-- The four bytes the host reads from `DATA`: a register that holds no successful payload reads as a free byte (R146). -/
def hostData (s : State) : List Byte :=
  (dataList s.data).take s.dataValid ++ (dataList (Config.undefinedData s.draws)).drop s.dataValid

/-- The bytes the host reads from `IDBUF`: free unless it is defined content (R17, R33, R146). -/
def hostIdent (s : State) : List Byte :=
  if s.idValid then s.idBuf else Config.undefinedIdent s.draws

/-- The operations the host has still to issue. -/
def setHost (ops : List HostOp) (s : State) : State := { s with host := ops }

/-- The call whose return the host waits for. -/
def setCall (c : Option Call) (s : State) : State := { s with call := c }

/-- Hand a result to the host. -/
def deliver (r : HostResult) (s : State) : State :=
  { s with call := none, results := s.results ++ [r] }

end Sys2Proof.Machine
end

