-- ==== Sys2Proof/Machine/Sequencer.lean ====
section
/-! DEFINITION. The sequencer (R85): the start of an operation, one definition for each row of the table, and the run of an
operation, in which the environment takes a turn before every row. -/

namespace Sys2Proof.Machine

/-! ### Row IDLE: the start -/

/-- The payload mode of an admitted set of operand registers, or the reason they are refused (R87). -/
def admittedMode (r : OperandRegs) : Except Refusal PayloadMode :=
  if !lengthAdmitted r.len.toNat then .error .frameLength
  else if 4 < r.pcnt.toNat then .error .payloadCount
  else match pmOfCode r.pm with
    | none => .error .payloadMode
    | some pm => if shapeAdmitted r.wl r.ae pm r.pcnt.toNat r.len.toNat then .ok pm else .error .descriptorShape

/-- `pc <- TX`, with `txi` 0 (R19, R85). -/
def toTransmit (s : State) : State := { s with phase := .tx, txi := 0 }

/-- The first phase of an operation: `WL` with `elapsed` 0, or `TX` with `txi` 0 (R85 row IDLE). -/
def enterFirstPhase (s : State) : State :=
  if s.lat.wl then toWait .wl s else toTransmit s

/-- Latch the operands and go busy; a drain's buffer is emptied here (R15, R17, R85 row IDLE). -/
def latch (pm : PayloadMode) (s : State) : State :=
  { s with
    lat := latchOperands s.opnd pm s.tmoListen s.tmoData
    busy := true
    idBuf := if pm = .drain then [] else s.idBuf }

/-- Start the operation the operand registers describe (R85 row IDLE, R87). -/
def startOperation (s : State) : Result :=
  if s.busy then .refused .startWhileBusy
  else match admittedMode s.opnd with
    | .error r => .refused r
    | .ok pm => .next (enterFirstPhase (latch pm s))

/-! ### The rows from WL to RD -/

/-- Row WL: one poll of `Listening()`; a bare WAIT ends here, with `true` or `false` (R65, R69). -/
def rowWL (s : State) : Result :=
  .next (poll ((readyLevel s).1 == .low) s.lat.tmoListen .listen
    (if s.lat.waitOnly then endWait true else toTransmit)
    (if s.lat.waitOnly then endWait false else fail .notListening) (readyLevel s).2)

/-- Where the operation goes once the whole frame is sent (R85 row TX). -/
def afterFrame (s : State) : Result :=
  match s.lat.ae, s.lat.pm with
  | true, _ => .next (toWait .wa s)
  | false, .drain => .next (if s.cfg.identWaitData then toWait .wd s else toPhase .dc s)
  | false, .none => .next (succeed s)
  | false, .fixed => .fault .latchedShape

/-- One frame byte has been sent: `TxPush(b)`, `txi <- txi + 1` (R85 row TX). -/
def sentByte (b : Byte) (s : State) : State := { txPush b s with txi := s.txi + 1 }

/-- Row TX: `TxPush(x[txi])` (R76). -/
def rowTX (s : State) : Result :=
  if s.txi < s.lat.len then
    match frameGet s.lat.x s.txi with
    | none => .fault .frameIndex
    | some b => if s.txi + 1 < s.lat.len then .next (sentByte b s) else afterFrame (sentByte b s)
  else .fault .frameIndex

/-- Row WA: one poll of `RxAvail()` for the acknowledgment (R77); a bare WAIT for data polls here too (R65, R70). -/
def rowWA (s : State) : Result :=
  .next (poll (rxAvail s) s.lat.tmoData .data
    (if s.lat.waitOnly then endWait true else toPhase .sa)
    (if s.lat.waitOnly then endWait false else fail .noResponse) s)

/-- Row SA: the settle delay, which changes nothing else (R78). -/
def rowSA (s : State) : Result := .next (toPhase .ra s)

/-- `LAST_ACK <- r` (R79). -/
def storeAck (r : Byte) (s : State) : State := { s with lastAck := r }

/-- Row RA: one byte is read and stored in `LAST_ACK`, whatever it is (R78, R79). -/
def rowRA (s : State) : Result :=
  match rxPop s with
  | none => .refused .rxEmpty
  | some (r, t) => .next (toPhase .ck (storeAck r t))

/-- `pc <- WP`, with `rxi` and `elapsed` 0 (R19, R85). -/
def toPayload (s : State) : State := { s with phase := .wp, rxi := 0, elapsed := 0 }

/-- Row CK: the masked comparison (R80). -/
def rowCK (s : State) : Result :=
  if ackAccepted s.lastAck s.lat.mask then
    match s.lat.pm with
    | .fixed => .next (toPayload s)
    | .none => .next (succeed s)
    | .drain => .fault .latchedShape
  else .next (fail .ackMismatch s)

/-- Row WP: one poll of `RxAvail()` for payload byte `rxi` (R82). -/
def rowWP (s : State) : Result :=
  .next (poll (rxAvail s) s.lat.tmoData .data (toPhase .sp) (fail .payloadTimeout) s)

/-- Row SP: the settle delay before a payload byte (R82). -/
def rowSP (s : State) : Result := .next (toPhase .rp s)

/-- `DATA[rxi]` has been written: the registers are now `d`, `rxi <- rxi + 1` (R85 row RP). -/
def storedPayload (d : DataRegs) (s : State) : State := { s with data := d, rxi := s.rxi + 1 }

/-- Row RP: one payload byte goes to `DATA[rxi]` (R82); the next byte has a wait of its own (D6). -/
def rowRP (s : State) : Result :=
  match rxPop s with
  | none => .refused .rxEmpty
  | some (r, t) =>
    match dataSet s.data s.rxi r with
    | none => .fault .dataIndex
    | some d =>
      .next (if s.rxi + 1 < s.lat.pcnt then toWait .wp (storedPayload d t) else succeed (storedPayload d t))

/-- Row WD: one poll of `RxAvail()` before a drain (R83). -/
def rowWD (s : State) : Result :=
  .next (poll (rxAvail s) s.lat.tmoData .data (toPhase .dc) (fail .noResponse) s)

/-- Row DC: the drain ends the first time the queue is found empty (R83). -/
def rowDC (s : State) : Result := .next (if rxAvail s then toPhase .sd s else succeed s)

/-- Row SD: the settle delay before a drained byte (R83). -/
def rowSD (s : State) : Result := .next (toPhase .rd s)

/-- `IDBUF <- IDBUF ++ [r]` (R83). -/
def storeIdent (r : Byte) (s : State) : State := { s with idBuf := s.idBuf ++ [r] }

/-- Row RD: one drained byte is appended to `IDBUF`; a byte beyond its capacity is refused (R83, D8). -/
def rowRD (s : State) : Result :=
  match rxPop s with
  | none => .refused .rxEmpty
  | some (r, t) =>
    if s.idBuf.length < s.cfg.identCap then .next (toPhase .dc (storeIdent r t))
    else .refused .identOverflow

/-- The row that `phase` names (R18, R85), for an operation in progress. -/
def row (s : State) : Result :=
  match s.phase with
  | .idle => .fault .busyWhileIdle
  | .wl => rowWL s
  | .tx => rowTX s
  | .wa => rowWA s
  | .sa => rowSA s
  | .ra => rowRA s
  | .ck => rowCK s
  | .wp => rowWP s
  | .sp => rowSP s
  | .rp => rowRP s
  | .wd => rowWD s
  | .dc => rowDC s
  | .sd => rowSD s
  | .rd => rowRD s

/-! ### The run of an operation -/

/-- Run the operation in progress through a list of moves of the environment: a move, then a row, until the operation ends
or the moves do. Moves that are left belong to what comes after; an operation that outlasts the moves stays `busy`. -/
def drive : List EnvMove → State → Result
  | [], s => .next (setEnv [] s)
  | m :: ms, s =>
    if s.busy then andThen (row (applyMove m (setEnv ms s))) (drive ms) else .next (setEnv (m :: ms) s)

/-- Run the operation in progress as far as the listed moves reach. -/
def driveListed (s : State) : Result := drive s.env s

/-- Go on with the operation in progress: the environment's next move, listed or free, one row, and then as far as the
listed moves reach. -/
def resume (s : State) : Result := andThen (row (envTurn s)) driveListed

/-- Start the operation in the operand registers and run it as far as the listed moves reach. -/
def runOperation (s : State) : Result := andThen (startOperation s) driveListed

/-- Start a bare WAIT with its own timeout (R65, R71) and run it as far as the listed moves reach. -/
def runWait (kind : WaitKind) (timeout : Millis) (s : State) : Result :=
  if s.busy then .refused .startWhileBusy
  else
    let l := { latchOperands s.opnd .none timeout timeout with waitOnly := true }
    let t := { s with lat := l, busy := true, elapsed := 0 }
    match kind with
    | .listen => driveListed (toPhase .wl t)
    | .data => driveListed (toPhase .wa t)

end Sys2Proof.Machine
end

