-- ==== Sys2Proof/Machine/Commands.lean ====
section
/-! DEFINITION. The meanings of the six wire commands (R88 to R94): the host loads the frame and the descriptor of R55 and
starts the sequencer, which runs the operation. Each command has a definition of its own. -/

namespace Sys2Proof.Machine

/-- Load a descriptor into the operand registers and run the operation (R88). -/
def issue (d : Descriptor) (s : State) : Result :=
  runOperation (writeOperands (loadDescriptor s.opnd d) s)

/-- RDPAGE: `[0x52, page]`, read mask, then 4 payload bytes (R89). -/
def execRdpage (page : Byte) (s : State) : Result := issue (descriptorOf (.rdpage page)) s

/-- WRPAGE: `[0x57, page, d0, d1, d2, d3]`, write mask, no payload (R90). -/
def execWrpage (page d0 d1 d2 d3 : Byte) (s : State) : Result := issue (descriptorOf (.wrpage page d0 d1 d2 d3)) s

/-- STATUS: `[0x53]`, status mask, no payload (R91). -/
def execStatus (s : State) : Result := issue (descriptorOf .status) s

/-- UID: `[0x55]`, UID mask, then 4 payload bytes (R92). -/
def execUid (s : State) : Result := issue (descriptorOf .uid) s

/-- IDENT: `[0x7A]`, no acknowledgment and no mask, then a drain into `IDBUF` (R93). -/
def execIdent (s : State) : Result := issue (descriptorOf .ident) s

/-- PROGEE: `[0x50, address, value]`, program mask, no payload (R94). -/
def execProgee (address value : Byte) (s : State) : Result := issue (descriptorOf (.progee address value)) s

end Sys2Proof.Machine
end

