-- ==== Sys2Proof/Machine/Dispatch.lean ====
section
/-! DEFINITION. One arm for each wire command, each one call of its meaning. -/

namespace Sys2Proof.Machine

def exec (i : Instr) (s : State) : Host.Outcome State Fault Refusal :=
  match i with
  | .rdpage page => Sys2Proof.Machine.execRdpage page s
  | .wrpage page d0 d1 d2 d3 => Sys2Proof.Machine.execWrpage page d0 d1 d2 d3 s
  | .status => Sys2Proof.Machine.execStatus s
  | .uid => Sys2Proof.Machine.execUid s
  | .ident => Sys2Proof.Machine.execIdent s
  | .progee address value => Sys2Proof.Machine.execProgee address value s

end Sys2Proof.Machine
end

