-- ==== Sys2Proof/Machine/Sequences.lean ====
section
/-! DEFINITION. The sequences (R96 to R110): each expands into wire commands, issued one after the other. The framer holds no
state for them; the host does (Machine/HostAgent.lean). -/

namespace Sys2Proof.Machine

/-- One PROGEE for each byte, at ascending addresses from `a` (R97). -/
def rangeWrites : Nat → List Byte → List Instr
  | _, [] => []
  | a, v :: vs => .progee (BitVec.ofNat 8 a) v :: rangeWrites (a + 1) vs

/-- One WRPAGE for each full block of four bytes, at ascending pages from `4 + k` (R103). -/
def userWrites : Nat → List Byte → List Instr
  | k, d0 :: d1 :: d2 :: d3 :: rest => .wrpage (userPage k) d0 d1 d2 d3 :: userWrites (k + 1) rest
  | _, _ => []

/-- The wire commands of a sequence, in order (R97 to R108, R110). -/
def commandsOf : Sequence → List Instr
  | .writeEEPROMRange start data length => rangeWrites start.toNat (data.take length)
  | .authorizeTag uid slot => rangeWrites (slotAddress slot) uid
  | .deauthorizeAllTags => (List.range 60).flatMap fun slot => rangeWrites (slotAddress slot) [0, 0, 0, 0]
  | .setReaderPassword password => rangeWrites readerPasswordAddress password
  | .setTagPassword password =>
    match password with
    | [p0, p1, p2] => [.wrpage tagPasswordPage tagPasswordLead p0 p1 p2]
    | _ => []
  | .setTagPasswordInEEPROM password => rangeWrites tagPasswordAddress password
  | .writeUserData data => userWrites 0 data
  | .readUserData => [.rdpage (userPage 0), .rdpage (userPage 1), .rdpage (userPage 2), .rdpage (userPage 3)]
  | .enableUIDQuery => rangeWrites uidEnableAddress [0xFF, 0xFF, 0xFF, 0xFF]
  | .getStatus => [.status]
  | .getUID => [.uid]
  | .getIdentifier => [.ident]
  | .writeTagPage page data =>
    match data with
    | [d0, d1, d2, d3] => [.wrpage page d0 d1 d2 d3]
    | _ => []
  | .readTagPage page => [.rdpage page]
  | .writeEEPROMByte address value => [.progee address value]

/-- The output buffer a sequence fills (R104, R107, R108, R110). -/
def sequenceOut : Sequence → OutBuffer
  | .readUserData => .userData
  | .getUID => .payload
  | .readTagPage _ => .payload
  | .getIdentifier => .identifier
  | _ => .nothing

/-- Why a sequence with right operand lengths is refused: its slot (R98), else its range (R39). -/
def rangeRefusal : Sequence → Refusal
  | .authorizeTag _ _ => .slotPastEnd
  | _ => .rangePastEnd

/-- The expansion of a sequence, or why it is refused (R39, R97, R98). -/
def expand (q : Sequence) : Except Refusal (List Instr) :=
  if !sequenceLengthsRight q then .error .operandLength
  else if !sequenceRangesRight q then .error (rangeRefusal q)
  else .ok (commandsOf q)

/-- The bytes a list of commands puts on `TX` when nothing fails (R47). -/
def framesOf (is : List Instr) : List Byte := is.flatMap encode

end Sys2Proof.Machine
end

