-- ==== Sys2Proof/Machine/HostAgent.lean ====
section
/-! DEFINITION. The host (R2a, R96): it issues one operation at a time, only while the framer is idle (R47), reads `ok` when
the operation has ended, goes on with a sequence or stops it at its first failure, and takes the results. -/

namespace Sys2Proof.Machine

/-- The output buffer a single command fills (R63). -/
def commandOut : Instr → OutBuffer
  | .rdpage _ => .payload
  | .wrpage _ _ _ _ _ => .nothing
  | .status => .nothing
  | .uid => .payload
  | .ident => .identifier
  | .progee _ _ => .nothing

/-- The output buffer a generic operation fills: that of its payload mode (R14). -/
def modeOut (pm : BitVec 2) : OutBuffer :=
  match pmOfCode pm with
  | some .fixed => .payload
  | some .drain => .identifier
  | _ => .nothing

/-- The call of a single operation. -/
def singleCall (out : OutBuffer) : Call := { todo := [], out := out, got := [] }

/-- The host's buffer after one more command has succeeded: `data <- DATA`, `d[4k..4k+3] <- DATA`, `buffer <- IDBUF`
(R104, R107, R108, R110). -/
def collect (c : Call) (s : State) : List Byte :=
  match c.out with
  | .nothing => []
  | .payload => (dataList s.data).take s.lat.pcnt
  | .userData => c.got ++ dataList s.data
  | .identifier => s.idBuf

/-- The host's buffer after a failure: undefined content, free bytes (R104, R146). -/
def undefinedOut (c : Call) (s : State) : List Byte :=
  match c.out with
  | .nothing => []
  | .payload => (dataList (Config.undefinedData s.draws)).take s.lat.pcnt
  | .userData => (List.range 4).flatMap fun k => dataList (Config.undefinedData (s.draws + k))
  | .identifier => Config.undefinedIdent s.draws

/-- An operation of the host's call has ended and the host reads `ok` (R96): on 0 the call returns `false` and issues nothing
more; on 1 the next command is issued, or the call returns `true`. -/
def hostReturn (c : Call) (s : State) : Result :=
  if s.ok then
    match c.todo with
    | [] => .next (deliver { value := true, out := collect c s } s)
    | i :: rest => exec i (setCall (some { c with todo := rest, got := collect c s }) s)
  else .next (deliver { value := false, out := undefinedOut c s } (draw 4 s))

/-- Begin a sequence: issue its first command; one without commands returns `true` (R97, D14). -/
def beginSequence (q : Sequence) (s : State) : Result :=
  match expand q with
  | .error r => .refused r
  | .ok [] => .next (deliver { value := true, out := [] } s)
  | .ok (i :: rest) => exec i (setCall (some { todo := rest, out := sequenceOut q, got := [] }) s)

/-- Run one of the host's operations, the framer being idle. -/
def hostIssue (op : HostOp) (s : State) : Result :=
  match op with
  | .wire frame =>
    match decodeFrame frame with
    | some i => exec i (setCall (some (singleCall (commandOut i))) s)
    | none => .refused .notAWireCommand
  | .sendCommand bytes mask =>
    if lengthAdmitted bytes.length then
      issue (sendCommandDescriptor bytes mask) (setCall (some (singleCall .nothing)) s)
    else .refused .frameLength
  | .sendByte b => issue (sendByteDescriptor b) (setCall (some (singleCall .nothing)) s)
  | .load r => .next (writeOperands r s)
  | .start => runOperation (setCall (some (singleCall (modeOut s.opnd.pm))) s)
  | .wait kind timeout => runWait kind timeout (setCall (some (singleCall .nothing)) s)
  | .setTimeouts listen data => .next (writeTimeouts listen data s)
  | .getAck => .next (deliver { value := true, out := [lastAcknowledgment s] } s)
  | .readData => .next (deliver { value := true, out := hostData s } (draw 1 s))
  | .readIdent => .next (deliver { value := true, out := hostIdent s } (draw 1 s))
  | .beginFramer enableUID =>
    if enableUID then beginSequence .enableUIDQuery (setInit s)
    else .next (deliver { value := true, out := [] } (setInit s))
  | .sequence q => beginSequence q s
  | .reset => .next (resetFramer s)

/-- What happens while the framer is idle: the host takes a return, or issues its next operation; when it has none, the
environment goes on and the framer does nothing (R129, R150). -/
def hostTurn (s : State) : Result :=
  match s.call with
  | some c => hostReturn c s
  | none =>
    match s.host with
    | [] => .next (envTurn s)
    | op :: rest => hostIssue op (setHost rest s)

/-- Put a frame where the next step takes its operation from: at the head of the host's operations, the framer idle and no
return outstanding. -/
def placeFrame (frame : List Byte) (s : State) : State :=
  { s with host := .wire frame :: s.host, call := none, busy := false, phase := .idle }

end Sys2Proof.Machine
end

