-- ==== Sys2Proof/Machine/Step.lean ====
section
/-! DEFINITION. One step of the whole (R2): an operation in progress goes on, or the host takes its turn. -/

namespace Sys2Proof.Machine

/-- One step. -/
def step (s : State) : Host.Outcome State Fault Refusal :=
  if s.busy then resume s else hostTurn s

/-- The state whose next step runs the command of an opcode-table word: the word's frame is the host's next operation. -/
def State.withFetchWord (s : State) (nbits w : Nat) : State := placeFrame (tableFrame nbits w) s

end Sys2Proof.Machine
end

