-- ==== Sys2Proof/Machine/Procedures.lean ====
section
/-! DEFINITION. The procedures of R65, R74, R82, R83 and R89 to R94, written as the spec's pseudocode has them. R85 says that
they and the sequencer's table say the same thing and that they govern; the two are compared in a statement. A primitive
consumes one listed move of the environment before it acts (R8); a procedure that the listed moves do not carry to its end
is `unfinished`. -/

namespace Sys2Proof.Machine

/-- How a procedure stands. -/
inductive Ended where
  /-- `return true`. -/
  | returned (s : State)
  /-- `raise Fail(cause)`. -/
  | failed (c : FailCause) (s : State)
  /-- The listed moves ran out before the end. -/
  | unfinished
  /-- The model refuses what comes next (R83, R131). -/
  | stopped (r : Refusal)

/-- One procedure after another: a failure ends the whole (R119). -/
def procThen (x : Ended) (k : State → Ended) : Ended :=
  match x with
  | .returned s => k s
  | .failed c s => .failed c s
  | .unfinished => .unfinished
  | .stopped r => .stopped r

/-- The environment's turn before a primitive. -/
def procTurn (k : State → Ended) (s : State) : Ended :=
  match s.env with
  | [] => .unfinished
  | m :: ms => k (applyMove m (setEnv ms s))

/-- One sample of a wait's predicate (R69, R70). -/
def procSample (kind : WaitKind) (s : State) : Bool × State :=
  match kind with
  | .listen => ((readyLevel s).1 == .low, (readyLevel s).2)
  | .data => (rxAvail s, s)

/-- `WAIT(predicate, T, kind)`, raising `cause` where it returns `false` (R65). -/
def procWait (kind : WaitKind) (timeout : Millis) (cause : FailCause) : List EnvMove → Millis → State → Ended
  | [], _, _ => .unfinished
  | m :: ms, elapsed, s =>
    let t := applyMove m (setEnv ms s)
    let p := procSample kind t
    if p.1 then .returned p.2
    else if deadlinePassed timeout elapsed then .failed cause (logTimeout kind p.2)
    else procWait kind timeout cause ms (afterSleep elapsed) p.2

/-- `for i: TxPush(x[i])` (R74 step 2). -/
def procTransmit : List Byte → State → Ended
  | [], s => .returned s
  | b :: bs, s => procTurn (fun t => procTransmit bs (txPush b t)) s

/-- `Sleep(SETTLE); r <- RxPop()` (R78). -/
def procRead (k : Byte → State → Ended) (s : State) : Ended :=
  procTurn (procTurn (fun u =>
    match rxPop u with
    | none => .stopped .rxEmpty
    | some (r, v) => k r v)) s

/-- SENDCMD, steps 1 to 6 (R74). -/
def procSendCommand (frame : List Byte) (mask : Byte) (s : State) : Ended :=
  procThen (procWait .listen s.tmoListen .notListening s.env 0 s) fun s1 =>
  procThen (procTransmit frame s1) fun s2 =>
  procThen (procWait .data s2.tmoData .noResponse s2.env 0 s2) fun s3 =>
  procRead (fun r s4 =>
    procTurn (fun s5 => if ackAccepted s5.lastAck mask then .returned s5 else .failed .ackMismatch s5)
      (storeAck r s4)) s3

/-- READBYTES, `n` bytes from index `j` on (R82). -/
def procReadBytes : Nat → Nat → State → Ended
  | 0, _, s => .returned s
  | n + 1, j, s =>
    procThen (procWait .data s.tmoData .payloadTimeout s.env 0 s) fun t =>
    procRead (fun r u =>
      match dataSet u.data j r with
      | none => .stopped .payloadCount
      | some d => procReadBytes n (j + 1) { u with data := d }) t

/-- `while RxAvail(): Sleep(SETTLE); IDBUF <- IDBUF ++ [RxPop()]` (R83). -/
def procDrainLoop : List EnvMove → State → Ended
  | [], _ => .unfinished
  | [m], s =>
    let t := applyMove m (setEnv [] s)
    if rxAvail t then .unfinished else .returned t
  | [m, m1], s =>
    let t := applyMove m (setEnv [m1] s)
    if rxAvail t then .unfinished else .returned t
  | m :: m1 :: m2 :: ms, s =>
    let t := applyMove m (setEnv (m1 :: m2 :: ms) s)
    if rxAvail t then
      let u := applyMove m2 (setEnv ms (applyMove m1 (setEnv (m2 :: ms) t)))
      match rxPop u with
      | none => .stopped .rxEmpty
      | some (r, v) =>
        if v.idBuf.length < v.cfg.identCap then procDrainLoop ms (storeIdent r v)
        else .stopped .identOverflow
    else .returned t

/-- DRAIN (R83). -/
def procDrain (s : State) : Ended :=
  if s.cfg.identWaitData then
    procThen (procWait .data s.tmoData .noResponse s.env 0 s) fun t => procDrainLoop t.env t
  else procDrainLoop s.env s

/-- The six commands as the spec's pseudocode composes them (R89 to R94). -/
def procedureOf : Instr → State → Ended
  | .rdpage page, s => procThen (procSendCommand [0x52, page] 0x3E s) (procReadBytes 4 0)
  | .wrpage page d0 d1 d2 d3, s => procSendCommand [0x57, page, d0, d1, d2, d3] 0x3E s
  | .status, s => procSendCommand [0x53] 0x28 s
  | .uid, s => procThen (procSendCommand [0x55] 0x3E s) (procReadBytes 4 0)
  | .ident, s =>
    procThen (procWait .listen s.tmoListen .notListening s.env 0 { s with idBuf := [] }) fun s1 =>
    procThen (procTransmit [0x7A] s1) procDrain
  | .progee address value, s => procSendCommand [0x50, address, value] 0x01 s

end Sys2Proof.Machine
end

