-- ==== Sys2Proof/WellFormed.lean ====
section
/-! DEFINITION. What a well-formed operation is. A command is well formed when its descriptor has one of the shapes of R87;
the framer checks no operand's range (R39), so every command is. A descriptor or a set of operand registers may be ill
formed, and so may a sequence's operands, which are the caller's duty (R39, R145). -/

namespace Sys2Proof

open Sys2Proof.Machine

/-- A command is well formed when the sequencer admits its descriptor (R87). -/
def Instr.wellFormed (i : Instr) : Bool := descriptorAdmitted (descriptorOf i)

/-- A sequence is well formed when its operands have the lengths and ranges the caller owes (R39, R97, R98, R145). -/
def sequenceWellFormed (q : Sequence) : Bool := sequenceLengthsRight q && sequenceRangesRight q

end Sys2Proof
end

