-- ==== Sys2Proof/Safety.lean ====
section
/-! DEFINITION. What claims are stated in: what an observer sees (R10), the invariant of the machine, the caller's duties
(R145), and the schedules of the environment under which a wait, a payload read or a drain ends. -/

namespace Sys2Proof.Machine

/-! ### What an observer sees -/

/-- The part of `DATA` that is defined content: the payload of a successful operation (R16, R146). While an operation runs the
host may not read it (R16), so none of a payload that is half read is shown. -/
def definedData (s : State) : List Byte := if s.busy then [] else (dataList s.data).take s.dataValid

/-- What `IDBUF` holds where it is defined content (R17, R146): the identifier of a successful operation, or the empty buffer of
reset (R33). While an operation runs none of it is shown. -/
def definedIdent (s : State) : Option (List Byte) := if s.busy then none else if s.idValid then some s.idBuf else none

/-- What an observer of the block sees of a state (R10): the bytes sent, the bytes removed from the receive queue, the boolean of
the operation that has ended, what the host's calls have returned, `LAST_ACK`, the defined output buffers and the log. -/
structure Observation where
  tx      : List Byte
  removed : List Byte
  ok      : Option Bool
  results : List HostResult
  lastAck : Byte
  data    : List Byte
  idBuf   : Option (List Byte)
  log     : List WaitKind
  deriving DecidableEq, Repr

/-- The boolean of the operation that ended last, where `ok` is valid: `busy` is 0 and an operation has ended since reset (R20,
R33; log 20). -/
def definedOk (s : State) : Option Bool := if s.busy then none else if s.okValid then some s.ok else none

/-- What an observer sees of a state: the flag and the output buffers only where they are valid (R16, R20). -/
def observe (s : State) : Observation :=
  { tx := s.tx, removed := s.removed, ok := definedOk s, results := s.results, lastAck := s.lastAck
    data := definedData s, idBuf := definedIdent s, log := s.log }

/-- What an observer sees once an operation with payload mode `pm`, started in `s`, has ended with result `v` and left the
streams, the registers and the log of `t` (R10): the operation's own output buffer is defined content just after a success,
and the other buffer is what it was. -/
def endedObservation (pm : PayloadMode) (v : Bool) (s t : State) : Observation :=
  { tx := t.tx, removed := t.removed, ok := some v, results := s.results, lastAck := t.lastAck
    data := if pm = .fixed then (if v then dataList t.data else []) else definedData s
    idBuf := if pm = .drain then (if v then some t.idBuf else none) else definedIdent s
    log := t.log }

/-- What the sequencer and the procedures are compared by: more than an observer sees, the raw buffers after a failure, the
device and the line and the moves of the environment that are left. -/
structure Comparison where
  tx      : List Byte
  rx      : List Byte
  removed : List Byte
  lastAck : Byte
  data    : DataRegs
  idBuf   : List Byte
  log     : List WaitKind
  ready   : Level
  tag     : List Host.Cell
  ee      : List Host.Cell
  env     : List EnvMove
  deriving DecidableEq, Repr

/-- The part of a state that the two forms are compared by. -/
def compared (s : State) : Comparison :=
  { tx := s.tx, rx := s.rx, removed := s.removed, lastAck := s.lastAck, data := s.data, idBuf := s.idBuf, log := s.log
    ready := s.ready, tag := s.tag, ee := s.ee, env := s.env }

/-- The same step result with its next state changed by `f`. -/
def mapNext (f : State → State) (r : Result) : Result :=
  match r with
  | .next s => .next (f s)
  | .fault x => .fault x
  | .refused x => .refused x

/-! ### The invariant -/

/-- A latched operation is a bare WAIT or has one of the shapes of R87. -/
def latchedAdmitted (l : Latched) : Bool :=
  l.waitOnly || (lengthAdmitted l.len && decide (l.pcnt ≤ 4) && shapeAdmitted l.wl l.ae l.pm l.pcnt l.len)

/-- With a deadline `elapsed` counts whole sleeps and never passes the multiple of `POLL_INC` at which the wait fails, so its 16
bits suffice (R67, R73); without one nothing is said of it, since no rule reads it (log 17). -/
def elapsedRight (timeout elapsed : Millis) : Prop :=
  timeout ≠ 0 → elapsed.toNat % pollInc = 0 ∧ elapsed.toNat ≤ pollInc * failingSleeps timeout.toNat

/-- The position of a running operation agrees with what it latched and with the receive queue (R85, R131). -/
def positionRight (s : State) : Prop :=
  match s.phase with
  | .idle => False
  | .wl => (s.lat.waitOnly = true ∨ s.lat.wl = true) ∧ elapsedRight s.lat.tmoListen s.elapsed
  | .tx => s.lat.waitOnly = false ∧ s.txi < s.lat.len
  | .wa => (s.lat.waitOnly = true ∨ s.lat.ae = true) ∧ elapsedRight s.lat.tmoData s.elapsed
  | .sa => s.lat.waitOnly = false ∧ s.lat.ae = true ∧ s.rx ≠ []
  | .ra => s.lat.waitOnly = false ∧ s.lat.ae = true ∧ s.rx ≠ []
  | .ck => s.lat.waitOnly = false ∧ s.lat.ae = true
  | .wp => s.lat.waitOnly = false ∧ s.lat.pm = .fixed ∧ s.rxi < s.lat.pcnt ∧ elapsedRight s.lat.tmoData s.elapsed
  | .sp => s.lat.waitOnly = false ∧ s.lat.pm = .fixed ∧ s.rxi < s.lat.pcnt ∧ s.rx ≠ []
  | .rp => s.lat.waitOnly = false ∧ s.lat.pm = .fixed ∧ s.rxi < s.lat.pcnt ∧ s.rx ≠ []
  | .wd => s.lat.waitOnly = false ∧ s.lat.pm = .drain ∧ elapsedRight s.lat.tmoData s.elapsed
  | .dc => s.lat.waitOnly = false ∧ s.lat.pm = .drain
  | .sd => s.lat.waitOnly = false ∧ s.lat.pm = .drain ∧ s.rx ≠ []
  | .rd => s.lat.waitOnly = false ∧ s.lat.pm = .drain ∧ s.rx ≠ []

/-- The invariant of every step: `busy` and `phase` agree (R18, R20), a running operation is one the sequencer admits and is
where its phase says, the device's memories are in canonical form inside their spaces (R29, R30), and the identifier fits
its buffer (R17), and while the host waits for a call's return the `ok` it will read is, or is going to be, valid (R20, R96). -/
structure Invariant (s : State) : Prop where
  busy_iff : s.busy = true ↔ s.phase ≠ .idle
  running  : s.busy = true → latchedAdmitted s.lat = true ∧ positionRight s
  tag_wf   : memWf tagSize s.tag
  ee_wf    : memWf eeSize s.ee
  ident    : s.idBuf.length ≤ s.cfg.identCap
  data     : s.dataValid ≤ 4
  verdict  : s.busy = false → s.call ≠ none → s.okValid = true

/-! ### The caller's duties -/

/-- The page of a command is one the tag has (R39, R145): the caller's duty, which the framer does not check. -/
def pageInRange : Instr → Bool
  | .rdpage page => decide (page.toNat ≤ 7)
  | .wrpage page _ _ _ _ => decide (page.toNat ≤ 7)
  | _ => true

/-- The framer is ready for a wire command (R135): idle, and the ready line configured. -/
def Ready (s : State) : Prop := s.busy = false ∧ s.init = true

/-! ### Schedules of the environment -/

/-- The bytes that arrive in a list of moves, in order. -/
def arrived (ms : List EnvMove) : List Byte := ms.flatMap EnvMove.arrivals

/-- A state after a list of the environment's moves, the framer doing nothing. -/
def afterMoves (ms : List EnvMove) (s : State) : State := ms.foldl (fun t m => applyMove m t) s

/-- The samples of `Listening()` that polls after these moves take (R69). -/
def listenSamples (ms : List EnvMove) : List Bool := ms.map fun m => m.ready == .low

/-- The samples of `RxAvail()` that polls after these moves take, the queue holding `rx` before them (R70). -/
def dataSamples (rx : List Byte) : List EnvMove → List Bool
  | [] => []
  | m :: ms => (!(rx ++ m.arrivals).isEmpty) :: dataSamples (rx ++ m.arrivals) ms

/-- A listen wait that begins before these moves succeeds at the poll after the last of them (R65, R72). -/
def Listens (timeout : Millis) (ms : List EnvMove) : Prop :=
  ∃ e, waitFor timeout 0 (listenSamples ms) = .holds e []

/-- A data wait that begins before these moves, the queue holding `rx`, succeeds at the poll after the last of them. -/
def Answers (timeout : Millis) (rx : List Byte) (ms : List EnvMove) : Prop :=
  ∃ e, waitFor timeout 0 (dataSamples rx ms) = .holds e []

/-- The moves of one payload byte: those of its wait, then those of the settle and the read (R82). -/
structure ByteMoves where
  polls : List EnvMove
  turn1 : EnvMove
  turn2 : EnvMove

/-- The moves of one payload byte, in order. -/
def ByteMoves.moves (b : ByteMoves) : List EnvMove := b.polls ++ [b.turn1, b.turn2]

/-- Each payload byte's own wait succeeds, the queue holding `rx` before the first (R82, D6). -/
def PayloadArrives (timeout : Millis) (rx : List Byte) : List ByteMoves → Prop
  | [] => True
  | b :: bs => Answers timeout rx b.polls ∧ PayloadArrives timeout (rx ++ arrived b.moves).tail bs

/-- The moves of one drained byte: those of the check, the settle and the read (R83). -/
structure DrainMoves where
  turn1 : EnvMove
  turn2 : EnvMove
  turn3 : EnvMove

/-- The moves of one drained byte, in order. -/
def DrainMoves.moves (d : DrainMoves) : List EnvMove := [d.turn1, d.turn2, d.turn3]

/-- The queue, holding `rx` before the first check, is non-empty at each of these checks and empty at the check after `last`
(R83). -/
def Drains (rx : List Byte) : List DrainMoves → EnvMove → Prop
  | [], last => rx ++ last.arrivals = []
  | d :: ds, last => rx ++ d.turn1.arrivals ≠ [] ∧ Drains (rx ++ arrived d.moves).tail ds last

/-- The queue, holding `rx` before the first check, is non-empty at each of these checks (R83). -/
def Fed (rx : List Byte) : List DrainMoves → Prop
  | [] => True
  | d :: ds => rx ++ d.turn1.arrivals ≠ [] ∧ Fed (rx ++ arrived d.moves).tail ds

/-! ### How an operation has ended -/

/-- An operation that reads an acknowledgment and nothing more has ended (R74, R86): the whole frame is sent, exactly the oldest
byte of the queue is taken and is in `LAST_ACK`, `ok` is the masked comparison, and nothing is logged. `used` are the moves of
the environment up to the end, `rest` those left. -/
def AckEnd (s t : State) (frame : List Byte) (mask : Byte) (used rest : List EnvMove) : Prop :=
  t.busy = false ∧ t.phase = .idle ∧ t.tx = s.tx ++ frame ∧ s.rx ++ arrived used = t.lastAck :: t.rx ∧
  t.removed = s.removed ++ [t.lastAck] ∧
  (t.ok = true ↔ t.lastAck &&& mask = 0xD6 &&& mask) ∧ (t.ok = false → t.cause = .ackMismatch) ∧
  t.okValid = true ∧ t.log = s.log ∧ t.data = s.data ∧ t.idBuf = s.idBuf ∧ t.env = rest

/-- An operation with an accepted acknowledgment `r` and `n` payload bytes has ended with success (R82, R89, R92): the bytes
after `r` are in the first `n` registers of `DATA` in arrival order, the other registers are unchanged, and the rest stays in
the queue. That `LAST_ACK` still holds `r` is decision D32. -/
def PayloadEnd (s t : State) (frame : List Byte) (r : Byte) (n : Nat) (used rest : List EnvMove) : Prop :=
  t.busy = false ∧ t.phase = .idle ∧ t.ok = true ∧ t.tx = s.tx ++ frame ∧ t.lastAck = r ∧
  s.rx ++ arrived used = r :: ((dataList t.data).take n ++ t.rx) ∧ (dataList t.data).drop n = (dataList s.data).drop n ∧
  t.removed = s.removed ++ r :: (dataList t.data).take n ∧ t.okValid = true ∧ n ≤ t.dataValid ∧ t.log = s.log ∧ t.idBuf = s.idBuf ∧ t.env = rest

/-- An operation has ended in a failure (R120): `ok` 0, `busy` 0, IDLE, the cause; `frame` has been sent, the log has gained
`logged`, and the environment's moves `rest` are left. -/
def FailEnd (s t : State) (c : FailCause) (frame : List Byte) (logged : List WaitKind) (rest : List EnvMove) : Prop :=
  t.busy = false ∧ t.phase = .idle ∧ t.ok = false ∧ t.okValid = true ∧ t.cause = c ∧ t.tx = s.tx ++ frame ∧ t.log = s.log ++ logged ∧
  t.env = rest

/-- No move in a list stores at byte `a` of `TAG`. -/
def noTagStore (a : Nat) (ms : List EnvMove) : Prop :=
  ∀ m ∈ ms, ∀ d ∈ m.stores, ∀ page j v, d = .tag page j v → tagAddress page j ≠ a

/-- No move in a list stores at byte `a` of `EE`. -/
def noEeStore (a : Nat) (ms : List EnvMove) : Prop :=
  ∀ m ∈ ms, ∀ d ∈ m.stores, ∀ b v, d = .ee b v → b.toNat ≠ a

/-- The rows an operation with an acknowledgment takes at most, with both timeouts non-zero: the polls of its waits, one row
for each byte sent, and three rows for the acknowledgment and two for each payload byte (R67, R85, R148). -/
def rowBound (listen data : Millis) (len pcnt : Nat) : Nat :=
  failingPolls listen.toNat + len + failingPolls data.toNat + 3 + pcnt * (failingPolls data.toNat + 2)

end Sys2Proof.Machine
end

