-- ==== Sys2Proof/Certificates/Slice0/Obligations.lean ====
section
/-! DEFINITION. The statements for the provers, in the order of OBLIGATIONS.json. -/

open Sys2Proof Sys2Proof.Machine

/-! ### Frames and commands -/

/-- R54, R57, R59: a command's frame, whatever follows it, decodes to the command with every operand at every value. -/
def Obligations.EncodedCommandDecodesToItself : Prop :=
  ∀ (i : Instr) (rest : List Byte), decode (encode i ++ rest) = .ok (i, rest)

/-- R59: the cut of a stream made of commands gives back exactly those commands. -/
def Obligations.CutRecoversEveryCommandList : Prop :=
  ∀ is : List Instr, cut (framesOf is) = .ok is

/-- R53, R59: a stream that cuts into commands is the concatenation of their frames and nothing else. -/
def Obligations.CutStreamIsItsFrames : Prop :=
  ∀ (bytes : List Byte) (is : List Instr), cut bytes = .ok is → framesOf is = bytes

/-- R60: a byte that is none of the six opcodes begins no command; R59: nor does a frame without all its operand bytes.
The observer's decoder and its errors are the model's. -/
def Obligations.OtherStreamsAreRefusedByName : Prop :=
  decode [] = .error .empty ∧
  (∀ (op : Byte) (rest : List Byte), op ∉ [0x52, 0x57, 0x53, 0x55, 0x7A, 0x50] →
    decode (op :: rest) = .error (.unknownOpcode op)) ∧
  decode [0x52] = .error (.truncated 0x52) ∧
  (∀ rest : List Byte, rest.length < 5 → decode (0x57 :: rest) = .error (.truncated 0x57)) ∧
  (∀ rest : List Byte, rest.length < 2 → decode (0x50 :: rest) = .error (.truncated 0x50))

/-- R55, 95_test_vectors.md V4: words written out from the spec's encodings. -/
def Obligations.WordsOfTheEncodingDecode : Prop :=
  decodeFrame [0x52, 0x07] = some (.rdpage 7) ∧
  decodeFrame [0x57, 0x03, 0xDE, 0xAD, 0xBE, 0xEF] = some (.wrpage 3 0xDE 0xAD 0xBE 0xEF) ∧
  decodeFrame [0x53] = some .status ∧ decodeFrame [0x55] = some .uid ∧ decodeFrame [0x7A] = some .ident ∧
  decodeFrame [0x50, 0x0C, 0xFF] = some (.progee 0x0C 0xFF) ∧
  decodeTableWord 48 0xEFBEADDE0357 = some (.wrpage 3 0xDE 0xAD 0xBE 0xEF) ∧
  cut [0x50, 0x52, 0x53, 0x55] = .ok [.progee 0x52 0x53, .uid]

/-! ### The step and reset -/

/-- R88: where the host's next operation is a frame that decodes to a command, the step is that command's `exec` with the
frame taken off the host's operations and the host waiting for the command's return.
The host's list of operations is the model's choice, log 8. -/
def Obligations.StepRunsTheDecodedCommand : Prop :=
  ∀ (s : State) (frame : List Byte) (rest : List HostOp) (i : Instr),
    s.busy = false → s.call = none → s.host = .wire frame :: rest → decodeFrame frame = some i → i.wellFormed = true →
    step s = exec i { s with host := rest, call := some (singleCall (commandOut i)) }

/-- R33, R132: what the spec gives for reset, `IDBUF` being empty as defined content (log 5) and `ok` being unspecified,
so not valid (R20, log 20); R133: a
reset changes nothing of the environment. All but the two timeouts are the spec's own decision D10 (INIT: D26). -/
def Obligations.ResetLeavesTheStatedValues : Prop :=
  State.reset.phase = .idle ∧ State.reset.busy = false ∧ State.reset.tmoListen = 1000 ∧ State.reset.tmoData = 1000 ∧
  State.reset.init = false ∧ State.reset.log = [] ∧ State.reset.idBuf = [] ∧ State.reset.lastAck = Config.lastAckReset ∧
  State.reset.idValid = true ∧ State.reset.okValid = false ∧
  (∀ (s : State) (hs : List HostOp), s.busy = false → s.call = none → s.host = .reset :: hs →
    ∃ t, step s = .next t ∧ t.phase = .idle ∧ t.busy = false ∧ t.tmoListen = 1000 ∧ t.tmoData = 1000 ∧ t.init = false ∧
      t.log = [] ∧ t.idBuf = [] ∧ t.idValid = true ∧ t.okValid = false ∧ t.lastAck = Config.lastAckReset ∧
      t.rx = s.rx ∧ t.removed = s.removed ∧ t.tx = s.tx ∧ t.ready = s.ready ∧ t.tag = s.tag ∧ t.ee = s.ee ∧ t.env = s.env ∧ t.host = hs)

/-- The invariant holds at reset. -/
def Obligations.ResetMeetsTheInvariant : Prop := Invariant State.reset

/-- R18, R20, R29, R30, R73, R85, R96: every step keeps the invariant. Its marks `dataValid` and `okValid` are the model's, log 5 and
log 20. -/
def Obligations.EveryStepKeepsTheInvariant : Prop :=
  ∀ s t : State, Invariant s → step s = .next t → Invariant t

/-- R131: from a state that meets the invariant no step faults, none pops an empty queue, and none starts an operation while
another runs. That such a pop is refused is decision D18. -/
def Obligations.NoStepFaultsOrPopsAnEmptyQueue : Prop :=
  ∀ s : State, Invariant s →
    (∀ f : Fault, step s ≠ .fault f) ∧ step s ≠ .refused .rxEmpty ∧ step s ≠ .refused .startWhileBusy

/-- R85: the table and the procedures say the same thing. Where a procedure ends, the sequencer ends with its result, the same
streams, registers, log and environment, and what R10 lets an observer see of that; where the listed moves do
not carry the procedure to its end, the sequencer is still busy.
The procedures' wait is decision D3 (log 11), their payload waits D6; that neither form stores a payload or drained byte in
`LAST_ACK` is decision D32. -/
def Obligations.SequencerAgreesWithTheProcedures : Prop :=
  ∀ (i : Instr) (s : State), s.busy = false →
    match procedureOf i s with
    | .returned t =>
      ∃ u, exec i s = .next u ∧ u.busy = false ∧ u.phase = .idle ∧ u.ok = true ∧ compared u = compared t ∧
        observe u = endedObservation (descriptorOf i).pm true s t
    | .failed c t =>
      ∃ u, exec i s = .next u ∧ u.busy = false ∧ u.phase = .idle ∧ u.ok = false ∧ u.cause = c ∧ compared u = compared t ∧
        observe u = endedObservation (descriptorOf i).pm false s t
    | .unfinished => ∃ u, exec i s = .next u ∧ u.busy = true
    | .stopped r => exec i s = .refused r

/-- R8, R85: cutting a run between two rows changes nothing: what the first moves leave, run through the later ones, is the
run through all of them; a step of a busy machine with a listed move is such a run. -/
def Obligations.ARunMayBeCutAtAnyMove : Prop :=
  (∀ (ms ns : List EnvMove) (s t : State), drive ms s = .next t →
    drive (ms ++ ns) s = if t.busy then drive ns t else .next { t with env := t.env ++ ns }) ∧
  (∀ (m : EnvMove) (ns : List EnvMove) (s : State), s.busy = true → s.env = m :: ns → step s = drive (m :: ns) s)

/-! ### The masked comparison -/

/-- R80, R85: row CK succeeds just when the masked bytes agree, whatever the unmasked bits, and goes on or fails as the table
has it; the sets of bytes each mask accepts, and how many they are. The sets are the spec's own inference from R80 and R25, the
cause's name is decision D15. -/
def Obligations.MaskedComparisonDecidesSuccess : Prop :=
  (∀ r mask : Byte, ackAccepted r mask = true ↔ r &&& mask = 0xD6 &&& mask) ∧
  (∀ r1 r2 mask : Byte, r1 &&& mask = r2 &&& mask → ackAccepted r1 mask = ackAccepted r2 mask) ∧
  (∀ r : Byte, ackAccepted r 0x3E = true ↔ r ∈ ([0x16, 0x17, 0x56, 0x57, 0x96, 0x97, 0xD6, 0xD7] : List Byte)) ∧
  (∀ r : Byte, ackAccepted r 0x28 = true ↔ r &&& 0x28 = 0) ∧
  (∀ r : Byte, ackAccepted r 0x01 = true ↔ r.toNat % 2 = 0) ∧
  (∀ r : Byte, ackAccepted r 0x00 = true) ∧
  (∀ r : Byte, ackAccepted r 0xFF = true ↔ r = 0xD6) ∧
  ((List.range 256).filter fun n => ackAccepted (BitVec.ofNat 8 n) 0x28).length = 64 ∧
  ((List.range 256).filter fun n => ackAccepted (BitVec.ofNat 8 n) 0x01).length = 128 ∧
  (∀ s : State, s.phase = .ck → s.lat.pm = .none →
    row s = .next (if s.lastAck &&& s.lat.mask = 0xD6 &&& s.lat.mask then succeed s else fail .ackMismatch s)) ∧
  (∀ s : State, s.phase = .ck → s.lat.pm = .fixed →
    row s = .next (if s.lastAck &&& s.lat.mask = 0xD6 &&& s.lat.mask then toPayload s else fail .ackMismatch s))

/-! ### The Timeout Poller -/

/-- R67: a failing wait makes `ceil(T / 5) + 1` polls and takes no further sample; a wait whose predicate first holds at poll
`k` no later than that succeeds at it. The counts rest on decision D3, log 11. -/
def Obligations.WaitCountsItsPolls : Prop :=
  (∀ (T : Millis) (rest : List Bool), T ≠ 0 →
    ∃ e, waitFor T 0 (List.replicate (failingPolls T.toNat) false ++ rest) = .timedOut e rest ∧
      e.toNat = 5 * failingSleeps T.toNat) ∧
  (∀ (T : Millis) (k : Nat) (rest : List Bool), k ≤ failingSleeps T.toNat →
    ∃ e, waitFor T 0 (List.replicate k false ++ true :: rest) = .holds e rest ∧ e.toNat = 5 * k) ∧
  (∀ T : Nat, failingPolls T = (T + 4) / 5 + 1) ∧
  failingPolls 1000 = 201 ∧ failingPolls 5 = 2 ∧ failingPolls 1 = 2 ∧ failingPolls 6 = 3

/-- R72: the result of a wait is decided by its samples: the least true one, if no deadline comes before it; else the deadline,
if there is one; else none. `elapsed` counts the sleeps as long as they fit its 16 bits; past them, with a timeout of 0, it is the
free value of log 17 and nothing is said of it. That the poll at the deadline counts is decision D3, log 11. -/
def Obligations.WaitIsAFunctionOfItsSamples : Prop :=
  (∀ (T : Millis) (k : Nat) (rest : List Bool), T = 0 ∨ k ≤ failingSleeps T.toNat →
    ∃ e, waitFor T 0 (List.replicate k false ++ true :: rest) = .holds e rest ∧ (5 * k ≤ 65535 → e.toNat = 5 * k)) ∧
  (∀ (T : Millis) (samples : List Bool), T ≠ 0 → failingSleeps T.toNat < samples.length →
    (∀ k, k ≤ failingSleeps T.toNat → samples[k]? = some false) →
    ∃ e rest, waitFor T 0 samples = .timedOut e rest ∧ e.toNat = 5 * failingSleeps T.toNat) ∧
  (∀ n : Nat, ∃ e, waitFor 0 0 (List.replicate n false) = .waiting e ∧ (5 * n ≤ 65535 → e.toNat = 5 * n))

/-- R66: with a timeout of 0 a wait never times out, whatever the samples and however long it has run; it ends just when some
sample is true, and otherwise goes on. `elapsed` then counts the sleeps as long as they fit its 16 bits; past them it is the free
value of log 17 and nothing is said of it. -/
def Obligations.WaitWithoutDeadlineNeverTimesOut : Prop :=
  (∀ (samples : List Bool) (e e' : Millis) (rest : List Bool), waitFor 0 e samples ≠ .timedOut e' rest) ∧
  (∀ (samples : List Bool) (e : Millis), (∃ e' rest, waitFor 0 e samples = .holds e' rest) ↔ true ∈ samples) ∧
  (∀ (samples : List Bool) (e : Millis), true ∉ samples → ∃ e', waitFor 0 e samples = .waiting e' ∧
    (e.toNat + 5 * samples.length ≤ 65535 → e'.toNat = e.toNat + 5 * samples.length))

/-- R73: with a deadline the 16-bit accumulator never wraps: wherever a wait from `elapsed` 0 stands, `elapsed` is 5 for each
sleep so far, at most `5 * ceil(T / 5)`, which is at most 65535. `unused` are the samples the wait did not take; its last one, if
it has ended, was followed by no sleep. The width is decision D4; that the poll at the deadline is made before the wait times out, and so the
count where it has, is decision D3, log 11. -/
def Obligations.ElapsedFitsSixteenBits : Prop :=
  ∀ (T : Millis) (samples : List Bool), T ≠ 0 →
    5 * failingSleeps T.toNat ≤ 65535 ∧
    match waitFor T 0 samples with
    | .holds e unused => e.toNat + 5 * (unused.length + 1) = 5 * samples.length ∧ e.toNat ≤ 5 * failingSleeps T.toNat
    | .timedOut e unused => e.toNat + 5 * (unused.length + 1) = 5 * samples.length ∧ e.toNat = 5 * failingSleeps T.toNat
    | .waiting e => e.toNat = 5 * samples.length ∧ e.toNat ≤ 5 * failingSleeps T.toNat

/-- R65, R69, R75: the polls of phase WL are the wait for the listening line: they end as `waitFor` over the line's samples does.
`elapsed` is what that wait has reached: past 16 bits, with `TMO_LISTEN` 0, the free value of log 17, the same on both sides.
The loop is decision D3, log 11. -/
def Obligations.ListenPollsAreTheWait : Prop :=
  ∀ (s : State) (ms rest : List EnvMove),
    s.busy = true → s.phase = .wl → s.init = true → s.lat.waitOnly = false →
    match waitFor s.lat.tmoListen s.elapsed (listenSamples ms) with
    | .holds e [] =>
      drive (ms ++ rest) s = drive rest { afterMoves ms s with phase := .tx, txi := 0, elapsed := e, env := rest }
    | .timedOut e [] =>
      drive (ms ++ rest) s = .next { fail .notListening (logTimeout .listen (afterMoves ms s)) with elapsed := e, env := rest }
    | .waiting e => drive ms s = .next { afterMoves ms s with elapsed := e, env := [] }
    | _ => True

/-- R65, R70, R77: the polls of phase WA are the wait for data: they end as `waitFor` over the queue's samples does.
`elapsed` is what that wait has reached: past 16 bits, with `TMO_DATA` 0, the free value of log 17, the same on both sides.
The loop is decision D3, log 11. -/
def Obligations.DataPollsAreTheWait : Prop :=
  ∀ (s : State) (ms rest : List EnvMove),
    s.busy = true → s.phase = .wa → s.lat.waitOnly = false →
    match waitFor s.lat.tmoData s.elapsed (dataSamples s.rx ms) with
    | .holds e [] =>
      drive (ms ++ rest) s = drive rest { afterMoves ms s with phase := .sa, elapsed := e, env := rest }
    | .timedOut e [] =>
      drive (ms ++ rest) s = .next { fail .noResponse (logTimeout .data (afterMoves ms s)) with elapsed := e, env := rest }
    | .waiting e => drive ms s = .next { afterMoves ms s with elapsed := e, env := [] }
    | _ => True

/-- R65: the host's bare WAIT returns the wait's boolean, logs a timeout and nothing else, and writes neither `ok` nor
`LAST_ACK`; R70: a wait for data leaves the queue alone.
That the host may issue one is the model's choice, log 12; the loop is decision D3, log 11. -/
def Obligations.BareWaitReturnsItsBoolean : Prop :=
  ∀ (s : State) (kind : WaitKind) (T : Millis) (hs : List HostOp) (ms rest : List EnvMove) (v : Bool) (e : Millis),
    Ready s → s.call = none → s.host = .wait kind T :: hs → s.env = ms ++ rest →
    waitFor T 0 (match kind with | .listen => listenSamples ms | .data => dataSamples s.rx ms)
      = (if v then .holds e [] else .timedOut e []) →
    ∃ t, step s = .next t ∧ t.busy = false ∧ t.results = s.results ++ [{ value := v, out := [] }] ∧
      t.log = s.log ++ (if v then [] else [kind]) ∧ t.rx = s.rx ++ arrived ms ∧ t.removed = s.removed ∧ t.tx = s.tx ∧ t.ok = s.ok ∧
      t.okValid = s.okValid ∧
      t.lastAck = s.lastAck ∧ t.host = hs ∧ t.env = rest

/-! ### The six commands to their end -/

/-- R90, R74: WRPAGE. -/
def Obligations.WrpageCompletes : Prop :=
  ∀ (page d0 d1 d2 d3 : Byte) (s : State) (lm tm dm em rest : List EnvMove),
    Ready s → s.env = lm ++ tm ++ dm ++ em ++ rest → Listens s.tmoListen lm → tm.length = 6 →
    Answers s.tmoData (s.rx ++ arrived (lm ++ tm)) dm → em.length = 3 →
    ∃ t, exec (.wrpage page d0 d1 d2 d3) s = .next t ∧
      AckEnd s t [0x57, page, d0, d1, d2, d3] 0x3E (lm ++ tm ++ dm ++ em) rest

/-- R91, R74: STATUS. -/
def Obligations.StatusCompletes : Prop :=
  ∀ (s : State) (lm tm dm em rest : List EnvMove),
    Ready s → s.env = lm ++ tm ++ dm ++ em ++ rest → Listens s.tmoListen lm → tm.length = 1 →
    Answers s.tmoData (s.rx ++ arrived (lm ++ tm)) dm → em.length = 3 →
    ∃ t, exec .status s = .next t ∧ AckEnd s t [0x53] 0x28 (lm ++ tm ++ dm ++ em) rest

/-- R94, R74: PROGEE. -/
def Obligations.ProgeeCompletes : Prop :=
  ∀ (address value : Byte) (s : State) (lm tm dm em rest : List EnvMove),
    Ready s → s.env = lm ++ tm ++ dm ++ em ++ rest → Listens s.tmoListen lm → tm.length = 3 →
    Answers s.tmoData (s.rx ++ arrived (lm ++ tm)) dm → em.length = 3 →
    ∃ t, exec (.progee address value) s = .next t ∧
      AckEnd s t [0x50, address, value] 0x01 (lm ++ tm ++ dm ++ em) rest

/-- R89, R82: RDPAGE with an accepted acknowledgment and four payload bytes. A wait for each payload byte is decision D6; that
`LAST_ACK` still holds the acknowledgment after the payload bytes is decision D32. -/
def Obligations.RdpageCompletes : Prop :=
  ∀ (page r : Byte) (q : List Byte) (bs : List ByteMoves) (s : State) (lm tm dm em rest : List EnvMove),
    Ready s → s.env = lm ++ tm ++ dm ++ em ++ bs.flatMap ByteMoves.moves ++ rest →
    Listens s.tmoListen lm → tm.length = 2 → Answers s.tmoData (s.rx ++ arrived (lm ++ tm)) dm → em.length = 3 →
    s.rx ++ arrived (lm ++ tm ++ dm ++ em) = r :: q → r &&& 0x3E = 0x16 →
    bs.length = 4 → PayloadArrives s.tmoData q bs →
    ∃ t, exec (.rdpage page) s = .next t ∧
      PayloadEnd s t [0x52, page] r 4 (lm ++ tm ++ dm ++ em ++ bs.flatMap ByteMoves.moves) rest

/-- R92, R82: UID with an accepted acknowledgment and four payload bytes. A wait for each payload byte is decision D6; that
`LAST_ACK` still holds the acknowledgment after the payload bytes is decision D32. -/
def Obligations.UidCompletes : Prop :=
  ∀ (r : Byte) (q : List Byte) (bs : List ByteMoves) (s : State) (lm tm dm em rest : List EnvMove),
    Ready s → s.env = lm ++ tm ++ dm ++ em ++ bs.flatMap ByteMoves.moves ++ rest →
    Listens s.tmoListen lm → tm.length = 1 → Answers s.tmoData (s.rx ++ arrived (lm ++ tm)) dm → em.length = 3 →
    s.rx ++ arrived (lm ++ tm ++ dm ++ em) = r :: q → r &&& 0x3E = 0x16 →
    bs.length = 4 → PayloadArrives s.tmoData q bs →
    ∃ t, exec .uid s = .next t ∧
      PayloadEnd s t [0x55] r 4 (lm ++ tm ++ dm ++ em ++ bs.flatMap ByteMoves.moves) rest

/-- R93, R83, R141: IDENT takes every byte up to the check that finds the queue empty, verbatim, and applies no mask; with
`IDENT_WAIT_DATA` it first waits for a byte, without it the check comes at once.
Both values of the open parameter of decision D7 are covered (log 9). That the drained bytes leave `LAST_ACK` alone is decision
D32. -/
def Obligations.IdentCompletes : Prop :=
  ∀ (s : State) (lm dm rest : List EnvMove) (m last : EnvMove) (ds : List DrainMoves),
    Ready s → s.env = lm ++ [m] ++ dm ++ ds.flatMap DrainMoves.moves ++ [last] ++ rest → Listens s.tmoListen lm →
    (if s.cfg.identWaitData then Answers s.tmoData (s.rx ++ arrived (lm ++ [m])) dm else dm = []) →
    Drains (s.rx ++ arrived (lm ++ [m] ++ dm)) ds last → ds.length ≤ s.cfg.identCap →
    ∃ t, exec .ident s = .next t ∧ t.busy = false ∧ t.phase = .idle ∧ t.ok = true ∧ t.okValid = true ∧ t.tx = s.tx ++ [0x7A] ∧
      t.idBuf = s.rx ++ arrived (lm ++ [m] ++ dm ++ ds.flatMap DrainMoves.moves ++ [last]) ∧ t.rx = [] ∧
      t.removed = s.removed ++ t.idBuf ∧ t.lastAck = s.lastAck ∧ t.data = s.data ∧ t.log = s.log ∧ t.idValid = true ∧ t.env = rest

/-! ### Failures and hangs -/

/-- R75, R112: a line that is HIGH at every poll fails every command with nothing sent.
The number of polls is decision D3, log 11. -/
def Obligations.NeverListeningFailsUnsent : Prop :=
  ∀ (i : Instr) (s : State) (ms rest : List EnvMove),
    Ready s → s.tmoListen ≠ 0 → s.env = ms ++ rest → ms.length = failingPolls s.tmoListen.toNat →
    (∀ m ∈ ms, m.ready = .high) →
    ∃ t, exec i s = .next t ∧ FailEnd s t .notListening [] [.listen] rest ∧ t.rx = s.rx ++ arrived ms ∧ t.removed = s.removed ∧
      t.lastAck = s.lastAck ∧ t.data = s.data ∧ t.idBuf = (if i = .ident then [] else s.idBuf)

/-- R84, R112: the result is `false` when the device is not listening, for every frame length of the generic operation.
The number of polls is decision D3, log 11. -/
def Obligations.GenericSendFailsWhenNotListening : Prop :=
  ∀ (bytes : List Byte) (mask : Byte) (hs : List HostOp) (s : State) (ms rest : List EnvMove),
    Ready s → s.call = none → s.host = .sendCommand bytes mask :: hs → 1 ≤ bytes.length → bytes.length ≤ 6 →
    s.tmoListen ≠ 0 → s.env = ms ++ rest → ms.length = failingPolls s.tmoListen.toNat → (∀ m ∈ ms, m.ready = .high) →
    ∃ t, step s = .next t ∧ FailEnd s t .notListening [] [.listen] rest ∧ t.removed = s.removed

/-- R113: an empty queue at every poll of the acknowledgment wait fails the five commands that expect one, the frame sent.
The number of polls is decision D3, log 11. That `DATA` and `IDBUF` keep their bytes follows R16, R82 and R17; after the failure
of RDPAGE or UID `DATA` is undefined content to the host, and its raw bytes are decision D23, log 5. -/
def Obligations.NoResponseFailsAfterTheFrame : Prop :=
  ∀ (i : Instr) (s : State) (lm tm ms rest : List EnvMove),
    i ≠ .ident → Ready s → s.tmoData ≠ 0 → s.env = lm ++ tm ++ ms ++ rest → Listens s.tmoListen lm →
    tm.length = (encode i).length → ms.length = failingPolls s.tmoData.toNat → s.rx = [] → arrived (lm ++ tm ++ ms) = [] →
    ∃ t, exec i s = .next t ∧ FailEnd s t .noResponse (encode i) [.data] rest ∧ t.rx = [] ∧ t.removed = s.removed ∧ t.lastAck = s.lastAck ∧
      t.data = s.data ∧ t.idBuf = s.idBuf

/-- R113: IDENT whose wait for the first byte times out. The wait is decision D7 (log 9), the number of polls D3 (log 11). -/
def Obligations.IdentWithoutResponseFails : Prop :=
  ∀ (s : State) (lm ms rest : List EnvMove) (m : EnvMove),
    Ready s → s.tmoData ≠ 0 → s.cfg.identWaitData = true → s.env = lm ++ [m] ++ ms ++ rest → Listens s.tmoListen lm →
    ms.length = failingPolls s.tmoData.toNat → s.rx = [] → arrived (lm ++ [m] ++ ms) = [] →
    ∃ t, exec .ident s = .next t ∧ FailEnd s t .noResponse [0x7A] [.data] rest ∧ t.rx = [] ∧ t.removed = s.removed ∧
      t.lastAck = s.lastAck ∧ t.idBuf = []

/-- R86, R114: a bad acknowledgment of RDPAGE or UID is stored, and the payload is not read. -/
def Obligations.BadAcknowledgmentLeavesThePayload : Prop :=
  ∀ (i : Instr) (r : Byte) (q : List Byte) (s : State) (lm tm dm em rest : List EnvMove),
    (descriptorOf i).pm = .fixed → Ready s → s.env = lm ++ tm ++ dm ++ em ++ rest → Listens s.tmoListen lm →
    tm.length = (encode i).length → Answers s.tmoData (s.rx ++ arrived (lm ++ tm)) dm → em.length = 3 →
    s.rx ++ arrived (lm ++ tm ++ dm ++ em) = r :: q → r &&& 0x3E ≠ 0x16 →
    ∃ t, exec i s = .next t ∧ FailEnd s t .ackMismatch (encode i) [] rest ∧ t.lastAck = r ∧ t.rx = q ∧
      t.removed = s.removed ++ [r]

/-- R115: RDPAGE or UID with `j` payload bytes and then none in time.
This failure is decision D6, the number of polls D3 (log 11). That `LAST_ACK` still holds the acknowledgment after the payload
bytes is decision D32. -/
def Obligations.MissingPayloadByteFails : Prop :=
  ∀ (i : Instr) (r : Byte) (q : List Byte) (bs : List ByteMoves) (s : State) (lm tm dm em ms rest : List EnvMove),
    (descriptorOf i).pm = .fixed → Ready s → s.tmoData ≠ 0 →
    s.env = lm ++ tm ++ dm ++ em ++ bs.flatMap ByteMoves.moves ++ ms ++ rest → Listens s.tmoListen lm →
    tm.length = (encode i).length → Answers s.tmoData (s.rx ++ arrived (lm ++ tm)) dm → em.length = 3 →
    s.rx ++ arrived (lm ++ tm ++ dm ++ em) = r :: q → r &&& 0x3E = 0x16 →
    bs.length < 4 → PayloadArrives s.tmoData q bs → (q ++ arrived (bs.flatMap ByteMoves.moves)).length = bs.length →
    ms.length = failingPolls s.tmoData.toNat → arrived ms = [] →
    ∃ t, exec i s = .next t ∧ FailEnd s t .payloadTimeout (encode i) [.data] rest ∧ t.lastAck = r ∧ t.rx = [] ∧
      t.removed = s.removed ++ r :: (q ++ arrived (bs.flatMap ByteMoves.moves))

/-- R66, R130: with `TMO_LISTEN` 0 and a line that is never LOW, a command polls on for as many moves as there are. -/
def Obligations.ListenWithoutDeadlinePollsOn : Prop :=
  ∀ (i : Instr) (s : State), Ready s → s.tmoListen = 0 → (∀ m ∈ s.env, m.ready = .high) →
    ∃ t, exec i s = .next t ∧ t.busy = true ∧ t.phase = .wl ∧ t.tx = s.tx ∧ t.log = s.log ∧ t.lastAck = s.lastAck ∧
      t.rx = s.rx ++ arrived s.env ∧ t.env = []

/-- R66, R130: with `TMO_DATA` 0 and no answer, a command that expects one polls on, its frame sent. -/
def Obligations.AnswerWithoutDeadlinePollsOn : Prop :=
  ∀ (i : Instr) (s : State) (lm tm ms : List EnvMove), i ≠ .ident → Ready s → s.tmoData = 0 → s.env = lm ++ tm ++ ms →
    Listens s.tmoListen lm → tm.length = (encode i).length → s.rx = [] → arrived s.env = [] →
    ∃ t, exec i s = .next t ∧ t.busy = true ∧ t.phase = .wa ∧ t.tx = s.tx ++ encode i ∧ t.log = s.log ∧
      t.lastAck = s.lastAck ∧ t.env = []

/-- R83, D8: a drain that is fed beyond `IDENT_CAP` bytes, whenever they arrive, is refused by name. The capacity is log 9. -/
def Obligations.IdentBeyondItsCapacityIsRefused : Prop :=
  ∀ (s : State) (lm dm rest : List EnvMove) (m : EnvMove) (ds : List DrainMoves),
    Ready s → s.env = lm ++ [m] ++ dm ++ ds.flatMap DrainMoves.moves ++ rest → Listens s.tmoListen lm →
    (if s.cfg.identWaitData then Answers s.tmoData (s.rx ++ arrived (lm ++ [m])) dm else dm = []) →
    ds.length = s.cfg.identCap + 1 → Fed (s.rx ++ arrived (lm ++ [m] ++ dm)) ds →
    exec .ident s = .refused .identOverflow

/-- R148: with both timeouts non-zero every command with an acknowledgment ends within a bounded number of rows, whatever the
environment does and whether or not `begin` was called. -/
def Obligations.EveryAcknowledgedCommandEnds : Prop :=
  ∀ (i : Instr) (s : State), i ≠ .ident → s.busy = false → s.tmoListen ≠ 0 → s.tmoData ≠ 0 →
    rowBound s.tmoListen s.tmoData (encode i).length (descriptorOf i).pcnt ≤ s.env.length →
    ∃ t, exec i s = .next t ∧ t.busy = false ∧ t.phase = .idle

/-! ### What every ended command records, and what none changes -/

/-- R117: every ended command is one row of the table. `used` are the moves its run consumed, `popped` the bytes it took.
The table is the spec's own inference from R112 to R115; its payload row is decision D6, its causes D15. That
payload and drained bytes leave `LAST_ACK` alone, in the rows of RDPAGE, UID and IDENT, is decision D32. -/
def Obligations.EndedCommandsRecordTheTable : Prop :=
  ∀ (i : Instr) (s t : State), s.busy = false → exec i s = .next t → t.busy = false →
    ∃ (used : List EnvMove) (popped : List Byte), s.env = used ++ t.env ∧ s.rx ++ arrived used = popped ++ t.rx ∧
      t.removed = s.removed ++ popped ∧
      if i = .ident then
        (t.ok = false ∧ t.cause = .notListening ∧ t.lastAck = s.lastAck ∧ t.log = s.log ++ [.listen] ∧ t.tx = s.tx ∧
          popped = []) ∨
        (t.ok = false ∧ t.cause = .noResponse ∧ t.lastAck = s.lastAck ∧ t.log = s.log ++ [.data] ∧ t.tx = s.tx ++ [0x7A] ∧
          popped = []) ∨
        (t.ok = true ∧ t.lastAck = s.lastAck ∧ t.log = s.log ∧ t.tx = s.tx ++ [0x7A] ∧ popped = t.idBuf)
      else
        (t.ok = false ∧ t.cause = .notListening ∧ t.lastAck = s.lastAck ∧ t.log = s.log ++ [.listen] ∧ t.tx = s.tx ∧
          popped = []) ∨
        (t.ok = false ∧ t.cause = .noResponse ∧ t.lastAck = s.lastAck ∧ t.log = s.log ++ [.data] ∧
          t.tx = s.tx ++ encode i ∧ popped = []) ∨
        (t.ok = false ∧ t.cause = .ackMismatch ∧ ackAccepted t.lastAck ((descriptorOf i).mask.getD 0) = false ∧
          t.log = s.log ∧ t.tx = s.tx ++ encode i ∧ popped = [t.lastAck]) ∨
        (t.ok = false ∧ t.cause = .payloadTimeout ∧ ackAccepted t.lastAck ((descriptorOf i).mask.getD 0) = true ∧
          (descriptorOf i).pm = .fixed ∧ t.log = s.log ++ [.data] ∧ t.tx = s.tx ++ encode i ∧
          ∃ ps : List Byte, popped = t.lastAck :: ps ∧ ps.length < 4) ∨
        (t.ok = true ∧ ackAccepted t.lastAck ((descriptorOf i).mask.getD 0) = true ∧ t.log = s.log ∧
          t.tx = s.tx ++ encode i ∧ popped = t.lastAck :: (if (descriptorOf i).pm = .fixed then dataList t.data else []))

/-- R50, R140: a byte left in the queue before the start is taken as the acknowledgment, whatever the device answers.
That nothing empties the queue is decision D17; that `LAST_ACK` still holds that byte after the payload of RDPAGE or UID is
decision D32. -/
def Obligations.StaleByteIsTakenAsTheAcknowledgment : Prop :=
  ∀ (i : Instr) (r : Byte) (q : List Byte) (s t : State), i ≠ .ident → s.busy = false → s.rx = r :: q →
    exec i s = .next t → t.busy = false →
    (t.ok = false ∧ t.cause = .notListening) ∨
      (t.lastAck = r ∧ (t.ok = true → r &&& ((descriptorOf i).mask.getD 0) = 0xD6 &&& ((descriptorOf i).mask.getD 0)))

/-- R22, R24, R27, R79, R82, R83, R88: the frame of the six commands. A next state keeps both timeout registers, `INIT`, the
parameters and the host's lists; the operand registers hold what the command loaded; `TX` gains a leading part of the frame;
the queue loses bytes only at its head; `LAST_ACK` is kept by IDENT, `DATA` by all but RDPAGE and UID, `IDBUF` by all but
IDENT; the log gains at most one entry; `ok` is written when the command ends, not before (R20).
That no other byte goes to `LAST_ACK` is decision D32. Three clauses rest on choices of the
model: registers of the frame past a shorter one keep their bytes (log 16) and IDENT keeps MASK (log 13), both in
`loadDescriptor`; `dataValid` and `idValid` are the marks of log 5, `okValid` that of log 20, and `removed` is the record of
log 19. -/
def Obligations.CommandFrameOfRegisters : Prop :=
  ∀ (i : Instr) (s t : State), exec i s = .next t →
    t.tmoListen = s.tmoListen ∧ t.tmoData = s.tmoData ∧ t.init = s.init ∧ t.cfg = s.cfg ∧ t.host = s.host ∧
    t.call = s.call ∧ t.results = s.results ∧ t.opnd = loadDescriptor s.opnd (descriptorOf i) ∧
    (∃ n, t.tx = s.tx ++ (encode i).take n) ∧
    (∃ used popped, s.env = used ++ t.env ∧ s.rx ++ arrived used = popped ++ t.rx ∧ t.removed = s.removed ++ popped) ∧
    (i = .ident → t.lastAck = s.lastAck) ∧ ((descriptorOf i).pm ≠ .fixed → t.data = s.data ∧ t.dataValid = s.dataValid) ∧
    (i ≠ .ident → t.idBuf = s.idBuf ∧ t.idValid = s.idValid) ∧
    (t.log = s.log ∨ ∃ kind, t.log = s.log ++ [kind]) ∧
    (if t.busy then t.ok = s.ok ∧ t.okValid = s.okValid else t.okValid = true)

/-- R28, R29, R30: the framer stores to no memory: every byte of the device's two spaces reads after a command as before it,
except where a move of the environment that the run consumed stores. -/
def Obligations.CommandFrameOfMemory : Prop :=
  ∀ (i : Instr) (s t : State), exec i s = .next t → ∃ used, s.env = used ++ t.env ∧
    (∀ a : Nat, noTagStore a used → memRead t.tag a = memRead s.tag a) ∧
    (∀ a : Nat, noEeStore a used → memRead t.ee a = memRead s.ee a)

/-- R15: the running operation has a private copy, taken at its start, where it goes busy and enters its first phase (R85 row
IDLE); host writes to the operand registers or the timeouts while it runs do not affect it, for any list of moves.
The copy is decision D11. -/
def Obligations.HostWritesDoNotReachARunningOperation : Prop :=
  (∀ s t : State, startOperation s = .next t →
    t.lat.x = s.opnd.x ∧ t.lat.len = s.opnd.len.toNat ∧ t.lat.mask = s.opnd.mask ∧ t.lat.ae = s.opnd.ae ∧
    t.lat.wl = s.opnd.wl ∧ pmCode t.lat.pm = s.opnd.pm ∧ t.lat.pcnt = s.opnd.pcnt.toNat ∧
    t.lat.tmoListen = s.tmoListen ∧ t.lat.tmoData = s.tmoData ∧ t.busy = true ∧
    (if s.opnd.wl then t.phase = .wl ∧ t.elapsed = 0 else t.phase = .tx ∧ t.txi = 0) ∧
    t.idBuf = (if s.opnd.pm = 2 then [] else s.idBuf)) ∧
  (∀ (ms : List EnvMove) (s : State) (r : OperandRegs) (l d : Millis),
    drive ms (writeTimeouts l d (writeOperands r s)) = mapNext (fun t => writeTimeouts l d (writeOperands r t)) (drive ms s))

/-- R49, D24, R27: only phase WL samples the ready line, and it reads the line's level only once `INIT` is 1. -/
def Obligations.OnlyPhaseWLSamplesTheLine : Prop :=
  ∀ (s : State) (l : Level), s.phase ≠ .wl ∨ s.init = false →
    row { s with ready := l } = mapNext (fun t => { t with ready := l }) (row s)

/-- R68: nothing in the framer reads the log: what it holds changes no run. -/
def Obligations.TheLogChangesNoRun : Prop :=
  ∀ (ms : List EnvMove) (s : State) (l : List WaitKind),
    drive ms { s with log := l ++ s.log } = mapNext (fun t => { t with log := l ++ t.log }) (drive ms s)

/-! ### Starts and the generic operations -/

/-- R87: an idle framer starts exactly the four shapes; a busy one starts nothing. The refusals are decision D12. -/
def Obligations.OnlyTheFourShapesStart : Prop :=
  (∀ s : State, s.busy = true → startOperation s = .refused .startWhileBusy) ∧
  (∀ (i : Instr) (s : State), s.busy = true → exec i s = .refused .startWhileBusy) ∧
  (∀ s : State, s.busy = false →
    ((∃ t, startOperation s = .next t) ↔
      (s.opnd.wl = true ∧ s.opnd.ae = true ∧ s.opnd.pm = 0 ∧ s.opnd.pcnt = 0 ∧
        1 ≤ s.opnd.len.toNat ∧ s.opnd.len.toNat ≤ 6) ∨
      (s.opnd.wl = true ∧ s.opnd.ae = true ∧ s.opnd.pm = 1 ∧ 1 ≤ s.opnd.pcnt.toNat ∧ s.opnd.pcnt.toNat ≤ 4 ∧
        1 ≤ s.opnd.len.toNat ∧ s.opnd.len.toNat ≤ 6) ∨
      (s.opnd.wl = true ∧ s.opnd.ae = false ∧ s.opnd.pm = 2 ∧ s.opnd.pcnt = 0 ∧ s.opnd.len = 1) ∨
      (s.opnd.wl = false ∧ s.opnd.ae = false ∧ s.opnd.pm = 0 ∧ s.opnd.pcnt = 0 ∧ s.opnd.len = 1))) ∧
  (∀ s : State, s.busy = false → (∀ t, startOperation s ≠ .next t) → ∃ r, startOperation s = .refused r) ∧
  (∀ s : State, s.busy = false → s.opnd.len = 0 ∨ s.opnd.len = 7 → startOperation s = .refused .frameLength)

/-- R74, R61: generic SENDCMD of 1 to 6 bytes with any mask; and R82, R87: SENDCMD + READBYTES started from the operand
registers, with any admitted length, any mask and a count of 1 to 4. A wait for each payload byte is decision D6; that `LAST_ACK`
still holds the acknowledgment after the payload bytes is decision D32; that the other registers of `DATA` keep their bytes,
and count as defined as they were, is log 5. -/
def Obligations.GenericSendCompletes : Prop :=
  (∀ (bytes : List Byte) (mask : Byte) (hs : List HostOp) (s : State) (lm tm dm em rest : List EnvMove),
    Ready s → s.call = none → s.host = .sendCommand bytes mask :: hs → 1 ≤ bytes.length → bytes.length ≤ 6 →
    s.env = lm ++ tm ++ dm ++ em ++ rest → Listens s.tmoListen lm → tm.length = bytes.length →
    Answers s.tmoData (s.rx ++ arrived (lm ++ tm)) dm → em.length = 3 →
    ∃ t, step s = .next t ∧ AckEnd s t bytes mask (lm ++ tm ++ dm ++ em) rest) ∧
  (∀ (r : Byte) (q : List Byte) (bs : List ByteMoves) (hs : List HostOp) (s : State) (lm tm dm em rest : List EnvMove),
    Ready s → s.call = none → s.host = .start :: hs →
    s.opnd.wl = true → s.opnd.ae = true → s.opnd.pm = 1 → 1 ≤ s.opnd.pcnt.toNat → s.opnd.pcnt.toNat ≤ 4 →
    1 ≤ s.opnd.len.toNat → s.opnd.len.toNat ≤ 6 →
    s.env = lm ++ tm ++ dm ++ em ++ bs.flatMap ByteMoves.moves ++ rest →
    Listens s.tmoListen lm → tm.length = s.opnd.len.toNat → Answers s.tmoData (s.rx ++ arrived (lm ++ tm)) dm →
    em.length = 3 → s.rx ++ arrived (lm ++ tm ++ dm ++ em) = r :: q →
    r &&& s.opnd.mask = 0xD6 &&& s.opnd.mask → bs.length = s.opnd.pcnt.toNat → PayloadArrives s.tmoData q bs →
    ∃ t, step s = .next t ∧
      PayloadEnd s t (frameTake s.opnd.x s.opnd.len.toNat) r s.opnd.pcnt.toNat
        (lm ++ tm ++ dm ++ em ++ bs.flatMap ByteMoves.moves) rest ∧
      t.lat.pcnt = s.opnd.pcnt.toNat ∧ t.call = some (singleCall .payload))

/-- R81: SENDB sends its byte whatever the line and the queue, reads nothing, and cannot fail.
That it neither waits nor fails is decision D9. -/
def Obligations.SendByteCannotFail : Prop :=
  ∀ (b : Byte) (hs : List HostOp) (s : State) (m : EnvMove) (rest : List EnvMove),
    s.busy = false → s.call = none → s.host = .sendByte b :: hs → s.env = m :: rest →
    ∃ t, step s = .next t ∧ t.busy = false ∧ t.ok = true ∧ t.okValid = true ∧ t.tx = s.tx ++ [b] ∧ t.rx = s.rx ++ m.arrivals ∧
      t.removed = s.removed ∧
      t.lastAck = s.lastAck ∧ t.log = s.log ∧ t.data = s.data ∧ t.idBuf = s.idBuf ∧ t.env = rest

/-! ### The host -/

/-- R95: GETACK returns `LAST_ACK` and changes nothing but what has been returned; at reset that is `LAST_ACK_RESET`, any byte. -/
def Obligations.GetAckReturnsLastAck : Prop :=
  (∀ (s : State) (hs : List HostOp), s.busy = false → s.call = none → s.host = .getAck :: hs →
    step s = .next { s with host := hs, results := s.results ++ [{ value := true, out := [s.lastAck] }] }) ∧
  State.reset.lastAck = Config.lastAckReset

/-- R12, R24, D5: an idle framer takes any operand registers and any two timeouts. -/
def Obligations.HostRegistersAreWritable : Prop :=
  (∀ (s : State) (l d : Millis) (hs : List HostOp), s.busy = false → s.call = none → s.host = .setTimeouts l d :: hs →
    step s = .next { s with host := hs, tmoListen := l, tmoData := d }) ∧
  (∀ (s : State) (r : OperandRegs) (hs : List HostOp), s.busy = false → s.call = none → s.host = .load r :: hs →
    step s = .next { s with host := hs, opnd := r })

/-- R16, R17, R146: the host reads `DATA` and `IDBUF`; what has been read by successful operations comes back as it is. The rest
is free (log 5), so nothing is said of it but how many bytes of `DATA` there are. -/
def Obligations.HostReadsDefinedBuffers : Prop :=
  (∀ (s : State) (hs : List HostOp), s.busy = false → s.call = none → s.host = .readData :: hs →
    ∃ out, step s = .next { s with host := hs, draws := s.draws + 1, results := s.results ++ [{ value := true, out := out }] } ∧
      out.length = 4 ∧ out.take s.dataValid = (dataList s.data).take s.dataValid) ∧
  (∀ (s : State) (hs : List HostOp), s.busy = false → s.call = none → s.host = .readIdent :: hs → s.idValid = true →
    step s = .next { s with host := hs, draws := s.draws + 1, results := s.results ++ [{ value := true, out := s.idBuf }] })

/-- R129, R150: an idle framer with nothing to do changes nothing: a step is one turn of the environment, which takes the next
listed move, or a free one where none is listed, and applies it to the queue, the line and the device.
The environment's moves are the model's, log 7. -/
def Obligations.IdleFramerDoesNothing : Prop :=
  ∀ s : State, s.busy = false → s.call = none → s.host = [] →
    step s = .next (envTurn s) ∧
    (∀ (m : EnvMove) (ms : List EnvMove), s.env = m :: ms →
      step s = .next { s with
        rx := s.rx ++ m.arrivals, ready := m.ready, tag := storeTag m.stores s.tag, ee := storeEe m.stores s.ee, env := ms }) ∧
    (s.env = [] →
      step s = .next { s with
        rx := s.rx ++ (Config.envMove s.draws).arrivals
        ready := (Config.envMove s.draws).ready
        tag := storeTag (Config.envMove s.draws).stores s.tag
        ee := storeEe (Config.envMove s.draws).stores s.ee
        draws := s.draws + 1 })

/-- R109: `begin` sets `INIT`; without UID-enable it returns `true` and transmits nothing, with it the first of the four
PROGEE commands is issued and the others are to come.
The bit is decision D26; what is still to come is held in the model's call, log 8. -/
def Obligations.BeginSetsInit : Prop :=
  (∀ (s : State) (hs : List HostOp), s.busy = false → s.call = none → s.host = .beginFramer false :: hs →
    step s = .next { s with host := hs, init := true, results := s.results ++ [{ value := true, out := [] }] }) ∧
  (∀ (s : State) (hs : List HostOp), s.busy = false → s.call = none → s.host = .beginFramer true :: hs →
    step s = exec (.progee 0x0C 0xFF)
      { s with
        host := hs
        init := true
        call := some { todo := [.progee 0x0D 0xFF, .progee 0x0E 0xFF, .progee 0x0F 0xFF], out := .nothing, got := [] } })

/-- R96: a sequence issues its first command; after a failed command it stops, issues nothing more, returns `false` and adds no
cause; after a successful one it issues the next, and after the last it returns `true`. R97: one without commands, such as a
range write of length 0, returns `true` (decision D14); R39, R98: one that is refused refuses the step (decision D13; for a wrong
operand length log 18). -/
def Obligations.SequencesFailFast : Prop :=
  (∀ (s : State) (q : Sequence) (i : Instr) (is : List Instr) (hs : List HostOp), s.busy = false → s.call = none →
    s.host = .sequence q :: hs → expand q = .ok (i :: is) →
    step s = exec i { s with host := hs, call := some { todo := is, out := sequenceOut q, got := [] } }) ∧
  (∀ (s : State) (c : Call), s.busy = false → s.call = some c → s.ok = false →
    ∃ t out, step s = .next t ∧ t.results = s.results ++ [{ value := false, out := out }] ∧ t.call = none ∧ t.tx = s.tx ∧
      t.rx = s.rx ∧ t.removed = s.removed ∧ t.env = s.env ∧ t.busy = false ∧ t.lastAck = s.lastAck ∧ t.cause = s.cause ∧ t.log = s.log ∧
      t.ok = false ∧ t.okValid = s.okValid ∧ t.host = s.host) ∧
  (∀ (s : State) (c : Call) (i : Instr) (is : List Instr), s.busy = false → s.call = some c → s.ok = true →
    c.todo = i :: is → step s = exec i { s with call := some { c with todo := is, got := collect c s } }) ∧
  (∀ (s : State) (c : Call), s.busy = false → s.call = some c → s.ok = true → c.todo = [] →
    step s = .next { s with call := none, results := s.results ++ [{ value := true, out := collect c s }] }) ∧
  (∀ (s : State) (q : Sequence) (hs : List HostOp), s.busy = false → s.call = none → s.host = .sequence q :: hs →
    expand q = .ok [] → step s = .next { s with host := hs, results := s.results ++ [{ value := true, out := [] }] }) ∧
  (∀ (s : State) (start : Byte) (data : List Byte) (hs : List HostOp), s.busy = false → s.call = none →
    s.host = .sequence (.writeEEPROMRange start data 0) :: hs →
    step s = .next { s with host := hs, results := s.results ++ [{ value := true, out := [] }] }) ∧
  (∀ (s : State) (q : Sequence) (x : Refusal) (hs : List HostOp), s.busy = false → s.call = none →
    s.host = .sequence q :: hs → expand q = .error x → step s = .refused x)

/-- R104, R107, R108: what a successful call hands the host: four payloads of a user-data read one after the other, the payload
in the count the operation read, the identifier. The call is the model's, log 8. -/
def Obligations.CallsCollectTheirBytes : Prop :=
  (∀ (c : Call) (s : State), c.out = .userData → collect c s = c.got ++ [s.data.b0, s.data.b1, s.data.b2, s.data.b3]) ∧
  (∀ (c : Call) (s : State), c.out = .payload →
    collect c s = [s.data.b0, s.data.b1, s.data.b2, s.data.b3].take s.lat.pcnt) ∧
  (∀ (c : Call) (s : State), c.out = .payload → s.lat.pcnt = 4 →
    collect c s = [s.data.b0, s.data.b1, s.data.b2, s.data.b3]) ∧
  (∀ (c : Call) (s : State), c.out = .identifier → collect c s = s.idBuf) ∧
  (∀ (c : Call) (s : State), c.out = .nothing → collect c s = [])

/-- R97, D13, D14: a range write is one PROGEE for each byte at ascending addresses; past address 255 it is refused. -/
def Obligations.RangeWriteExpands : Prop :=
  (∀ (start : Byte) (data : List Byte) (length : Nat), length ≤ data.length → length = 0 ∨ start.toNat + length - 1 ≤ 255 →
    expand (.writeEEPROMRange start data length) =
      .ok ((List.range length).map fun k => Instr.progee (BitVec.ofNat 8 (start.toNat + k)) (data.getD k 0))) ∧
  (∀ (start : Byte) (data : List Byte) (length : Nat), length ≤ data.length → 1 ≤ length → 255 < start.toNat + length - 1 →
    expand (.writeEEPROMRange start data length) = .error .rangePastEnd)

/-- R98: the frames of `authorizeTag`, and its refusal above slot 59. The refusal is decision D13. -/
def Obligations.AuthorizeTagExpands : Prop :=
  (∀ (u0 u1 u2 u3 : Byte) (slot : Nat), slot ≤ 59 →
    expand (.authorizeTag [u0, u1, u2, u3] slot) =
      .ok [.progee (BitVec.ofNat 8 (12 + 4 * slot)) u0, .progee (BitVec.ofNat 8 (12 + 4 * slot + 1)) u1,
        .progee (BitVec.ofNat 8 (12 + 4 * slot + 2)) u2, .progee (BitVec.ofNat 8 (12 + 4 * slot + 3)) u3]) ∧
  (∀ (u0 u1 u2 u3 : Byte) (slot : Nat), 59 < slot →
    expand (.authorizeTag [u0, u1, u2, u3] slot) = .error .slotPastEnd) ∧
  (commandsOf (.authorizeTag [0xDE, 0xAD, 0xBE, 0xEF] 59)).flatMap encode =
    [0x50, 0xF8, 0xDE, 0x50, 0xF9, 0xAD, 0x50, 0xFA, 0xBE, 0x50, 0xFB, 0xEF]

/-- R99: `deauthorizeAllTags` is 240 PROGEE commands with value 0 at addresses 12 to 251, ascending. -/
def Obligations.DeauthorizeAllExpands : Prop :=
  expand .deauthorizeAllTags = .ok ((List.range 240).map fun n => Instr.progee (BitVec.ofNat 8 (12 + n)) 0) ∧
  (framesOf (commandsOf .deauthorizeAllTags)).length = 720

/-- R100, R101, R102: the expansions and the frames of the three password operations, for every password. The two that return
`writeEEPROMRange(...)` run as it does from every state, its failures and partial writes among that (R100). -/
def Obligations.PasswordFramesAreAsGiven : Prop :=
  (∀ p0 p1 p2 p3 : Byte,
    expand (.setReaderPassword [p0, p1, p2, p3]) = expand (.writeEEPROMRange 4 [p0, p1, p2, p3] 4) ∧
    framesOf (commandsOf (.setReaderPassword [p0, p1, p2, p3])) =
      [0x50, 4, p0, 0x50, 5, p1, 0x50, 6, p2, 0x50, 7, p3] ∧
    ∀ s : State, beginSequence (.setReaderPassword [p0, p1, p2, p3]) s =
      beginSequence (.writeEEPROMRange 4 [p0, p1, p2, p3] 4) s) ∧
  (∀ p0 p1 p2 : Byte,
    expand (.setTagPassword [p0, p1, p2]) = .ok [.wrpage 1 0x06 p0 p1 p2] ∧
    framesOf (commandsOf (.setTagPassword [p0, p1, p2])) = [0x57, 0x01, 0x06, p0, p1, p2]) ∧
  (∀ p0 p1 p2 : Byte,
    expand (.setTagPasswordInEEPROM [p0, p1, p2]) = expand (.writeEEPROMRange 9 [p0, p1, p2] 3) ∧
    framesOf (commandsOf (.setTagPasswordInEEPROM [p0, p1, p2])) = [0x50, 9, p0, 0x50, 10, p1, 0x50, 11, p2] ∧
    ∀ s : State, beginSequence (.setTagPasswordInEEPROM [p0, p1, p2]) s = beginSequence (.writeEEPROMRange 9 [p0, p1, p2] 3) s)

/-- R103, R104, R31: user data is written and read in pages 4 to 7; byte `4k + j` of the buffer is byte `j` of page `4 + k`.
The mapping is decision D22. -/
def Obligations.UserDataMapsOntoPagesFourToSeven : Prop :=
  (∀ (d : List Byte) (is : List Instr), d.length = 16 → expand (.writeUserData d) = .ok is →
    is = (List.range 4).map fun k =>
      Instr.wrpage (BitVec.ofNat 8 (4 + k)) (d.getD (4 * k) 0) (d.getD (4 * k + 1) 0) (d.getD (4 * k + 2) 0)
        (d.getD (4 * k + 3) 0)) ∧
  (∀ d : List Byte, d.length = 16 → ∃ is, expand (.writeUserData d) = .ok is) ∧
  expand .readUserData = .ok [.rdpage 4, .rdpage 5, .rdpage 6, .rdpage 7]

/-- R105: `enableUIDQuery` writes exactly these twelve bytes, which are the four addresses of authorization slot 0 (R143). -/
def Obligations.EnableUidQueryFrames : Prop :=
  expand .enableUIDQuery = expand (.writeEEPROMRange 0x0C [0xFF, 0xFF, 0xFF, 0xFF] 4) ∧
  expand .enableUIDQuery = .ok [.progee 0x0C 0xFF, .progee 0x0D 0xFF, .progee 0x0E 0xFF, .progee 0x0F 0xFF] ∧
  framesOf (commandsOf .enableUIDQuery) =
    [0x50, 0x0C, 0xFF, 0x50, 0x0D, 0xFF, 0x50, 0x0E, 0xFF, 0x50, 0x0F, 0xFF] ∧
  commandsOf .enableUIDQuery = commandsOf (.authorizeTag [0xFF, 0xFF, 0xFF, 0xFF] 0)

/-- R18, R21, R34, R112 to R116: every code of the phases, the causes, the log's sources, the payload modes and the ready line,
and the codes that name nothing. The codes are the spec's own: decisions D15, D16, D21, D1. -/
def Obligations.CodesAreAsTabulated : Prop :=
  (phaseCode .idle = 0 ∧ phaseCode .wl = 1 ∧ phaseCode .tx = 2 ∧ phaseCode .wa = 3 ∧ phaseCode .sa = 4 ∧ phaseCode .ra = 5 ∧
    phaseCode .ck = 6 ∧ phaseCode .wp = 7 ∧ phaseCode .sp = 8 ∧ phaseCode .rp = 9 ∧ phaseCode .wd = 10 ∧ phaseCode .dc = 11 ∧
    phaseCode .sd = 12 ∧ phaseCode .rd = 13) ∧
  (∀ p : Phase, phaseOfCode (phaseCode p) = some p) ∧ (∀ c : BitVec 4, 14 ≤ c.toNat → phaseOfCode c = none) ∧
  (causeCode .notListening = 0 ∧ causeCode .noResponse = 1 ∧ causeCode .ackMismatch = 2 ∧ causeCode .payloadTimeout = 3) ∧
  (tmoSrc .listen = 0 ∧ tmoSrc .data = 1) ∧ (readyCode .low = 0 ∧ readyCode .high = 1) ∧
  (pmCode .none = 0 ∧ pmCode .fixed = 1 ∧ pmCode .drain = 2) ∧
  (∀ m : PayloadMode, pmOfCode (pmCode m) = some m) ∧ pmOfCode 3 = none
end

