-- ==== Sys2Proof/Laws/State.lean ====
section
/-! SUPPORT. One lemma per field per update of the state, true by rfl, so that no proof unfolds a record update. -/

namespace Sys2Proof.Machine

/-! ### applyMove -/

@[simp] theorem applyMove_lastAck (m : EnvMove) (s : State) : (applyMove m s).lastAck = s.lastAck := rfl
@[simp] theorem applyMove_tmoListen (m : EnvMove) (s : State) : (applyMove m s).tmoListen = s.tmoListen := rfl
@[simp] theorem applyMove_tmoData (m : EnvMove) (s : State) : (applyMove m s).tmoData = s.tmoData := rfl
@[simp] theorem applyMove_init (m : EnvMove) (s : State) : (applyMove m s).init = s.init := rfl
@[simp] theorem applyMove_log (m : EnvMove) (s : State) : (applyMove m s).log = s.log := rfl
@[simp] theorem applyMove_data (m : EnvMove) (s : State) : (applyMove m s).data = s.data := rfl
@[simp] theorem applyMove_idBuf (m : EnvMove) (s : State) : (applyMove m s).idBuf = s.idBuf := rfl
@[simp] theorem applyMove_opnd (m : EnvMove) (s : State) : (applyMove m s).opnd = s.opnd := rfl
@[simp] theorem applyMove_lat (m : EnvMove) (s : State) : (applyMove m s).lat = s.lat := rfl
@[simp] theorem applyMove_phase (m : EnvMove) (s : State) : (applyMove m s).phase = s.phase := rfl
@[simp] theorem applyMove_txi (m : EnvMove) (s : State) : (applyMove m s).txi = s.txi := rfl
@[simp] theorem applyMove_rxi (m : EnvMove) (s : State) : (applyMove m s).rxi = s.rxi := rfl
@[simp] theorem applyMove_elapsed (m : EnvMove) (s : State) : (applyMove m s).elapsed = s.elapsed := rfl
@[simp] theorem applyMove_busy (m : EnvMove) (s : State) : (applyMove m s).busy = s.busy := rfl
@[simp] theorem applyMove_ok (m : EnvMove) (s : State) : (applyMove m s).ok = s.ok := rfl
@[simp] theorem applyMove_cause (m : EnvMove) (s : State) : (applyMove m s).cause = s.cause := rfl
@[simp] theorem applyMove_rx (m : EnvMove) (s : State) : (applyMove m s).rx = s.rx ++ m.arrivals := rfl
@[simp] theorem applyMove_removed (m : EnvMove) (s : State) : (applyMove m s).removed = s.removed := rfl
@[simp] theorem applyMove_tx (m : EnvMove) (s : State) : (applyMove m s).tx = s.tx := rfl
@[simp] theorem applyMove_ready (m : EnvMove) (s : State) : (applyMove m s).ready = m.ready := rfl
@[simp] theorem applyMove_tag (m : EnvMove) (s : State) : (applyMove m s).tag = storeTag m.stores s.tag := rfl
@[simp] theorem applyMove_ee (m : EnvMove) (s : State) : (applyMove m s).ee = storeEe m.stores s.ee := rfl
@[simp] theorem applyMove_env (m : EnvMove) (s : State) : (applyMove m s).env = s.env := rfl
@[simp] theorem applyMove_draws (m : EnvMove) (s : State) : (applyMove m s).draws = s.draws := rfl
@[simp] theorem applyMove_host (m : EnvMove) (s : State) : (applyMove m s).host = s.host := rfl
@[simp] theorem applyMove_call (m : EnvMove) (s : State) : (applyMove m s).call = s.call := rfl
@[simp] theorem applyMove_results (m : EnvMove) (s : State) : (applyMove m s).results = s.results := rfl
@[simp] theorem applyMove_dataValid (m : EnvMove) (s : State) : (applyMove m s).dataValid = s.dataValid := rfl
@[simp] theorem applyMove_idValid (m : EnvMove) (s : State) : (applyMove m s).idValid = s.idValid := rfl
@[simp] theorem applyMove_okValid (m : EnvMove) (s : State) : (applyMove m s).okValid = s.okValid := rfl
@[simp] theorem applyMove_cfg (m : EnvMove) (s : State) : (applyMove m s).cfg = s.cfg := rfl

/-! ### setEnv -/

@[simp] theorem setEnv_lastAck (ms : List EnvMove) (s : State) : (setEnv ms s).lastAck = s.lastAck := rfl
@[simp] theorem setEnv_tmoListen (ms : List EnvMove) (s : State) : (setEnv ms s).tmoListen = s.tmoListen := rfl
@[simp] theorem setEnv_tmoData (ms : List EnvMove) (s : State) : (setEnv ms s).tmoData = s.tmoData := rfl
@[simp] theorem setEnv_init (ms : List EnvMove) (s : State) : (setEnv ms s).init = s.init := rfl
@[simp] theorem setEnv_log (ms : List EnvMove) (s : State) : (setEnv ms s).log = s.log := rfl
@[simp] theorem setEnv_data (ms : List EnvMove) (s : State) : (setEnv ms s).data = s.data := rfl
@[simp] theorem setEnv_idBuf (ms : List EnvMove) (s : State) : (setEnv ms s).idBuf = s.idBuf := rfl
@[simp] theorem setEnv_opnd (ms : List EnvMove) (s : State) : (setEnv ms s).opnd = s.opnd := rfl
@[simp] theorem setEnv_lat (ms : List EnvMove) (s : State) : (setEnv ms s).lat = s.lat := rfl
@[simp] theorem setEnv_phase (ms : List EnvMove) (s : State) : (setEnv ms s).phase = s.phase := rfl
@[simp] theorem setEnv_txi (ms : List EnvMove) (s : State) : (setEnv ms s).txi = s.txi := rfl
@[simp] theorem setEnv_rxi (ms : List EnvMove) (s : State) : (setEnv ms s).rxi = s.rxi := rfl
@[simp] theorem setEnv_elapsed (ms : List EnvMove) (s : State) : (setEnv ms s).elapsed = s.elapsed := rfl
@[simp] theorem setEnv_busy (ms : List EnvMove) (s : State) : (setEnv ms s).busy = s.busy := rfl
@[simp] theorem setEnv_ok (ms : List EnvMove) (s : State) : (setEnv ms s).ok = s.ok := rfl
@[simp] theorem setEnv_cause (ms : List EnvMove) (s : State) : (setEnv ms s).cause = s.cause := rfl
@[simp] theorem setEnv_rx (ms : List EnvMove) (s : State) : (setEnv ms s).rx = s.rx := rfl
@[simp] theorem setEnv_removed (ms : List EnvMove) (s : State) : (setEnv ms s).removed = s.removed := rfl
@[simp] theorem setEnv_tx (ms : List EnvMove) (s : State) : (setEnv ms s).tx = s.tx := rfl
@[simp] theorem setEnv_ready (ms : List EnvMove) (s : State) : (setEnv ms s).ready = s.ready := rfl
@[simp] theorem setEnv_tag (ms : List EnvMove) (s : State) : (setEnv ms s).tag = s.tag := rfl
@[simp] theorem setEnv_ee (ms : List EnvMove) (s : State) : (setEnv ms s).ee = s.ee := rfl
@[simp] theorem setEnv_env (ms : List EnvMove) (s : State) : (setEnv ms s).env = ms := rfl
@[simp] theorem setEnv_draws (ms : List EnvMove) (s : State) : (setEnv ms s).draws = s.draws := rfl
@[simp] theorem setEnv_host (ms : List EnvMove) (s : State) : (setEnv ms s).host = s.host := rfl
@[simp] theorem setEnv_call (ms : List EnvMove) (s : State) : (setEnv ms s).call = s.call := rfl
@[simp] theorem setEnv_results (ms : List EnvMove) (s : State) : (setEnv ms s).results = s.results := rfl
@[simp] theorem setEnv_dataValid (ms : List EnvMove) (s : State) : (setEnv ms s).dataValid = s.dataValid := rfl
@[simp] theorem setEnv_idValid (ms : List EnvMove) (s : State) : (setEnv ms s).idValid = s.idValid := rfl
@[simp] theorem setEnv_okValid (ms : List EnvMove) (s : State) : (setEnv ms s).okValid = s.okValid := rfl
@[simp] theorem setEnv_cfg (ms : List EnvMove) (s : State) : (setEnv ms s).cfg = s.cfg := rfl

/-! ### draw -/

@[simp] theorem draw_lastAck (n : Nat) (s : State) : (draw n s).lastAck = s.lastAck := rfl
@[simp] theorem draw_tmoListen (n : Nat) (s : State) : (draw n s).tmoListen = s.tmoListen := rfl
@[simp] theorem draw_tmoData (n : Nat) (s : State) : (draw n s).tmoData = s.tmoData := rfl
@[simp] theorem draw_init (n : Nat) (s : State) : (draw n s).init = s.init := rfl
@[simp] theorem draw_log (n : Nat) (s : State) : (draw n s).log = s.log := rfl
@[simp] theorem draw_data (n : Nat) (s : State) : (draw n s).data = s.data := rfl
@[simp] theorem draw_idBuf (n : Nat) (s : State) : (draw n s).idBuf = s.idBuf := rfl
@[simp] theorem draw_opnd (n : Nat) (s : State) : (draw n s).opnd = s.opnd := rfl
@[simp] theorem draw_lat (n : Nat) (s : State) : (draw n s).lat = s.lat := rfl
@[simp] theorem draw_phase (n : Nat) (s : State) : (draw n s).phase = s.phase := rfl
@[simp] theorem draw_txi (n : Nat) (s : State) : (draw n s).txi = s.txi := rfl
@[simp] theorem draw_rxi (n : Nat) (s : State) : (draw n s).rxi = s.rxi := rfl
@[simp] theorem draw_elapsed (n : Nat) (s : State) : (draw n s).elapsed = s.elapsed := rfl
@[simp] theorem draw_busy (n : Nat) (s : State) : (draw n s).busy = s.busy := rfl
@[simp] theorem draw_ok (n : Nat) (s : State) : (draw n s).ok = s.ok := rfl
@[simp] theorem draw_cause (n : Nat) (s : State) : (draw n s).cause = s.cause := rfl
@[simp] theorem draw_rx (n : Nat) (s : State) : (draw n s).rx = s.rx := rfl
@[simp] theorem draw_removed (n : Nat) (s : State) : (draw n s).removed = s.removed := rfl
@[simp] theorem draw_tx (n : Nat) (s : State) : (draw n s).tx = s.tx := rfl
@[simp] theorem draw_ready (n : Nat) (s : State) : (draw n s).ready = s.ready := rfl
@[simp] theorem draw_tag (n : Nat) (s : State) : (draw n s).tag = s.tag := rfl
@[simp] theorem draw_ee (n : Nat) (s : State) : (draw n s).ee = s.ee := rfl
@[simp] theorem draw_env (n : Nat) (s : State) : (draw n s).env = s.env := rfl
@[simp] theorem draw_draws (n : Nat) (s : State) : (draw n s).draws = s.draws + n := rfl
@[simp] theorem draw_host (n : Nat) (s : State) : (draw n s).host = s.host := rfl
@[simp] theorem draw_call (n : Nat) (s : State) : (draw n s).call = s.call := rfl
@[simp] theorem draw_results (n : Nat) (s : State) : (draw n s).results = s.results := rfl
@[simp] theorem draw_dataValid (n : Nat) (s : State) : (draw n s).dataValid = s.dataValid := rfl
@[simp] theorem draw_idValid (n : Nat) (s : State) : (draw n s).idValid = s.idValid := rfl
@[simp] theorem draw_okValid (n : Nat) (s : State) : (draw n s).okValid = s.okValid := rfl
@[simp] theorem draw_cfg (n : Nat) (s : State) : (draw n s).cfg = s.cfg := rfl

/-! ### setHost -/

@[simp] theorem setHost_lastAck (ops : List HostOp) (s : State) : (setHost ops s).lastAck = s.lastAck := rfl
@[simp] theorem setHost_tmoListen (ops : List HostOp) (s : State) : (setHost ops s).tmoListen = s.tmoListen := rfl
@[simp] theorem setHost_tmoData (ops : List HostOp) (s : State) : (setHost ops s).tmoData = s.tmoData := rfl
@[simp] theorem setHost_init (ops : List HostOp) (s : State) : (setHost ops s).init = s.init := rfl
@[simp] theorem setHost_log (ops : List HostOp) (s : State) : (setHost ops s).log = s.log := rfl
@[simp] theorem setHost_data (ops : List HostOp) (s : State) : (setHost ops s).data = s.data := rfl
@[simp] theorem setHost_idBuf (ops : List HostOp) (s : State) : (setHost ops s).idBuf = s.idBuf := rfl
@[simp] theorem setHost_opnd (ops : List HostOp) (s : State) : (setHost ops s).opnd = s.opnd := rfl
@[simp] theorem setHost_lat (ops : List HostOp) (s : State) : (setHost ops s).lat = s.lat := rfl
@[simp] theorem setHost_phase (ops : List HostOp) (s : State) : (setHost ops s).phase = s.phase := rfl
@[simp] theorem setHost_txi (ops : List HostOp) (s : State) : (setHost ops s).txi = s.txi := rfl
@[simp] theorem setHost_rxi (ops : List HostOp) (s : State) : (setHost ops s).rxi = s.rxi := rfl
@[simp] theorem setHost_elapsed (ops : List HostOp) (s : State) : (setHost ops s).elapsed = s.elapsed := rfl
@[simp] theorem setHost_busy (ops : List HostOp) (s : State) : (setHost ops s).busy = s.busy := rfl
@[simp] theorem setHost_ok (ops : List HostOp) (s : State) : (setHost ops s).ok = s.ok := rfl
@[simp] theorem setHost_cause (ops : List HostOp) (s : State) : (setHost ops s).cause = s.cause := rfl
@[simp] theorem setHost_rx (ops : List HostOp) (s : State) : (setHost ops s).rx = s.rx := rfl
@[simp] theorem setHost_removed (ops : List HostOp) (s : State) : (setHost ops s).removed = s.removed := rfl
@[simp] theorem setHost_tx (ops : List HostOp) (s : State) : (setHost ops s).tx = s.tx := rfl
@[simp] theorem setHost_ready (ops : List HostOp) (s : State) : (setHost ops s).ready = s.ready := rfl
@[simp] theorem setHost_tag (ops : List HostOp) (s : State) : (setHost ops s).tag = s.tag := rfl
@[simp] theorem setHost_ee (ops : List HostOp) (s : State) : (setHost ops s).ee = s.ee := rfl
@[simp] theorem setHost_env (ops : List HostOp) (s : State) : (setHost ops s).env = s.env := rfl
@[simp] theorem setHost_draws (ops : List HostOp) (s : State) : (setHost ops s).draws = s.draws := rfl
@[simp] theorem setHost_host (ops : List HostOp) (s : State) : (setHost ops s).host = ops := rfl
@[simp] theorem setHost_call (ops : List HostOp) (s : State) : (setHost ops s).call = s.call := rfl
@[simp] theorem setHost_results (ops : List HostOp) (s : State) : (setHost ops s).results = s.results := rfl
@[simp] theorem setHost_dataValid (ops : List HostOp) (s : State) : (setHost ops s).dataValid = s.dataValid := rfl
@[simp] theorem setHost_idValid (ops : List HostOp) (s : State) : (setHost ops s).idValid = s.idValid := rfl
@[simp] theorem setHost_okValid (ops : List HostOp) (s : State) : (setHost ops s).okValid = s.okValid := rfl
@[simp] theorem setHost_cfg (ops : List HostOp) (s : State) : (setHost ops s).cfg = s.cfg := rfl

/-! ### setCall -/

@[simp] theorem setCall_lastAck (c : Option Call) (s : State) : (setCall c s).lastAck = s.lastAck := rfl
@[simp] theorem setCall_tmoListen (c : Option Call) (s : State) : (setCall c s).tmoListen = s.tmoListen := rfl
@[simp] theorem setCall_tmoData (c : Option Call) (s : State) : (setCall c s).tmoData = s.tmoData := rfl
@[simp] theorem setCall_init (c : Option Call) (s : State) : (setCall c s).init = s.init := rfl
@[simp] theorem setCall_log (c : Option Call) (s : State) : (setCall c s).log = s.log := rfl
@[simp] theorem setCall_data (c : Option Call) (s : State) : (setCall c s).data = s.data := rfl
@[simp] theorem setCall_idBuf (c : Option Call) (s : State) : (setCall c s).idBuf = s.idBuf := rfl
@[simp] theorem setCall_opnd (c : Option Call) (s : State) : (setCall c s).opnd = s.opnd := rfl
@[simp] theorem setCall_lat (c : Option Call) (s : State) : (setCall c s).lat = s.lat := rfl
@[simp] theorem setCall_phase (c : Option Call) (s : State) : (setCall c s).phase = s.phase := rfl
@[simp] theorem setCall_txi (c : Option Call) (s : State) : (setCall c s).txi = s.txi := rfl
@[simp] theorem setCall_rxi (c : Option Call) (s : State) : (setCall c s).rxi = s.rxi := rfl
@[simp] theorem setCall_elapsed (c : Option Call) (s : State) : (setCall c s).elapsed = s.elapsed := rfl
@[simp] theorem setCall_busy (c : Option Call) (s : State) : (setCall c s).busy = s.busy := rfl
@[simp] theorem setCall_ok (c : Option Call) (s : State) : (setCall c s).ok = s.ok := rfl
@[simp] theorem setCall_cause (c : Option Call) (s : State) : (setCall c s).cause = s.cause := rfl
@[simp] theorem setCall_rx (c : Option Call) (s : State) : (setCall c s).rx = s.rx := rfl
@[simp] theorem setCall_removed (c : Option Call) (s : State) : (setCall c s).removed = s.removed := rfl
@[simp] theorem setCall_tx (c : Option Call) (s : State) : (setCall c s).tx = s.tx := rfl
@[simp] theorem setCall_ready (c : Option Call) (s : State) : (setCall c s).ready = s.ready := rfl
@[simp] theorem setCall_tag (c : Option Call) (s : State) : (setCall c s).tag = s.tag := rfl
@[simp] theorem setCall_ee (c : Option Call) (s : State) : (setCall c s).ee = s.ee := rfl
@[simp] theorem setCall_env (c : Option Call) (s : State) : (setCall c s).env = s.env := rfl
@[simp] theorem setCall_draws (c : Option Call) (s : State) : (setCall c s).draws = s.draws := rfl
@[simp] theorem setCall_host (c : Option Call) (s : State) : (setCall c s).host = s.host := rfl
@[simp] theorem setCall_call (c : Option Call) (s : State) : (setCall c s).call = c := rfl
@[simp] theorem setCall_results (c : Option Call) (s : State) : (setCall c s).results = s.results := rfl
@[simp] theorem setCall_dataValid (c : Option Call) (s : State) : (setCall c s).dataValid = s.dataValid := rfl
@[simp] theorem setCall_idValid (c : Option Call) (s : State) : (setCall c s).idValid = s.idValid := rfl
@[simp] theorem setCall_okValid (c : Option Call) (s : State) : (setCall c s).okValid = s.okValid := rfl
@[simp] theorem setCall_cfg (c : Option Call) (s : State) : (setCall c s).cfg = s.cfg := rfl

/-! ### takeHead -/

@[simp] theorem takeHead_lastAck (r : Byte) (q : List Byte) (s : State) : (takeHead r q s).lastAck = s.lastAck := rfl
@[simp] theorem takeHead_tmoListen (r : Byte) (q : List Byte) (s : State) : (takeHead r q s).tmoListen = s.tmoListen := rfl
@[simp] theorem takeHead_tmoData (r : Byte) (q : List Byte) (s : State) : (takeHead r q s).tmoData = s.tmoData := rfl
@[simp] theorem takeHead_init (r : Byte) (q : List Byte) (s : State) : (takeHead r q s).init = s.init := rfl
@[simp] theorem takeHead_log (r : Byte) (q : List Byte) (s : State) : (takeHead r q s).log = s.log := rfl
@[simp] theorem takeHead_data (r : Byte) (q : List Byte) (s : State) : (takeHead r q s).data = s.data := rfl
@[simp] theorem takeHead_idBuf (r : Byte) (q : List Byte) (s : State) : (takeHead r q s).idBuf = s.idBuf := rfl
@[simp] theorem takeHead_opnd (r : Byte) (q : List Byte) (s : State) : (takeHead r q s).opnd = s.opnd := rfl
@[simp] theorem takeHead_lat (r : Byte) (q : List Byte) (s : State) : (takeHead r q s).lat = s.lat := rfl
@[simp] theorem takeHead_phase (r : Byte) (q : List Byte) (s : State) : (takeHead r q s).phase = s.phase := rfl
@[simp] theorem takeHead_txi (r : Byte) (q : List Byte) (s : State) : (takeHead r q s).txi = s.txi := rfl
@[simp] theorem takeHead_rxi (r : Byte) (q : List Byte) (s : State) : (takeHead r q s).rxi = s.rxi := rfl
@[simp] theorem takeHead_elapsed (r : Byte) (q : List Byte) (s : State) : (takeHead r q s).elapsed = s.elapsed := rfl
@[simp] theorem takeHead_busy (r : Byte) (q : List Byte) (s : State) : (takeHead r q s).busy = s.busy := rfl
@[simp] theorem takeHead_ok (r : Byte) (q : List Byte) (s : State) : (takeHead r q s).ok = s.ok := rfl
@[simp] theorem takeHead_cause (r : Byte) (q : List Byte) (s : State) : (takeHead r q s).cause = s.cause := rfl
@[simp] theorem takeHead_rx (r : Byte) (q : List Byte) (s : State) : (takeHead r q s).rx = q := rfl
@[simp] theorem takeHead_removed (r : Byte) (q : List Byte) (s : State) : (takeHead r q s).removed = s.removed ++ [r] := rfl
@[simp] theorem takeHead_tx (r : Byte) (q : List Byte) (s : State) : (takeHead r q s).tx = s.tx := rfl
@[simp] theorem takeHead_ready (r : Byte) (q : List Byte) (s : State) : (takeHead r q s).ready = s.ready := rfl
@[simp] theorem takeHead_tag (r : Byte) (q : List Byte) (s : State) : (takeHead r q s).tag = s.tag := rfl
@[simp] theorem takeHead_ee (r : Byte) (q : List Byte) (s : State) : (takeHead r q s).ee = s.ee := rfl
@[simp] theorem takeHead_env (r : Byte) (q : List Byte) (s : State) : (takeHead r q s).env = s.env := rfl
@[simp] theorem takeHead_draws (r : Byte) (q : List Byte) (s : State) : (takeHead r q s).draws = s.draws := rfl
@[simp] theorem takeHead_host (r : Byte) (q : List Byte) (s : State) : (takeHead r q s).host = s.host := rfl
@[simp] theorem takeHead_call (r : Byte) (q : List Byte) (s : State) : (takeHead r q s).call = s.call := rfl
@[simp] theorem takeHead_results (r : Byte) (q : List Byte) (s : State) : (takeHead r q s).results = s.results := rfl
@[simp] theorem takeHead_dataValid (r : Byte) (q : List Byte) (s : State) : (takeHead r q s).dataValid = s.dataValid := rfl
@[simp] theorem takeHead_idValid (r : Byte) (q : List Byte) (s : State) : (takeHead r q s).idValid = s.idValid := rfl
@[simp] theorem takeHead_okValid (r : Byte) (q : List Byte) (s : State) : (takeHead r q s).okValid = s.okValid := rfl
@[simp] theorem takeHead_cfg (r : Byte) (q : List Byte) (s : State) : (takeHead r q s).cfg = s.cfg := rfl

/-! ### slept -/

@[simp] theorem slept_lastAck (s : State) : (slept s).lastAck = s.lastAck := rfl
@[simp] theorem slept_tmoListen (s : State) : (slept s).tmoListen = s.tmoListen := rfl
@[simp] theorem slept_tmoData (s : State) : (slept s).tmoData = s.tmoData := rfl
@[simp] theorem slept_init (s : State) : (slept s).init = s.init := rfl
@[simp] theorem slept_log (s : State) : (slept s).log = s.log := rfl
@[simp] theorem slept_data (s : State) : (slept s).data = s.data := rfl
@[simp] theorem slept_idBuf (s : State) : (slept s).idBuf = s.idBuf := rfl
@[simp] theorem slept_opnd (s : State) : (slept s).opnd = s.opnd := rfl
@[simp] theorem slept_lat (s : State) : (slept s).lat = s.lat := rfl
@[simp] theorem slept_phase (s : State) : (slept s).phase = s.phase := rfl
@[simp] theorem slept_txi (s : State) : (slept s).txi = s.txi := rfl
@[simp] theorem slept_rxi (s : State) : (slept s).rxi = s.rxi := rfl
@[simp] theorem slept_elapsed (s : State) : (slept s).elapsed = afterSleep s.elapsed := rfl
@[simp] theorem slept_busy (s : State) : (slept s).busy = s.busy := rfl
@[simp] theorem slept_ok (s : State) : (slept s).ok = s.ok := rfl
@[simp] theorem slept_cause (s : State) : (slept s).cause = s.cause := rfl
@[simp] theorem slept_rx (s : State) : (slept s).rx = s.rx := rfl
@[simp] theorem slept_removed (s : State) : (slept s).removed = s.removed := rfl
@[simp] theorem slept_tx (s : State) : (slept s).tx = s.tx := rfl
@[simp] theorem slept_ready (s : State) : (slept s).ready = s.ready := rfl
@[simp] theorem slept_tag (s : State) : (slept s).tag = s.tag := rfl
@[simp] theorem slept_ee (s : State) : (slept s).ee = s.ee := rfl
@[simp] theorem slept_env (s : State) : (slept s).env = s.env := rfl
@[simp] theorem slept_draws (s : State) : (slept s).draws = s.draws := rfl
@[simp] theorem slept_host (s : State) : (slept s).host = s.host := rfl
@[simp] theorem slept_call (s : State) : (slept s).call = s.call := rfl
@[simp] theorem slept_results (s : State) : (slept s).results = s.results := rfl
@[simp] theorem slept_dataValid (s : State) : (slept s).dataValid = s.dataValid := rfl
@[simp] theorem slept_idValid (s : State) : (slept s).idValid = s.idValid := rfl
@[simp] theorem slept_okValid (s : State) : (slept s).okValid = s.okValid := rfl
@[simp] theorem slept_cfg (s : State) : (slept s).cfg = s.cfg := rfl

/-! ### txPush -/

@[simp] theorem txPush_lastAck (b : Byte) (s : State) : (txPush b s).lastAck = s.lastAck := rfl
@[simp] theorem txPush_tmoListen (b : Byte) (s : State) : (txPush b s).tmoListen = s.tmoListen := rfl
@[simp] theorem txPush_tmoData (b : Byte) (s : State) : (txPush b s).tmoData = s.tmoData := rfl
@[simp] theorem txPush_init (b : Byte) (s : State) : (txPush b s).init = s.init := rfl
@[simp] theorem txPush_log (b : Byte) (s : State) : (txPush b s).log = s.log := rfl
@[simp] theorem txPush_data (b : Byte) (s : State) : (txPush b s).data = s.data := rfl
@[simp] theorem txPush_idBuf (b : Byte) (s : State) : (txPush b s).idBuf = s.idBuf := rfl
@[simp] theorem txPush_opnd (b : Byte) (s : State) : (txPush b s).opnd = s.opnd := rfl
@[simp] theorem txPush_lat (b : Byte) (s : State) : (txPush b s).lat = s.lat := rfl
@[simp] theorem txPush_phase (b : Byte) (s : State) : (txPush b s).phase = s.phase := rfl
@[simp] theorem txPush_txi (b : Byte) (s : State) : (txPush b s).txi = s.txi := rfl
@[simp] theorem txPush_rxi (b : Byte) (s : State) : (txPush b s).rxi = s.rxi := rfl
@[simp] theorem txPush_elapsed (b : Byte) (s : State) : (txPush b s).elapsed = s.elapsed := rfl
@[simp] theorem txPush_busy (b : Byte) (s : State) : (txPush b s).busy = s.busy := rfl
@[simp] theorem txPush_ok (b : Byte) (s : State) : (txPush b s).ok = s.ok := rfl
@[simp] theorem txPush_cause (b : Byte) (s : State) : (txPush b s).cause = s.cause := rfl
@[simp] theorem txPush_rx (b : Byte) (s : State) : (txPush b s).rx = s.rx := rfl
@[simp] theorem txPush_removed (b : Byte) (s : State) : (txPush b s).removed = s.removed := rfl
@[simp] theorem txPush_tx (b : Byte) (s : State) : (txPush b s).tx = s.tx ++ [b] := rfl
@[simp] theorem txPush_ready (b : Byte) (s : State) : (txPush b s).ready = s.ready := rfl
@[simp] theorem txPush_tag (b : Byte) (s : State) : (txPush b s).tag = s.tag := rfl
@[simp] theorem txPush_ee (b : Byte) (s : State) : (txPush b s).ee = s.ee := rfl
@[simp] theorem txPush_env (b : Byte) (s : State) : (txPush b s).env = s.env := rfl
@[simp] theorem txPush_draws (b : Byte) (s : State) : (txPush b s).draws = s.draws := rfl
@[simp] theorem txPush_host (b : Byte) (s : State) : (txPush b s).host = s.host := rfl
@[simp] theorem txPush_call (b : Byte) (s : State) : (txPush b s).call = s.call := rfl
@[simp] theorem txPush_results (b : Byte) (s : State) : (txPush b s).results = s.results := rfl
@[simp] theorem txPush_dataValid (b : Byte) (s : State) : (txPush b s).dataValid = s.dataValid := rfl
@[simp] theorem txPush_idValid (b : Byte) (s : State) : (txPush b s).idValid = s.idValid := rfl
@[simp] theorem txPush_okValid (b : Byte) (s : State) : (txPush b s).okValid = s.okValid := rfl
@[simp] theorem txPush_cfg (b : Byte) (s : State) : (txPush b s).cfg = s.cfg := rfl

/-! ### logTimeout -/

@[simp] theorem logTimeout_lastAck (k : WaitKind) (s : State) : (logTimeout k s).lastAck = s.lastAck := rfl
@[simp] theorem logTimeout_tmoListen (k : WaitKind) (s : State) : (logTimeout k s).tmoListen = s.tmoListen := rfl
@[simp] theorem logTimeout_tmoData (k : WaitKind) (s : State) : (logTimeout k s).tmoData = s.tmoData := rfl
@[simp] theorem logTimeout_init (k : WaitKind) (s : State) : (logTimeout k s).init = s.init := rfl
@[simp] theorem logTimeout_log (k : WaitKind) (s : State) : (logTimeout k s).log = s.log ++ [k] := rfl
@[simp] theorem logTimeout_data (k : WaitKind) (s : State) : (logTimeout k s).data = s.data := rfl
@[simp] theorem logTimeout_idBuf (k : WaitKind) (s : State) : (logTimeout k s).idBuf = s.idBuf := rfl
@[simp] theorem logTimeout_opnd (k : WaitKind) (s : State) : (logTimeout k s).opnd = s.opnd := rfl
@[simp] theorem logTimeout_lat (k : WaitKind) (s : State) : (logTimeout k s).lat = s.lat := rfl
@[simp] theorem logTimeout_phase (k : WaitKind) (s : State) : (logTimeout k s).phase = s.phase := rfl
@[simp] theorem logTimeout_txi (k : WaitKind) (s : State) : (logTimeout k s).txi = s.txi := rfl
@[simp] theorem logTimeout_rxi (k : WaitKind) (s : State) : (logTimeout k s).rxi = s.rxi := rfl
@[simp] theorem logTimeout_elapsed (k : WaitKind) (s : State) : (logTimeout k s).elapsed = s.elapsed := rfl
@[simp] theorem logTimeout_busy (k : WaitKind) (s : State) : (logTimeout k s).busy = s.busy := rfl
@[simp] theorem logTimeout_ok (k : WaitKind) (s : State) : (logTimeout k s).ok = s.ok := rfl
@[simp] theorem logTimeout_cause (k : WaitKind) (s : State) : (logTimeout k s).cause = s.cause := rfl
@[simp] theorem logTimeout_rx (k : WaitKind) (s : State) : (logTimeout k s).rx = s.rx := rfl
@[simp] theorem logTimeout_removed (k : WaitKind) (s : State) : (logTimeout k s).removed = s.removed := rfl
@[simp] theorem logTimeout_tx (k : WaitKind) (s : State) : (logTimeout k s).tx = s.tx := rfl
@[simp] theorem logTimeout_ready (k : WaitKind) (s : State) : (logTimeout k s).ready = s.ready := rfl
@[simp] theorem logTimeout_tag (k : WaitKind) (s : State) : (logTimeout k s).tag = s.tag := rfl
@[simp] theorem logTimeout_ee (k : WaitKind) (s : State) : (logTimeout k s).ee = s.ee := rfl
@[simp] theorem logTimeout_env (k : WaitKind) (s : State) : (logTimeout k s).env = s.env := rfl
@[simp] theorem logTimeout_draws (k : WaitKind) (s : State) : (logTimeout k s).draws = s.draws := rfl
@[simp] theorem logTimeout_host (k : WaitKind) (s : State) : (logTimeout k s).host = s.host := rfl
@[simp] theorem logTimeout_call (k : WaitKind) (s : State) : (logTimeout k s).call = s.call := rfl
@[simp] theorem logTimeout_results (k : WaitKind) (s : State) : (logTimeout k s).results = s.results := rfl
@[simp] theorem logTimeout_dataValid (k : WaitKind) (s : State) : (logTimeout k s).dataValid = s.dataValid := rfl
@[simp] theorem logTimeout_idValid (k : WaitKind) (s : State) : (logTimeout k s).idValid = s.idValid := rfl
@[simp] theorem logTimeout_okValid (k : WaitKind) (s : State) : (logTimeout k s).okValid = s.okValid := rfl
@[simp] theorem logTimeout_cfg (k : WaitKind) (s : State) : (logTimeout k s).cfg = s.cfg := rfl

/-! ### toPhase -/

@[simp] theorem toPhase_lastAck (p : Phase) (s : State) : (toPhase p s).lastAck = s.lastAck := rfl
@[simp] theorem toPhase_tmoListen (p : Phase) (s : State) : (toPhase p s).tmoListen = s.tmoListen := rfl
@[simp] theorem toPhase_tmoData (p : Phase) (s : State) : (toPhase p s).tmoData = s.tmoData := rfl
@[simp] theorem toPhase_init (p : Phase) (s : State) : (toPhase p s).init = s.init := rfl
@[simp] theorem toPhase_log (p : Phase) (s : State) : (toPhase p s).log = s.log := rfl
@[simp] theorem toPhase_data (p : Phase) (s : State) : (toPhase p s).data = s.data := rfl
@[simp] theorem toPhase_idBuf (p : Phase) (s : State) : (toPhase p s).idBuf = s.idBuf := rfl
@[simp] theorem toPhase_opnd (p : Phase) (s : State) : (toPhase p s).opnd = s.opnd := rfl
@[simp] theorem toPhase_lat (p : Phase) (s : State) : (toPhase p s).lat = s.lat := rfl
@[simp] theorem toPhase_phase (p : Phase) (s : State) : (toPhase p s).phase = p := rfl
@[simp] theorem toPhase_txi (p : Phase) (s : State) : (toPhase p s).txi = s.txi := rfl
@[simp] theorem toPhase_rxi (p : Phase) (s : State) : (toPhase p s).rxi = s.rxi := rfl
@[simp] theorem toPhase_elapsed (p : Phase) (s : State) : (toPhase p s).elapsed = s.elapsed := rfl
@[simp] theorem toPhase_busy (p : Phase) (s : State) : (toPhase p s).busy = s.busy := rfl
@[simp] theorem toPhase_ok (p : Phase) (s : State) : (toPhase p s).ok = s.ok := rfl
@[simp] theorem toPhase_cause (p : Phase) (s : State) : (toPhase p s).cause = s.cause := rfl
@[simp] theorem toPhase_rx (p : Phase) (s : State) : (toPhase p s).rx = s.rx := rfl
@[simp] theorem toPhase_removed (p : Phase) (s : State) : (toPhase p s).removed = s.removed := rfl
@[simp] theorem toPhase_tx (p : Phase) (s : State) : (toPhase p s).tx = s.tx := rfl
@[simp] theorem toPhase_ready (p : Phase) (s : State) : (toPhase p s).ready = s.ready := rfl
@[simp] theorem toPhase_tag (p : Phase) (s : State) : (toPhase p s).tag = s.tag := rfl
@[simp] theorem toPhase_ee (p : Phase) (s : State) : (toPhase p s).ee = s.ee := rfl
@[simp] theorem toPhase_env (p : Phase) (s : State) : (toPhase p s).env = s.env := rfl
@[simp] theorem toPhase_draws (p : Phase) (s : State) : (toPhase p s).draws = s.draws := rfl
@[simp] theorem toPhase_host (p : Phase) (s : State) : (toPhase p s).host = s.host := rfl
@[simp] theorem toPhase_call (p : Phase) (s : State) : (toPhase p s).call = s.call := rfl
@[simp] theorem toPhase_results (p : Phase) (s : State) : (toPhase p s).results = s.results := rfl
@[simp] theorem toPhase_dataValid (p : Phase) (s : State) : (toPhase p s).dataValid = s.dataValid := rfl
@[simp] theorem toPhase_idValid (p : Phase) (s : State) : (toPhase p s).idValid = s.idValid := rfl
@[simp] theorem toPhase_okValid (p : Phase) (s : State) : (toPhase p s).okValid = s.okValid := rfl
@[simp] theorem toPhase_cfg (p : Phase) (s : State) : (toPhase p s).cfg = s.cfg := rfl

/-! ### toWait -/

@[simp] theorem toWait_lastAck (p : Phase) (s : State) : (toWait p s).lastAck = s.lastAck := rfl
@[simp] theorem toWait_tmoListen (p : Phase) (s : State) : (toWait p s).tmoListen = s.tmoListen := rfl
@[simp] theorem toWait_tmoData (p : Phase) (s : State) : (toWait p s).tmoData = s.tmoData := rfl
@[simp] theorem toWait_init (p : Phase) (s : State) : (toWait p s).init = s.init := rfl
@[simp] theorem toWait_log (p : Phase) (s : State) : (toWait p s).log = s.log := rfl
@[simp] theorem toWait_data (p : Phase) (s : State) : (toWait p s).data = s.data := rfl
@[simp] theorem toWait_idBuf (p : Phase) (s : State) : (toWait p s).idBuf = s.idBuf := rfl
@[simp] theorem toWait_opnd (p : Phase) (s : State) : (toWait p s).opnd = s.opnd := rfl
@[simp] theorem toWait_lat (p : Phase) (s : State) : (toWait p s).lat = s.lat := rfl
@[simp] theorem toWait_phase (p : Phase) (s : State) : (toWait p s).phase = p := rfl
@[simp] theorem toWait_txi (p : Phase) (s : State) : (toWait p s).txi = s.txi := rfl
@[simp] theorem toWait_rxi (p : Phase) (s : State) : (toWait p s).rxi = s.rxi := rfl
@[simp] theorem toWait_elapsed (p : Phase) (s : State) : (toWait p s).elapsed = 0 := rfl
@[simp] theorem toWait_busy (p : Phase) (s : State) : (toWait p s).busy = s.busy := rfl
@[simp] theorem toWait_ok (p : Phase) (s : State) : (toWait p s).ok = s.ok := rfl
@[simp] theorem toWait_cause (p : Phase) (s : State) : (toWait p s).cause = s.cause := rfl
@[simp] theorem toWait_rx (p : Phase) (s : State) : (toWait p s).rx = s.rx := rfl
@[simp] theorem toWait_removed (p : Phase) (s : State) : (toWait p s).removed = s.removed := rfl
@[simp] theorem toWait_tx (p : Phase) (s : State) : (toWait p s).tx = s.tx := rfl
@[simp] theorem toWait_ready (p : Phase) (s : State) : (toWait p s).ready = s.ready := rfl
@[simp] theorem toWait_tag (p : Phase) (s : State) : (toWait p s).tag = s.tag := rfl
@[simp] theorem toWait_ee (p : Phase) (s : State) : (toWait p s).ee = s.ee := rfl
@[simp] theorem toWait_env (p : Phase) (s : State) : (toWait p s).env = s.env := rfl
@[simp] theorem toWait_draws (p : Phase) (s : State) : (toWait p s).draws = s.draws := rfl
@[simp] theorem toWait_host (p : Phase) (s : State) : (toWait p s).host = s.host := rfl
@[simp] theorem toWait_call (p : Phase) (s : State) : (toWait p s).call = s.call := rfl
@[simp] theorem toWait_results (p : Phase) (s : State) : (toWait p s).results = s.results := rfl
@[simp] theorem toWait_dataValid (p : Phase) (s : State) : (toWait p s).dataValid = s.dataValid := rfl
@[simp] theorem toWait_idValid (p : Phase) (s : State) : (toWait p s).idValid = s.idValid := rfl
@[simp] theorem toWait_okValid (p : Phase) (s : State) : (toWait p s).okValid = s.okValid := rfl
@[simp] theorem toWait_cfg (p : Phase) (s : State) : (toWait p s).cfg = s.cfg := rfl

/-! ### succeed -/

@[simp] theorem succeed_lastAck (s : State) : (succeed s).lastAck = s.lastAck := rfl
@[simp] theorem succeed_tmoListen (s : State) : (succeed s).tmoListen = s.tmoListen := rfl
@[simp] theorem succeed_tmoData (s : State) : (succeed s).tmoData = s.tmoData := rfl
@[simp] theorem succeed_init (s : State) : (succeed s).init = s.init := rfl
@[simp] theorem succeed_log (s : State) : (succeed s).log = s.log := rfl
@[simp] theorem succeed_data (s : State) : (succeed s).data = s.data := rfl
@[simp] theorem succeed_idBuf (s : State) : (succeed s).idBuf = s.idBuf := rfl
@[simp] theorem succeed_opnd (s : State) : (succeed s).opnd = s.opnd := rfl
@[simp] theorem succeed_lat (s : State) : (succeed s).lat = s.lat := rfl
@[simp] theorem succeed_phase (s : State) : (succeed s).phase = .idle := rfl
@[simp] theorem succeed_txi (s : State) : (succeed s).txi = s.txi := rfl
@[simp] theorem succeed_rxi (s : State) : (succeed s).rxi = s.rxi := rfl
@[simp] theorem succeed_elapsed (s : State) : (succeed s).elapsed = s.elapsed := rfl
@[simp] theorem succeed_busy (s : State) : (succeed s).busy = false := rfl
@[simp] theorem succeed_ok (s : State) : (succeed s).ok = true := rfl
@[simp] theorem succeed_cause (s : State) : (succeed s).cause = Config.causeAfterSuccess s.draws := rfl
@[simp] theorem succeed_rx (s : State) : (succeed s).rx = s.rx := rfl
@[simp] theorem succeed_removed (s : State) : (succeed s).removed = s.removed := rfl
@[simp] theorem succeed_tx (s : State) : (succeed s).tx = s.tx := rfl
@[simp] theorem succeed_ready (s : State) : (succeed s).ready = s.ready := rfl
@[simp] theorem succeed_tag (s : State) : (succeed s).tag = s.tag := rfl
@[simp] theorem succeed_ee (s : State) : (succeed s).ee = s.ee := rfl
@[simp] theorem succeed_env (s : State) : (succeed s).env = s.env := rfl
@[simp] theorem succeed_draws (s : State) : (succeed s).draws = s.draws + 1 := rfl
@[simp] theorem succeed_host (s : State) : (succeed s).host = s.host := rfl
@[simp] theorem succeed_call (s : State) : (succeed s).call = s.call := rfl
@[simp] theorem succeed_results (s : State) : (succeed s).results = s.results := rfl
@[simp] theorem succeed_dataValid (s : State) : (succeed s).dataValid = if s.lat.pm = .fixed then max s.lat.pcnt s.dataValid else s.dataValid := rfl
@[simp] theorem succeed_idValid (s : State) : (succeed s).idValid = if s.lat.pm = .drain then true else s.idValid := rfl
@[simp] theorem succeed_okValid (s : State) : (succeed s).okValid = true := rfl
@[simp] theorem succeed_cfg (s : State) : (succeed s).cfg = s.cfg := rfl

/-! ### fail -/

@[simp] theorem fail_lastAck (c : FailCause) (s : State) : (fail c s).lastAck = s.lastAck := rfl
@[simp] theorem fail_tmoListen (c : FailCause) (s : State) : (fail c s).tmoListen = s.tmoListen := rfl
@[simp] theorem fail_tmoData (c : FailCause) (s : State) : (fail c s).tmoData = s.tmoData := rfl
@[simp] theorem fail_init (c : FailCause) (s : State) : (fail c s).init = s.init := rfl
@[simp] theorem fail_log (c : FailCause) (s : State) : (fail c s).log = s.log := rfl
@[simp] theorem fail_data (c : FailCause) (s : State) : (fail c s).data = s.data := rfl
@[simp] theorem fail_idBuf (c : FailCause) (s : State) : (fail c s).idBuf = s.idBuf := rfl
@[simp] theorem fail_opnd (c : FailCause) (s : State) : (fail c s).opnd = s.opnd := rfl
@[simp] theorem fail_lat (c : FailCause) (s : State) : (fail c s).lat = s.lat := rfl
@[simp] theorem fail_phase (c : FailCause) (s : State) : (fail c s).phase = .idle := rfl
@[simp] theorem fail_txi (c : FailCause) (s : State) : (fail c s).txi = s.txi := rfl
@[simp] theorem fail_rxi (c : FailCause) (s : State) : (fail c s).rxi = s.rxi := rfl
@[simp] theorem fail_elapsed (c : FailCause) (s : State) : (fail c s).elapsed = s.elapsed := rfl
@[simp] theorem fail_busy (c : FailCause) (s : State) : (fail c s).busy = false := rfl
@[simp] theorem fail_ok (c : FailCause) (s : State) : (fail c s).ok = false := rfl
@[simp] theorem fail_cause (c : FailCause) (s : State) : (fail c s).cause = c := rfl
@[simp] theorem fail_rx (c : FailCause) (s : State) : (fail c s).rx = s.rx := rfl
@[simp] theorem fail_removed (c : FailCause) (s : State) : (fail c s).removed = s.removed := rfl
@[simp] theorem fail_tx (c : FailCause) (s : State) : (fail c s).tx = s.tx := rfl
@[simp] theorem fail_ready (c : FailCause) (s : State) : (fail c s).ready = s.ready := rfl
@[simp] theorem fail_tag (c : FailCause) (s : State) : (fail c s).tag = s.tag := rfl
@[simp] theorem fail_ee (c : FailCause) (s : State) : (fail c s).ee = s.ee := rfl
@[simp] theorem fail_env (c : FailCause) (s : State) : (fail c s).env = s.env := rfl
@[simp] theorem fail_draws (c : FailCause) (s : State) : (fail c s).draws = s.draws := rfl
@[simp] theorem fail_host (c : FailCause) (s : State) : (fail c s).host = s.host := rfl
@[simp] theorem fail_call (c : FailCause) (s : State) : (fail c s).call = s.call := rfl
@[simp] theorem fail_results (c : FailCause) (s : State) : (fail c s).results = s.results := rfl
@[simp] theorem fail_dataValid (c : FailCause) (s : State) : (fail c s).dataValid = if s.lat.pm = .fixed then 0 else s.dataValid := rfl
@[simp] theorem fail_idValid (c : FailCause) (s : State) : (fail c s).idValid = if s.lat.pm = .drain then false else s.idValid := rfl
@[simp] theorem fail_okValid (c : FailCause) (s : State) : (fail c s).okValid = true := rfl
@[simp] theorem fail_cfg (c : FailCause) (s : State) : (fail c s).cfg = s.cfg := rfl

/-! ### endWait -/

@[simp] theorem endWait_lastAck (v : Bool) (s : State) : (endWait v s).lastAck = s.lastAck := rfl
@[simp] theorem endWait_tmoListen (v : Bool) (s : State) : (endWait v s).tmoListen = s.tmoListen := rfl
@[simp] theorem endWait_tmoData (v : Bool) (s : State) : (endWait v s).tmoData = s.tmoData := rfl
@[simp] theorem endWait_init (v : Bool) (s : State) : (endWait v s).init = s.init := rfl
@[simp] theorem endWait_log (v : Bool) (s : State) : (endWait v s).log = s.log := rfl
@[simp] theorem endWait_data (v : Bool) (s : State) : (endWait v s).data = s.data := rfl
@[simp] theorem endWait_idBuf (v : Bool) (s : State) : (endWait v s).idBuf = s.idBuf := rfl
@[simp] theorem endWait_opnd (v : Bool) (s : State) : (endWait v s).opnd = s.opnd := rfl
@[simp] theorem endWait_lat (v : Bool) (s : State) : (endWait v s).lat = s.lat := rfl
@[simp] theorem endWait_phase (v : Bool) (s : State) : (endWait v s).phase = .idle := rfl
@[simp] theorem endWait_txi (v : Bool) (s : State) : (endWait v s).txi = s.txi := rfl
@[simp] theorem endWait_rxi (v : Bool) (s : State) : (endWait v s).rxi = s.rxi := rfl
@[simp] theorem endWait_elapsed (v : Bool) (s : State) : (endWait v s).elapsed = s.elapsed := rfl
@[simp] theorem endWait_busy (v : Bool) (s : State) : (endWait v s).busy = false := rfl
@[simp] theorem endWait_ok (v : Bool) (s : State) : (endWait v s).ok = s.ok := rfl
@[simp] theorem endWait_cause (v : Bool) (s : State) : (endWait v s).cause = s.cause := rfl
@[simp] theorem endWait_rx (v : Bool) (s : State) : (endWait v s).rx = s.rx := rfl
@[simp] theorem endWait_removed (v : Bool) (s : State) : (endWait v s).removed = s.removed := rfl
@[simp] theorem endWait_tx (v : Bool) (s : State) : (endWait v s).tx = s.tx := rfl
@[simp] theorem endWait_ready (v : Bool) (s : State) : (endWait v s).ready = s.ready := rfl
@[simp] theorem endWait_tag (v : Bool) (s : State) : (endWait v s).tag = s.tag := rfl
@[simp] theorem endWait_ee (v : Bool) (s : State) : (endWait v s).ee = s.ee := rfl
@[simp] theorem endWait_env (v : Bool) (s : State) : (endWait v s).env = s.env := rfl
@[simp] theorem endWait_draws (v : Bool) (s : State) : (endWait v s).draws = s.draws := rfl
@[simp] theorem endWait_host (v : Bool) (s : State) : (endWait v s).host = s.host := rfl
@[simp] theorem endWait_call (v : Bool) (s : State) : (endWait v s).call = none := rfl
@[simp] theorem endWait_results (v : Bool) (s : State) : (endWait v s).results = s.results ++ [{ value := v, out := [] }] := rfl
@[simp] theorem endWait_dataValid (v : Bool) (s : State) : (endWait v s).dataValid = s.dataValid := rfl
@[simp] theorem endWait_idValid (v : Bool) (s : State) : (endWait v s).idValid = s.idValid := rfl
@[simp] theorem endWait_okValid (v : Bool) (s : State) : (endWait v s).okValid = s.okValid := rfl
@[simp] theorem endWait_cfg (v : Bool) (s : State) : (endWait v s).cfg = s.cfg := rfl

/-! ### writeOperands -/

@[simp] theorem writeOperands_lastAck (r : OperandRegs) (s : State) : (writeOperands r s).lastAck = s.lastAck := rfl
@[simp] theorem writeOperands_tmoListen (r : OperandRegs) (s : State) : (writeOperands r s).tmoListen = s.tmoListen := rfl
@[simp] theorem writeOperands_tmoData (r : OperandRegs) (s : State) : (writeOperands r s).tmoData = s.tmoData := rfl
@[simp] theorem writeOperands_init (r : OperandRegs) (s : State) : (writeOperands r s).init = s.init := rfl
@[simp] theorem writeOperands_log (r : OperandRegs) (s : State) : (writeOperands r s).log = s.log := rfl
@[simp] theorem writeOperands_data (r : OperandRegs) (s : State) : (writeOperands r s).data = s.data := rfl
@[simp] theorem writeOperands_idBuf (r : OperandRegs) (s : State) : (writeOperands r s).idBuf = s.idBuf := rfl
@[simp] theorem writeOperands_opnd (r : OperandRegs) (s : State) : (writeOperands r s).opnd = r := rfl
@[simp] theorem writeOperands_lat (r : OperandRegs) (s : State) : (writeOperands r s).lat = s.lat := rfl
@[simp] theorem writeOperands_phase (r : OperandRegs) (s : State) : (writeOperands r s).phase = s.phase := rfl
@[simp] theorem writeOperands_txi (r : OperandRegs) (s : State) : (writeOperands r s).txi = s.txi := rfl
@[simp] theorem writeOperands_rxi (r : OperandRegs) (s : State) : (writeOperands r s).rxi = s.rxi := rfl
@[simp] theorem writeOperands_elapsed (r : OperandRegs) (s : State) : (writeOperands r s).elapsed = s.elapsed := rfl
@[simp] theorem writeOperands_busy (r : OperandRegs) (s : State) : (writeOperands r s).busy = s.busy := rfl
@[simp] theorem writeOperands_ok (r : OperandRegs) (s : State) : (writeOperands r s).ok = s.ok := rfl
@[simp] theorem writeOperands_cause (r : OperandRegs) (s : State) : (writeOperands r s).cause = s.cause := rfl
@[simp] theorem writeOperands_rx (r : OperandRegs) (s : State) : (writeOperands r s).rx = s.rx := rfl
@[simp] theorem writeOperands_removed (r : OperandRegs) (s : State) : (writeOperands r s).removed = s.removed := rfl
@[simp] theorem writeOperands_tx (r : OperandRegs) (s : State) : (writeOperands r s).tx = s.tx := rfl
@[simp] theorem writeOperands_ready (r : OperandRegs) (s : State) : (writeOperands r s).ready = s.ready := rfl
@[simp] theorem writeOperands_tag (r : OperandRegs) (s : State) : (writeOperands r s).tag = s.tag := rfl
@[simp] theorem writeOperands_ee (r : OperandRegs) (s : State) : (writeOperands r s).ee = s.ee := rfl
@[simp] theorem writeOperands_env (r : OperandRegs) (s : State) : (writeOperands r s).env = s.env := rfl
@[simp] theorem writeOperands_draws (r : OperandRegs) (s : State) : (writeOperands r s).draws = s.draws := rfl
@[simp] theorem writeOperands_host (r : OperandRegs) (s : State) : (writeOperands r s).host = s.host := rfl
@[simp] theorem writeOperands_call (r : OperandRegs) (s : State) : (writeOperands r s).call = s.call := rfl
@[simp] theorem writeOperands_results (r : OperandRegs) (s : State) : (writeOperands r s).results = s.results := rfl
@[simp] theorem writeOperands_dataValid (r : OperandRegs) (s : State) : (writeOperands r s).dataValid = s.dataValid := rfl
@[simp] theorem writeOperands_idValid (r : OperandRegs) (s : State) : (writeOperands r s).idValid = s.idValid := rfl
@[simp] theorem writeOperands_okValid (r : OperandRegs) (s : State) : (writeOperands r s).okValid = s.okValid := rfl
@[simp] theorem writeOperands_cfg (r : OperandRegs) (s : State) : (writeOperands r s).cfg = s.cfg := rfl

/-! ### writeTimeouts -/

@[simp] theorem writeTimeouts_lastAck (l d : Millis) (s : State) : (writeTimeouts l d s).lastAck = s.lastAck := rfl
@[simp] theorem writeTimeouts_tmoListen (l d : Millis) (s : State) : (writeTimeouts l d s).tmoListen = l := rfl
@[simp] theorem writeTimeouts_tmoData (l d : Millis) (s : State) : (writeTimeouts l d s).tmoData = d := rfl
@[simp] theorem writeTimeouts_init (l d : Millis) (s : State) : (writeTimeouts l d s).init = s.init := rfl
@[simp] theorem writeTimeouts_log (l d : Millis) (s : State) : (writeTimeouts l d s).log = s.log := rfl
@[simp] theorem writeTimeouts_data (l d : Millis) (s : State) : (writeTimeouts l d s).data = s.data := rfl
@[simp] theorem writeTimeouts_idBuf (l d : Millis) (s : State) : (writeTimeouts l d s).idBuf = s.idBuf := rfl
@[simp] theorem writeTimeouts_opnd (l d : Millis) (s : State) : (writeTimeouts l d s).opnd = s.opnd := rfl
@[simp] theorem writeTimeouts_lat (l d : Millis) (s : State) : (writeTimeouts l d s).lat = s.lat := rfl
@[simp] theorem writeTimeouts_phase (l d : Millis) (s : State) : (writeTimeouts l d s).phase = s.phase := rfl
@[simp] theorem writeTimeouts_txi (l d : Millis) (s : State) : (writeTimeouts l d s).txi = s.txi := rfl
@[simp] theorem writeTimeouts_rxi (l d : Millis) (s : State) : (writeTimeouts l d s).rxi = s.rxi := rfl
@[simp] theorem writeTimeouts_elapsed (l d : Millis) (s : State) : (writeTimeouts l d s).elapsed = s.elapsed := rfl
@[simp] theorem writeTimeouts_busy (l d : Millis) (s : State) : (writeTimeouts l d s).busy = s.busy := rfl
@[simp] theorem writeTimeouts_ok (l d : Millis) (s : State) : (writeTimeouts l d s).ok = s.ok := rfl
@[simp] theorem writeTimeouts_cause (l d : Millis) (s : State) : (writeTimeouts l d s).cause = s.cause := rfl
@[simp] theorem writeTimeouts_rx (l d : Millis) (s : State) : (writeTimeouts l d s).rx = s.rx := rfl
@[simp] theorem writeTimeouts_removed (l d : Millis) (s : State) : (writeTimeouts l d s).removed = s.removed := rfl
@[simp] theorem writeTimeouts_tx (l d : Millis) (s : State) : (writeTimeouts l d s).tx = s.tx := rfl
@[simp] theorem writeTimeouts_ready (l d : Millis) (s : State) : (writeTimeouts l d s).ready = s.ready := rfl
@[simp] theorem writeTimeouts_tag (l d : Millis) (s : State) : (writeTimeouts l d s).tag = s.tag := rfl
@[simp] theorem writeTimeouts_ee (l d : Millis) (s : State) : (writeTimeouts l d s).ee = s.ee := rfl
@[simp] theorem writeTimeouts_env (l d : Millis) (s : State) : (writeTimeouts l d s).env = s.env := rfl
@[simp] theorem writeTimeouts_draws (l d : Millis) (s : State) : (writeTimeouts l d s).draws = s.draws := rfl
@[simp] theorem writeTimeouts_host (l d : Millis) (s : State) : (writeTimeouts l d s).host = s.host := rfl
@[simp] theorem writeTimeouts_call (l d : Millis) (s : State) : (writeTimeouts l d s).call = s.call := rfl
@[simp] theorem writeTimeouts_results (l d : Millis) (s : State) : (writeTimeouts l d s).results = s.results := rfl
@[simp] theorem writeTimeouts_dataValid (l d : Millis) (s : State) : (writeTimeouts l d s).dataValid = s.dataValid := rfl
@[simp] theorem writeTimeouts_idValid (l d : Millis) (s : State) : (writeTimeouts l d s).idValid = s.idValid := rfl
@[simp] theorem writeTimeouts_okValid (l d : Millis) (s : State) : (writeTimeouts l d s).okValid = s.okValid := rfl
@[simp] theorem writeTimeouts_cfg (l d : Millis) (s : State) : (writeTimeouts l d s).cfg = s.cfg := rfl

/-! ### setInit -/

@[simp] theorem setInit_lastAck (s : State) : (setInit s).lastAck = s.lastAck := rfl
@[simp] theorem setInit_tmoListen (s : State) : (setInit s).tmoListen = s.tmoListen := rfl
@[simp] theorem setInit_tmoData (s : State) : (setInit s).tmoData = s.tmoData := rfl
@[simp] theorem setInit_init (s : State) : (setInit s).init = true := rfl
@[simp] theorem setInit_log (s : State) : (setInit s).log = s.log := rfl
@[simp] theorem setInit_data (s : State) : (setInit s).data = s.data := rfl
@[simp] theorem setInit_idBuf (s : State) : (setInit s).idBuf = s.idBuf := rfl
@[simp] theorem setInit_opnd (s : State) : (setInit s).opnd = s.opnd := rfl
@[simp] theorem setInit_lat (s : State) : (setInit s).lat = s.lat := rfl
@[simp] theorem setInit_phase (s : State) : (setInit s).phase = s.phase := rfl
@[simp] theorem setInit_txi (s : State) : (setInit s).txi = s.txi := rfl
@[simp] theorem setInit_rxi (s : State) : (setInit s).rxi = s.rxi := rfl
@[simp] theorem setInit_elapsed (s : State) : (setInit s).elapsed = s.elapsed := rfl
@[simp] theorem setInit_busy (s : State) : (setInit s).busy = s.busy := rfl
@[simp] theorem setInit_ok (s : State) : (setInit s).ok = s.ok := rfl
@[simp] theorem setInit_cause (s : State) : (setInit s).cause = s.cause := rfl
@[simp] theorem setInit_rx (s : State) : (setInit s).rx = s.rx := rfl
@[simp] theorem setInit_removed (s : State) : (setInit s).removed = s.removed := rfl
@[simp] theorem setInit_tx (s : State) : (setInit s).tx = s.tx := rfl
@[simp] theorem setInit_ready (s : State) : (setInit s).ready = s.ready := rfl
@[simp] theorem setInit_tag (s : State) : (setInit s).tag = s.tag := rfl
@[simp] theorem setInit_ee (s : State) : (setInit s).ee = s.ee := rfl
@[simp] theorem setInit_env (s : State) : (setInit s).env = s.env := rfl
@[simp] theorem setInit_draws (s : State) : (setInit s).draws = s.draws := rfl
@[simp] theorem setInit_host (s : State) : (setInit s).host = s.host := rfl
@[simp] theorem setInit_call (s : State) : (setInit s).call = s.call := rfl
@[simp] theorem setInit_results (s : State) : (setInit s).results = s.results := rfl
@[simp] theorem setInit_dataValid (s : State) : (setInit s).dataValid = s.dataValid := rfl
@[simp] theorem setInit_idValid (s : State) : (setInit s).idValid = s.idValid := rfl
@[simp] theorem setInit_okValid (s : State) : (setInit s).okValid = s.okValid := rfl
@[simp] theorem setInit_cfg (s : State) : (setInit s).cfg = s.cfg := rfl

/-! ### resetFramer -/

@[simp] theorem resetFramer_lastAck (s : State) : (resetFramer s).lastAck = State.reset.lastAck := rfl
@[simp] theorem resetFramer_tmoListen (s : State) : (resetFramer s).tmoListen = State.reset.tmoListen := rfl
@[simp] theorem resetFramer_tmoData (s : State) : (resetFramer s).tmoData = State.reset.tmoData := rfl
@[simp] theorem resetFramer_init (s : State) : (resetFramer s).init = State.reset.init := rfl
@[simp] theorem resetFramer_log (s : State) : (resetFramer s).log = State.reset.log := rfl
@[simp] theorem resetFramer_data (s : State) : (resetFramer s).data = State.reset.data := rfl
@[simp] theorem resetFramer_idBuf (s : State) : (resetFramer s).idBuf = State.reset.idBuf := rfl
@[simp] theorem resetFramer_opnd (s : State) : (resetFramer s).opnd = State.reset.opnd := rfl
@[simp] theorem resetFramer_lat (s : State) : (resetFramer s).lat = State.reset.lat := rfl
@[simp] theorem resetFramer_phase (s : State) : (resetFramer s).phase = State.reset.phase := rfl
@[simp] theorem resetFramer_txi (s : State) : (resetFramer s).txi = State.reset.txi := rfl
@[simp] theorem resetFramer_rxi (s : State) : (resetFramer s).rxi = State.reset.rxi := rfl
@[simp] theorem resetFramer_elapsed (s : State) : (resetFramer s).elapsed = State.reset.elapsed := rfl
@[simp] theorem resetFramer_busy (s : State) : (resetFramer s).busy = State.reset.busy := rfl
@[simp] theorem resetFramer_ok (s : State) : (resetFramer s).ok = State.reset.ok := rfl
@[simp] theorem resetFramer_cause (s : State) : (resetFramer s).cause = State.reset.cause := rfl
@[simp] theorem resetFramer_rx (s : State) : (resetFramer s).rx = s.rx := rfl
@[simp] theorem resetFramer_removed (s : State) : (resetFramer s).removed = s.removed := rfl
@[simp] theorem resetFramer_tx (s : State) : (resetFramer s).tx = s.tx := rfl
@[simp] theorem resetFramer_ready (s : State) : (resetFramer s).ready = s.ready := rfl
@[simp] theorem resetFramer_tag (s : State) : (resetFramer s).tag = s.tag := rfl
@[simp] theorem resetFramer_ee (s : State) : (resetFramer s).ee = s.ee := rfl
@[simp] theorem resetFramer_env (s : State) : (resetFramer s).env = s.env := rfl
@[simp] theorem resetFramer_draws (s : State) : (resetFramer s).draws = s.draws := rfl
@[simp] theorem resetFramer_host (s : State) : (resetFramer s).host = s.host := rfl
@[simp] theorem resetFramer_call (s : State) : (resetFramer s).call = s.call := rfl
@[simp] theorem resetFramer_results (s : State) : (resetFramer s).results = s.results := rfl
@[simp] theorem resetFramer_dataValid (s : State) : (resetFramer s).dataValid = State.reset.dataValid := rfl
@[simp] theorem resetFramer_idValid (s : State) : (resetFramer s).idValid = State.reset.idValid := rfl
@[simp] theorem resetFramer_okValid (s : State) : (resetFramer s).okValid = State.reset.okValid := rfl
@[simp] theorem resetFramer_cfg (s : State) : (resetFramer s).cfg = s.cfg := rfl

/-! ### deliver -/

@[simp] theorem deliver_lastAck (r : HostResult) (s : State) : (deliver r s).lastAck = s.lastAck := rfl
@[simp] theorem deliver_tmoListen (r : HostResult) (s : State) : (deliver r s).tmoListen = s.tmoListen := rfl
@[simp] theorem deliver_tmoData (r : HostResult) (s : State) : (deliver r s).tmoData = s.tmoData := rfl
@[simp] theorem deliver_init (r : HostResult) (s : State) : (deliver r s).init = s.init := rfl
@[simp] theorem deliver_log (r : HostResult) (s : State) : (deliver r s).log = s.log := rfl
@[simp] theorem deliver_data (r : HostResult) (s : State) : (deliver r s).data = s.data := rfl
@[simp] theorem deliver_idBuf (r : HostResult) (s : State) : (deliver r s).idBuf = s.idBuf := rfl
@[simp] theorem deliver_opnd (r : HostResult) (s : State) : (deliver r s).opnd = s.opnd := rfl
@[simp] theorem deliver_lat (r : HostResult) (s : State) : (deliver r s).lat = s.lat := rfl
@[simp] theorem deliver_phase (r : HostResult) (s : State) : (deliver r s).phase = s.phase := rfl
@[simp] theorem deliver_txi (r : HostResult) (s : State) : (deliver r s).txi = s.txi := rfl
@[simp] theorem deliver_rxi (r : HostResult) (s : State) : (deliver r s).rxi = s.rxi := rfl
@[simp] theorem deliver_elapsed (r : HostResult) (s : State) : (deliver r s).elapsed = s.elapsed := rfl
@[simp] theorem deliver_busy (r : HostResult) (s : State) : (deliver r s).busy = s.busy := rfl
@[simp] theorem deliver_ok (r : HostResult) (s : State) : (deliver r s).ok = s.ok := rfl
@[simp] theorem deliver_cause (r : HostResult) (s : State) : (deliver r s).cause = s.cause := rfl
@[simp] theorem deliver_rx (r : HostResult) (s : State) : (deliver r s).rx = s.rx := rfl
@[simp] theorem deliver_removed (r : HostResult) (s : State) : (deliver r s).removed = s.removed := rfl
@[simp] theorem deliver_tx (r : HostResult) (s : State) : (deliver r s).tx = s.tx := rfl
@[simp] theorem deliver_ready (r : HostResult) (s : State) : (deliver r s).ready = s.ready := rfl
@[simp] theorem deliver_tag (r : HostResult) (s : State) : (deliver r s).tag = s.tag := rfl
@[simp] theorem deliver_ee (r : HostResult) (s : State) : (deliver r s).ee = s.ee := rfl
@[simp] theorem deliver_env (r : HostResult) (s : State) : (deliver r s).env = s.env := rfl
@[simp] theorem deliver_draws (r : HostResult) (s : State) : (deliver r s).draws = s.draws := rfl
@[simp] theorem deliver_host (r : HostResult) (s : State) : (deliver r s).host = s.host := rfl
@[simp] theorem deliver_call (r : HostResult) (s : State) : (deliver r s).call = none := rfl
@[simp] theorem deliver_results (r : HostResult) (s : State) : (deliver r s).results = s.results ++ [r] := rfl
@[simp] theorem deliver_dataValid (r : HostResult) (s : State) : (deliver r s).dataValid = s.dataValid := rfl
@[simp] theorem deliver_idValid (r : HostResult) (s : State) : (deliver r s).idValid = s.idValid := rfl
@[simp] theorem deliver_okValid (r : HostResult) (s : State) : (deliver r s).okValid = s.okValid := rfl
@[simp] theorem deliver_cfg (r : HostResult) (s : State) : (deliver r s).cfg = s.cfg := rfl

/-! ### toTransmit -/

@[simp] theorem toTransmit_lastAck (s : State) : (toTransmit s).lastAck = s.lastAck := rfl
@[simp] theorem toTransmit_tmoListen (s : State) : (toTransmit s).tmoListen = s.tmoListen := rfl
@[simp] theorem toTransmit_tmoData (s : State) : (toTransmit s).tmoData = s.tmoData := rfl
@[simp] theorem toTransmit_init (s : State) : (toTransmit s).init = s.init := rfl
@[simp] theorem toTransmit_log (s : State) : (toTransmit s).log = s.log := rfl
@[simp] theorem toTransmit_data (s : State) : (toTransmit s).data = s.data := rfl
@[simp] theorem toTransmit_idBuf (s : State) : (toTransmit s).idBuf = s.idBuf := rfl
@[simp] theorem toTransmit_opnd (s : State) : (toTransmit s).opnd = s.opnd := rfl
@[simp] theorem toTransmit_lat (s : State) : (toTransmit s).lat = s.lat := rfl
@[simp] theorem toTransmit_phase (s : State) : (toTransmit s).phase = .tx := rfl
@[simp] theorem toTransmit_txi (s : State) : (toTransmit s).txi = 0 := rfl
@[simp] theorem toTransmit_rxi (s : State) : (toTransmit s).rxi = s.rxi := rfl
@[simp] theorem toTransmit_elapsed (s : State) : (toTransmit s).elapsed = s.elapsed := rfl
@[simp] theorem toTransmit_busy (s : State) : (toTransmit s).busy = s.busy := rfl
@[simp] theorem toTransmit_ok (s : State) : (toTransmit s).ok = s.ok := rfl
@[simp] theorem toTransmit_cause (s : State) : (toTransmit s).cause = s.cause := rfl
@[simp] theorem toTransmit_rx (s : State) : (toTransmit s).rx = s.rx := rfl
@[simp] theorem toTransmit_removed (s : State) : (toTransmit s).removed = s.removed := rfl
@[simp] theorem toTransmit_tx (s : State) : (toTransmit s).tx = s.tx := rfl
@[simp] theorem toTransmit_ready (s : State) : (toTransmit s).ready = s.ready := rfl
@[simp] theorem toTransmit_tag (s : State) : (toTransmit s).tag = s.tag := rfl
@[simp] theorem toTransmit_ee (s : State) : (toTransmit s).ee = s.ee := rfl
@[simp] theorem toTransmit_env (s : State) : (toTransmit s).env = s.env := rfl
@[simp] theorem toTransmit_draws (s : State) : (toTransmit s).draws = s.draws := rfl
@[simp] theorem toTransmit_host (s : State) : (toTransmit s).host = s.host := rfl
@[simp] theorem toTransmit_call (s : State) : (toTransmit s).call = s.call := rfl
@[simp] theorem toTransmit_results (s : State) : (toTransmit s).results = s.results := rfl
@[simp] theorem toTransmit_dataValid (s : State) : (toTransmit s).dataValid = s.dataValid := rfl
@[simp] theorem toTransmit_idValid (s : State) : (toTransmit s).idValid = s.idValid := rfl
@[simp] theorem toTransmit_okValid (s : State) : (toTransmit s).okValid = s.okValid := rfl
@[simp] theorem toTransmit_cfg (s : State) : (toTransmit s).cfg = s.cfg := rfl

/-! ### toPayload -/

@[simp] theorem toPayload_lastAck (s : State) : (toPayload s).lastAck = s.lastAck := rfl
@[simp] theorem toPayload_tmoListen (s : State) : (toPayload s).tmoListen = s.tmoListen := rfl
@[simp] theorem toPayload_tmoData (s : State) : (toPayload s).tmoData = s.tmoData := rfl
@[simp] theorem toPayload_init (s : State) : (toPayload s).init = s.init := rfl
@[simp] theorem toPayload_log (s : State) : (toPayload s).log = s.log := rfl
@[simp] theorem toPayload_data (s : State) : (toPayload s).data = s.data := rfl
@[simp] theorem toPayload_idBuf (s : State) : (toPayload s).idBuf = s.idBuf := rfl
@[simp] theorem toPayload_opnd (s : State) : (toPayload s).opnd = s.opnd := rfl
@[simp] theorem toPayload_lat (s : State) : (toPayload s).lat = s.lat := rfl
@[simp] theorem toPayload_phase (s : State) : (toPayload s).phase = .wp := rfl
@[simp] theorem toPayload_txi (s : State) : (toPayload s).txi = s.txi := rfl
@[simp] theorem toPayload_rxi (s : State) : (toPayload s).rxi = 0 := rfl
@[simp] theorem toPayload_elapsed (s : State) : (toPayload s).elapsed = 0 := rfl
@[simp] theorem toPayload_busy (s : State) : (toPayload s).busy = s.busy := rfl
@[simp] theorem toPayload_ok (s : State) : (toPayload s).ok = s.ok := rfl
@[simp] theorem toPayload_cause (s : State) : (toPayload s).cause = s.cause := rfl
@[simp] theorem toPayload_rx (s : State) : (toPayload s).rx = s.rx := rfl
@[simp] theorem toPayload_removed (s : State) : (toPayload s).removed = s.removed := rfl
@[simp] theorem toPayload_tx (s : State) : (toPayload s).tx = s.tx := rfl
@[simp] theorem toPayload_ready (s : State) : (toPayload s).ready = s.ready := rfl
@[simp] theorem toPayload_tag (s : State) : (toPayload s).tag = s.tag := rfl
@[simp] theorem toPayload_ee (s : State) : (toPayload s).ee = s.ee := rfl
@[simp] theorem toPayload_env (s : State) : (toPayload s).env = s.env := rfl
@[simp] theorem toPayload_draws (s : State) : (toPayload s).draws = s.draws := rfl
@[simp] theorem toPayload_host (s : State) : (toPayload s).host = s.host := rfl
@[simp] theorem toPayload_call (s : State) : (toPayload s).call = s.call := rfl
@[simp] theorem toPayload_results (s : State) : (toPayload s).results = s.results := rfl
@[simp] theorem toPayload_dataValid (s : State) : (toPayload s).dataValid = s.dataValid := rfl
@[simp] theorem toPayload_idValid (s : State) : (toPayload s).idValid = s.idValid := rfl
@[simp] theorem toPayload_okValid (s : State) : (toPayload s).okValid = s.okValid := rfl
@[simp] theorem toPayload_cfg (s : State) : (toPayload s).cfg = s.cfg := rfl

/-! ### sentByte -/

@[simp] theorem sentByte_lastAck (b : Byte) (s : State) : (sentByte b s).lastAck = s.lastAck := rfl
@[simp] theorem sentByte_tmoListen (b : Byte) (s : State) : (sentByte b s).tmoListen = s.tmoListen := rfl
@[simp] theorem sentByte_tmoData (b : Byte) (s : State) : (sentByte b s).tmoData = s.tmoData := rfl
@[simp] theorem sentByte_init (b : Byte) (s : State) : (sentByte b s).init = s.init := rfl
@[simp] theorem sentByte_log (b : Byte) (s : State) : (sentByte b s).log = s.log := rfl
@[simp] theorem sentByte_data (b : Byte) (s : State) : (sentByte b s).data = s.data := rfl
@[simp] theorem sentByte_idBuf (b : Byte) (s : State) : (sentByte b s).idBuf = s.idBuf := rfl
@[simp] theorem sentByte_opnd (b : Byte) (s : State) : (sentByte b s).opnd = s.opnd := rfl
@[simp] theorem sentByte_lat (b : Byte) (s : State) : (sentByte b s).lat = s.lat := rfl
@[simp] theorem sentByte_phase (b : Byte) (s : State) : (sentByte b s).phase = s.phase := rfl
@[simp] theorem sentByte_txi (b : Byte) (s : State) : (sentByte b s).txi = s.txi + 1 := rfl
@[simp] theorem sentByte_rxi (b : Byte) (s : State) : (sentByte b s).rxi = s.rxi := rfl
@[simp] theorem sentByte_elapsed (b : Byte) (s : State) : (sentByte b s).elapsed = s.elapsed := rfl
@[simp] theorem sentByte_busy (b : Byte) (s : State) : (sentByte b s).busy = s.busy := rfl
@[simp] theorem sentByte_ok (b : Byte) (s : State) : (sentByte b s).ok = s.ok := rfl
@[simp] theorem sentByte_cause (b : Byte) (s : State) : (sentByte b s).cause = s.cause := rfl
@[simp] theorem sentByte_rx (b : Byte) (s : State) : (sentByte b s).rx = s.rx := rfl
@[simp] theorem sentByte_removed (b : Byte) (s : State) : (sentByte b s).removed = s.removed := rfl
@[simp] theorem sentByte_tx (b : Byte) (s : State) : (sentByte b s).tx = s.tx ++ [b] := rfl
@[simp] theorem sentByte_ready (b : Byte) (s : State) : (sentByte b s).ready = s.ready := rfl
@[simp] theorem sentByte_tag (b : Byte) (s : State) : (sentByte b s).tag = s.tag := rfl
@[simp] theorem sentByte_ee (b : Byte) (s : State) : (sentByte b s).ee = s.ee := rfl
@[simp] theorem sentByte_env (b : Byte) (s : State) : (sentByte b s).env = s.env := rfl
@[simp] theorem sentByte_draws (b : Byte) (s : State) : (sentByte b s).draws = s.draws := rfl
@[simp] theorem sentByte_host (b : Byte) (s : State) : (sentByte b s).host = s.host := rfl
@[simp] theorem sentByte_call (b : Byte) (s : State) : (sentByte b s).call = s.call := rfl
@[simp] theorem sentByte_results (b : Byte) (s : State) : (sentByte b s).results = s.results := rfl
@[simp] theorem sentByte_dataValid (b : Byte) (s : State) : (sentByte b s).dataValid = s.dataValid := rfl
@[simp] theorem sentByte_idValid (b : Byte) (s : State) : (sentByte b s).idValid = s.idValid := rfl
@[simp] theorem sentByte_okValid (b : Byte) (s : State) : (sentByte b s).okValid = s.okValid := rfl
@[simp] theorem sentByte_cfg (b : Byte) (s : State) : (sentByte b s).cfg = s.cfg := rfl

/-! ### storeAck -/

@[simp] theorem storeAck_lastAck (r : Byte) (s : State) : (storeAck r s).lastAck = r := rfl
@[simp] theorem storeAck_tmoListen (r : Byte) (s : State) : (storeAck r s).tmoListen = s.tmoListen := rfl
@[simp] theorem storeAck_tmoData (r : Byte) (s : State) : (storeAck r s).tmoData = s.tmoData := rfl
@[simp] theorem storeAck_init (r : Byte) (s : State) : (storeAck r s).init = s.init := rfl
@[simp] theorem storeAck_log (r : Byte) (s : State) : (storeAck r s).log = s.log := rfl
@[simp] theorem storeAck_data (r : Byte) (s : State) : (storeAck r s).data = s.data := rfl
@[simp] theorem storeAck_idBuf (r : Byte) (s : State) : (storeAck r s).idBuf = s.idBuf := rfl
@[simp] theorem storeAck_opnd (r : Byte) (s : State) : (storeAck r s).opnd = s.opnd := rfl
@[simp] theorem storeAck_lat (r : Byte) (s : State) : (storeAck r s).lat = s.lat := rfl
@[simp] theorem storeAck_phase (r : Byte) (s : State) : (storeAck r s).phase = s.phase := rfl
@[simp] theorem storeAck_txi (r : Byte) (s : State) : (storeAck r s).txi = s.txi := rfl
@[simp] theorem storeAck_rxi (r : Byte) (s : State) : (storeAck r s).rxi = s.rxi := rfl
@[simp] theorem storeAck_elapsed (r : Byte) (s : State) : (storeAck r s).elapsed = s.elapsed := rfl
@[simp] theorem storeAck_busy (r : Byte) (s : State) : (storeAck r s).busy = s.busy := rfl
@[simp] theorem storeAck_ok (r : Byte) (s : State) : (storeAck r s).ok = s.ok := rfl
@[simp] theorem storeAck_cause (r : Byte) (s : State) : (storeAck r s).cause = s.cause := rfl
@[simp] theorem storeAck_rx (r : Byte) (s : State) : (storeAck r s).rx = s.rx := rfl
@[simp] theorem storeAck_removed (r : Byte) (s : State) : (storeAck r s).removed = s.removed := rfl
@[simp] theorem storeAck_tx (r : Byte) (s : State) : (storeAck r s).tx = s.tx := rfl
@[simp] theorem storeAck_ready (r : Byte) (s : State) : (storeAck r s).ready = s.ready := rfl
@[simp] theorem storeAck_tag (r : Byte) (s : State) : (storeAck r s).tag = s.tag := rfl
@[simp] theorem storeAck_ee (r : Byte) (s : State) : (storeAck r s).ee = s.ee := rfl
@[simp] theorem storeAck_env (r : Byte) (s : State) : (storeAck r s).env = s.env := rfl
@[simp] theorem storeAck_draws (r : Byte) (s : State) : (storeAck r s).draws = s.draws := rfl
@[simp] theorem storeAck_host (r : Byte) (s : State) : (storeAck r s).host = s.host := rfl
@[simp] theorem storeAck_call (r : Byte) (s : State) : (storeAck r s).call = s.call := rfl
@[simp] theorem storeAck_results (r : Byte) (s : State) : (storeAck r s).results = s.results := rfl
@[simp] theorem storeAck_dataValid (r : Byte) (s : State) : (storeAck r s).dataValid = s.dataValid := rfl
@[simp] theorem storeAck_idValid (r : Byte) (s : State) : (storeAck r s).idValid = s.idValid := rfl
@[simp] theorem storeAck_okValid (r : Byte) (s : State) : (storeAck r s).okValid = s.okValid := rfl
@[simp] theorem storeAck_cfg (r : Byte) (s : State) : (storeAck r s).cfg = s.cfg := rfl

/-! ### storedPayload -/

@[simp] theorem storedPayload_lastAck (d : DataRegs) (s : State) : (storedPayload d s).lastAck = s.lastAck := rfl
@[simp] theorem storedPayload_tmoListen (d : DataRegs) (s : State) : (storedPayload d s).tmoListen = s.tmoListen := rfl
@[simp] theorem storedPayload_tmoData (d : DataRegs) (s : State) : (storedPayload d s).tmoData = s.tmoData := rfl
@[simp] theorem storedPayload_init (d : DataRegs) (s : State) : (storedPayload d s).init = s.init := rfl
@[simp] theorem storedPayload_log (d : DataRegs) (s : State) : (storedPayload d s).log = s.log := rfl
@[simp] theorem storedPayload_data (d : DataRegs) (s : State) : (storedPayload d s).data = d := rfl
@[simp] theorem storedPayload_idBuf (d : DataRegs) (s : State) : (storedPayload d s).idBuf = s.idBuf := rfl
@[simp] theorem storedPayload_opnd (d : DataRegs) (s : State) : (storedPayload d s).opnd = s.opnd := rfl
@[simp] theorem storedPayload_lat (d : DataRegs) (s : State) : (storedPayload d s).lat = s.lat := rfl
@[simp] theorem storedPayload_phase (d : DataRegs) (s : State) : (storedPayload d s).phase = s.phase := rfl
@[simp] theorem storedPayload_txi (d : DataRegs) (s : State) : (storedPayload d s).txi = s.txi := rfl
@[simp] theorem storedPayload_rxi (d : DataRegs) (s : State) : (storedPayload d s).rxi = s.rxi + 1 := rfl
@[simp] theorem storedPayload_elapsed (d : DataRegs) (s : State) : (storedPayload d s).elapsed = s.elapsed := rfl
@[simp] theorem storedPayload_busy (d : DataRegs) (s : State) : (storedPayload d s).busy = s.busy := rfl
@[simp] theorem storedPayload_ok (d : DataRegs) (s : State) : (storedPayload d s).ok = s.ok := rfl
@[simp] theorem storedPayload_cause (d : DataRegs) (s : State) : (storedPayload d s).cause = s.cause := rfl
@[simp] theorem storedPayload_rx (d : DataRegs) (s : State) : (storedPayload d s).rx = s.rx := rfl
@[simp] theorem storedPayload_removed (d : DataRegs) (s : State) : (storedPayload d s).removed = s.removed := rfl
@[simp] theorem storedPayload_tx (d : DataRegs) (s : State) : (storedPayload d s).tx = s.tx := rfl
@[simp] theorem storedPayload_ready (d : DataRegs) (s : State) : (storedPayload d s).ready = s.ready := rfl
@[simp] theorem storedPayload_tag (d : DataRegs) (s : State) : (storedPayload d s).tag = s.tag := rfl
@[simp] theorem storedPayload_ee (d : DataRegs) (s : State) : (storedPayload d s).ee = s.ee := rfl
@[simp] theorem storedPayload_env (d : DataRegs) (s : State) : (storedPayload d s).env = s.env := rfl
@[simp] theorem storedPayload_draws (d : DataRegs) (s : State) : (storedPayload d s).draws = s.draws := rfl
@[simp] theorem storedPayload_host (d : DataRegs) (s : State) : (storedPayload d s).host = s.host := rfl
@[simp] theorem storedPayload_call (d : DataRegs) (s : State) : (storedPayload d s).call = s.call := rfl
@[simp] theorem storedPayload_results (d : DataRegs) (s : State) : (storedPayload d s).results = s.results := rfl
@[simp] theorem storedPayload_dataValid (d : DataRegs) (s : State) : (storedPayload d s).dataValid = s.dataValid := rfl
@[simp] theorem storedPayload_idValid (d : DataRegs) (s : State) : (storedPayload d s).idValid = s.idValid := rfl
@[simp] theorem storedPayload_okValid (d : DataRegs) (s : State) : (storedPayload d s).okValid = s.okValid := rfl
@[simp] theorem storedPayload_cfg (d : DataRegs) (s : State) : (storedPayload d s).cfg = s.cfg := rfl

/-! ### storeIdent -/

@[simp] theorem storeIdent_lastAck (r : Byte) (s : State) : (storeIdent r s).lastAck = s.lastAck := rfl
@[simp] theorem storeIdent_tmoListen (r : Byte) (s : State) : (storeIdent r s).tmoListen = s.tmoListen := rfl
@[simp] theorem storeIdent_tmoData (r : Byte) (s : State) : (storeIdent r s).tmoData = s.tmoData := rfl
@[simp] theorem storeIdent_init (r : Byte) (s : State) : (storeIdent r s).init = s.init := rfl
@[simp] theorem storeIdent_log (r : Byte) (s : State) : (storeIdent r s).log = s.log := rfl
@[simp] theorem storeIdent_data (r : Byte) (s : State) : (storeIdent r s).data = s.data := rfl
@[simp] theorem storeIdent_idBuf (r : Byte) (s : State) : (storeIdent r s).idBuf = s.idBuf ++ [r] := rfl
@[simp] theorem storeIdent_opnd (r : Byte) (s : State) : (storeIdent r s).opnd = s.opnd := rfl
@[simp] theorem storeIdent_lat (r : Byte) (s : State) : (storeIdent r s).lat = s.lat := rfl
@[simp] theorem storeIdent_phase (r : Byte) (s : State) : (storeIdent r s).phase = s.phase := rfl
@[simp] theorem storeIdent_txi (r : Byte) (s : State) : (storeIdent r s).txi = s.txi := rfl
@[simp] theorem storeIdent_rxi (r : Byte) (s : State) : (storeIdent r s).rxi = s.rxi := rfl
@[simp] theorem storeIdent_elapsed (r : Byte) (s : State) : (storeIdent r s).elapsed = s.elapsed := rfl
@[simp] theorem storeIdent_busy (r : Byte) (s : State) : (storeIdent r s).busy = s.busy := rfl
@[simp] theorem storeIdent_ok (r : Byte) (s : State) : (storeIdent r s).ok = s.ok := rfl
@[simp] theorem storeIdent_cause (r : Byte) (s : State) : (storeIdent r s).cause = s.cause := rfl
@[simp] theorem storeIdent_rx (r : Byte) (s : State) : (storeIdent r s).rx = s.rx := rfl
@[simp] theorem storeIdent_removed (r : Byte) (s : State) : (storeIdent r s).removed = s.removed := rfl
@[simp] theorem storeIdent_tx (r : Byte) (s : State) : (storeIdent r s).tx = s.tx := rfl
@[simp] theorem storeIdent_ready (r : Byte) (s : State) : (storeIdent r s).ready = s.ready := rfl
@[simp] theorem storeIdent_tag (r : Byte) (s : State) : (storeIdent r s).tag = s.tag := rfl
@[simp] theorem storeIdent_ee (r : Byte) (s : State) : (storeIdent r s).ee = s.ee := rfl
@[simp] theorem storeIdent_env (r : Byte) (s : State) : (storeIdent r s).env = s.env := rfl
@[simp] theorem storeIdent_draws (r : Byte) (s : State) : (storeIdent r s).draws = s.draws := rfl
@[simp] theorem storeIdent_host (r : Byte) (s : State) : (storeIdent r s).host = s.host := rfl
@[simp] theorem storeIdent_call (r : Byte) (s : State) : (storeIdent r s).call = s.call := rfl
@[simp] theorem storeIdent_results (r : Byte) (s : State) : (storeIdent r s).results = s.results := rfl
@[simp] theorem storeIdent_dataValid (r : Byte) (s : State) : (storeIdent r s).dataValid = s.dataValid := rfl
@[simp] theorem storeIdent_idValid (r : Byte) (s : State) : (storeIdent r s).idValid = s.idValid := rfl
@[simp] theorem storeIdent_okValid (r : Byte) (s : State) : (storeIdent r s).okValid = s.okValid := rfl
@[simp] theorem storeIdent_cfg (r : Byte) (s : State) : (storeIdent r s).cfg = s.cfg := rfl

/-! ### latch -/

@[simp] theorem latch_lastAck (pm : PayloadMode) (s : State) : (latch pm s).lastAck = s.lastAck := rfl
@[simp] theorem latch_tmoListen (pm : PayloadMode) (s : State) : (latch pm s).tmoListen = s.tmoListen := rfl
@[simp] theorem latch_tmoData (pm : PayloadMode) (s : State) : (latch pm s).tmoData = s.tmoData := rfl
@[simp] theorem latch_init (pm : PayloadMode) (s : State) : (latch pm s).init = s.init := rfl
@[simp] theorem latch_log (pm : PayloadMode) (s : State) : (latch pm s).log = s.log := rfl
@[simp] theorem latch_data (pm : PayloadMode) (s : State) : (latch pm s).data = s.data := rfl
@[simp] theorem latch_idBuf (pm : PayloadMode) (s : State) : (latch pm s).idBuf = if pm = .drain then [] else s.idBuf := rfl
@[simp] theorem latch_opnd (pm : PayloadMode) (s : State) : (latch pm s).opnd = s.opnd := rfl
@[simp] theorem latch_lat (pm : PayloadMode) (s : State) : (latch pm s).lat = latchOperands s.opnd pm s.tmoListen s.tmoData := rfl
@[simp] theorem latch_phase (pm : PayloadMode) (s : State) : (latch pm s).phase = s.phase := rfl
@[simp] theorem latch_txi (pm : PayloadMode) (s : State) : (latch pm s).txi = s.txi := rfl
@[simp] theorem latch_rxi (pm : PayloadMode) (s : State) : (latch pm s).rxi = s.rxi := rfl
@[simp] theorem latch_elapsed (pm : PayloadMode) (s : State) : (latch pm s).elapsed = s.elapsed := rfl
@[simp] theorem latch_busy (pm : PayloadMode) (s : State) : (latch pm s).busy = true := rfl
@[simp] theorem latch_ok (pm : PayloadMode) (s : State) : (latch pm s).ok = s.ok := rfl
@[simp] theorem latch_cause (pm : PayloadMode) (s : State) : (latch pm s).cause = s.cause := rfl
@[simp] theorem latch_rx (pm : PayloadMode) (s : State) : (latch pm s).rx = s.rx := rfl
@[simp] theorem latch_removed (pm : PayloadMode) (s : State) : (latch pm s).removed = s.removed := rfl
@[simp] theorem latch_tx (pm : PayloadMode) (s : State) : (latch pm s).tx = s.tx := rfl
@[simp] theorem latch_ready (pm : PayloadMode) (s : State) : (latch pm s).ready = s.ready := rfl
@[simp] theorem latch_tag (pm : PayloadMode) (s : State) : (latch pm s).tag = s.tag := rfl
@[simp] theorem latch_ee (pm : PayloadMode) (s : State) : (latch pm s).ee = s.ee := rfl
@[simp] theorem latch_env (pm : PayloadMode) (s : State) : (latch pm s).env = s.env := rfl
@[simp] theorem latch_draws (pm : PayloadMode) (s : State) : (latch pm s).draws = s.draws := rfl
@[simp] theorem latch_host (pm : PayloadMode) (s : State) : (latch pm s).host = s.host := rfl
@[simp] theorem latch_call (pm : PayloadMode) (s : State) : (latch pm s).call = s.call := rfl
@[simp] theorem latch_results (pm : PayloadMode) (s : State) : (latch pm s).results = s.results := rfl
@[simp] theorem latch_dataValid (pm : PayloadMode) (s : State) : (latch pm s).dataValid = s.dataValid := rfl
@[simp] theorem latch_idValid (pm : PayloadMode) (s : State) : (latch pm s).idValid = s.idValid := rfl
@[simp] theorem latch_okValid (pm : PayloadMode) (s : State) : (latch pm s).okValid = s.okValid := rfl
@[simp] theorem latch_cfg (pm : PayloadMode) (s : State) : (latch pm s).cfg = s.cfg := rfl

end Sys2Proof.Machine
end

