-- ==== Sys2Proof/Laws/Ops.lean ====
section
/-! SUPPORT. What each named operation can do, said once: the device's memories, the parts of a step, one poll of a wait, and
the environment's moves. -/

namespace Sys2Proof.Machine

/-! ### The parts of a step -/

@[simp] theorem andThen_next (s : State) (k : State → Result) : andThen (.next s) k = k s := rfl
@[simp] theorem andThen_fault (f : Fault) (k : State → Result) : andThen (.fault f) k = .fault f := rfl
@[simp] theorem andThen_refused (r : Refusal) (k : State → Result) : andThen (.refused r) k = .refused r := rfl

/-- A part after another ends in a next state only through a next state of the first. -/
theorem andThen_eq_next {r : Result} {k : State → Result} {t : State} :
    andThen r k = .next t ↔ ∃ u, r = .next u ∧ k u = .next t := by
  cases r <;> simp

@[simp] theorem mapNext_next (f : State → State) (s : State) : mapNext f (.next s) = .next (f s) := rfl
@[simp] theorem mapNext_fault (f : State → State) (x : Fault) : mapNext f (.fault x) = .fault x := rfl
@[simp] theorem mapNext_refused (f : State → State) (x : Refusal) : mapNext f (.refused x) = .refused x := rfl

/-- Running on from a mapped result is running on and mapping, where the two continuations agree. -/
theorem andThen_mapNext {r : Result} {f g : State → State} {k k' : State → Result}
    (h : ∀ u, r = .next u → k' (f u) = mapNext g (k u)) : andThen (mapNext f r) k' = mapNext g (andThen r k) := by
  cases r with
  | next u => exact h u rfl
  | fault x => rfl
  | refused x => rfl

/-! ### The device's memories -/

/-- A byte that has been written is read back. -/
theorem memRead_memWrite_same (m : List Host.Cell) (a : Nat) (v : Byte) : memRead (memWrite m a v) a = some v := by
  induction m with
  | nil => simp [memWrite, memRead]
  | cons c m ih =>
    obtain ⟨b, w⟩ := c
    simp only [memWrite]
    split_ifs with h1 h2 <;> simp_all [memRead]

/-- A write leaves every other byte alone. -/
theorem memRead_memWrite_other (m : List Host.Cell) (a b : Nat) (v : Byte) (h : b ≠ a) :
    memRead (memWrite m a v) b = memRead m b := by
  induction m with
  | nil => simp [memWrite, memRead, h]
  | cons c m ih =>
    obtain ⟨d, w⟩ := c
    simp only [memWrite]
    split_ifs with h1 h2
    · simp [memRead, h]
    · subst h2; simp [memRead, h]
    · simp [memRead, ih]

theorem mem_memWrite {m : List Host.Cell} {a : Nat} {v : Byte} {c : Host.Cell} (h : c ∈ memWrite m a v) :
    c = (a, v) ∨ c ∈ m := by
  induction m with
  | nil => simpa [memWrite] using h
  | cons d m ih =>
    obtain ⟨b, w⟩ := d
    simp only [memWrite] at h
    split_ifs at h with h1 h2
    · simpa using h
    · simp only [List.mem_cons] at h ⊢
      tauto
    · simp only [List.mem_cons] at h ⊢
      rcases h with h | h
      · tauto
      · have := ih h
        tauto

/-- A write inside the space keeps the canonical form. -/
theorem memWf_memWrite {size : Nat} {m : List Host.Cell} {a : Nat} (v : Byte) (hm : memWf size m) (ha : a < size) :
    memWf size (memWrite m a v) := by
  obtain ⟨hp, hs⟩ := hm
  refine ⟨?_, fun c hc => ?_⟩
  · clear hs ha
    induction m with
    | nil => simp [memWrite]
    | cons d m ih =>
      obtain ⟨b, w⟩ := d
      rw [List.pairwise_cons] at hp
      simp only [memWrite]
      split_ifs with h1 h2
      · refine List.pairwise_cons.2 ⟨fun c hc => ?_, List.pairwise_cons.2 hp⟩
        rcases List.mem_cons.1 hc with rfl | hc
        · exact h1
        · exact lt_trans h1 (hp.1 c hc)
      · subst h2
        exact List.pairwise_cons.2 ⟨fun c hc => hp.1 c hc, hp.2⟩
      · refine List.pairwise_cons.2 ⟨fun c hc => ?_, ih hp.2⟩
        rcases mem_memWrite hc with rfl | hc
        · show b < a
          omega
        · exact hp.1 c hc
  · rcases mem_memWrite hc with rfl | hc
    · exact ha
    · exact hs c hc

theorem tagAddress_lt (page : BitVec 3) (j : BitVec 2) : tagAddress page j < tagSize := by
  simp only [tagAddress, tagSize]
  have h1 := page.isLt
  have h2 := j.isLt
  omega

/-- What the device stores keeps the canonical form of `TAG`. -/
theorem memWf_storeTag {ds : List DevStore} {m : List Host.Cell} (h : memWf tagSize m) : memWf tagSize (storeTag ds m) := by
  induction ds generalizing m with
  | nil => exact h
  | cons d ds ih =>
    cases d with
    | tag page j v => exact ih (memWf_memWrite v h (tagAddress_lt page j))
    | ee a v => exact ih h

/-- What the device stores keeps the canonical form of `EE`. -/
theorem memWf_storeEe {ds : List DevStore} {m : List Host.Cell} (h : memWf eeSize m) : memWf eeSize (storeEe ds m) := by
  induction ds generalizing m with
  | nil => exact h
  | cons d ds ih =>
    cases d with
    | tag page j v => exact ih h
    | ee a v => exact ih (memWf_memWrite v h a.isLt)

/-- A byte of `TAG` that no store names reads as before. -/
theorem memRead_storeTag {ds : List DevStore} {m : List Host.Cell} {a : Nat}
    (h : ∀ d ∈ ds, ∀ page j v, d = .tag page j v → tagAddress page j ≠ a) : memRead (storeTag ds m) a = memRead m a := by
  induction ds generalizing m with
  | nil => rfl
  | cons d ds ih =>
    have hd := h d (by simp)
    have ht := fun x hx => h x (List.mem_cons_of_mem _ hx)
    cases d with
    | tag page j v =>
      rw [storeTag, ih ht]
      exact memRead_memWrite_other m _ a v (Ne.symm (hd page j v rfl))
    | ee b v => exact ih ht

/-- A byte of `EE` that no store names reads as before. -/
theorem memRead_storeEe {ds : List DevStore} {m : List Host.Cell} {a : Nat}
    (h : ∀ d ∈ ds, ∀ b v, d = .ee b v → b.toNat ≠ a) : memRead (storeEe ds m) a = memRead m a := by
  induction ds generalizing m with
  | nil => rfl
  | cons d ds ih =>
    have hd := h d (by simp)
    have ht := fun x hx => h x (List.mem_cons_of_mem _ hx)
    cases d with
    | tag page j v => exact ih ht
    | ee b v =>
      rw [storeEe, ih ht]
      exact memRead_memWrite_other m _ a v (Ne.symm (hd b v rfl))

/-! ### Reset -/

/-- The memories of the reset state are in canonical form. -/
theorem reset_memWf : memWf tagSize State.reset.tag ∧ memWf eeSize State.reset.ee := by
  decide

/-! ### The environment's moves -/

@[simp] theorem setEnv_setEnv (a b : List EnvMove) (s : State) : setEnv a (setEnv b s) = setEnv a s := rfl
@[simp] theorem setEnv_self (s : State) : setEnv s.env s = s := rfl
theorem applyMove_setEnv (m : EnvMove) (e : List EnvMove) (s : State) :
    applyMove m (setEnv e s) = setEnv e (applyMove m s) := rfl

theorem envTurn_listed {s : State} {m : EnvMove} {ms : List EnvMove} (h : s.env = m :: ms) :
    envTurn s = applyMove m (setEnv ms s) := by
  simp [envTurn, nextMove, h]

/-- A turn of the environment is some move, whatever is listed. -/
theorem envTurn_cases (s : State) : ∃ m e d, envTurn s = applyMove m { s with env := e, draws := d } := by
  cases h : s.env with
  | nil => exact ⟨Config.envMove s.draws, [], s.draws + 1, by simp [envTurn, nextMove, draw, h]⟩
  | cons m ms => exact ⟨m, ms, s.draws, by simp [envTurn, nextMove, h, setEnv]⟩

@[simp] theorem afterMoves_nil (s : State) : afterMoves [] s = s := rfl
@[simp] theorem afterMoves_cons (m : EnvMove) (ms : List EnvMove) (s : State) :
    afterMoves (m :: ms) s = afterMoves ms (applyMove m s) := rfl
theorem afterMoves_append (ms ns : List EnvMove) (s : State) :
    afterMoves (ms ++ ns) s = afterMoves ns (afterMoves ms s) := by
  simp [afterMoves]

/-- A list of the environment's moves changes the receive queue, the line and the device's memories, and nothing else. -/
theorem afterMoves_eq (ms : List EnvMove) (s : State) :
    afterMoves ms s = { s with rx := s.rx ++ arrived ms, ready := (afterMoves ms s).ready,
                               tag := (afterMoves ms s).tag, ee := (afterMoves ms s).ee } := by
  induction ms generalizing s with
  | nil => simp [arrived]
  | cons m ms ih =>
    rw [afterMoves_cons, ih]
    simp [applyMove, arrived]

@[simp] theorem afterMoves_lastAck (ms : List EnvMove) (s : State) : (afterMoves ms s).lastAck = s.lastAck := by rw [afterMoves_eq]
@[simp] theorem afterMoves_tmoListen (ms : List EnvMove) (s : State) : (afterMoves ms s).tmoListen = s.tmoListen := by rw [afterMoves_eq]
@[simp] theorem afterMoves_tmoData (ms : List EnvMove) (s : State) : (afterMoves ms s).tmoData = s.tmoData := by rw [afterMoves_eq]
@[simp] theorem afterMoves_init (ms : List EnvMove) (s : State) : (afterMoves ms s).init = s.init := by rw [afterMoves_eq]
@[simp] theorem afterMoves_log (ms : List EnvMove) (s : State) : (afterMoves ms s).log = s.log := by rw [afterMoves_eq]
@[simp] theorem afterMoves_data (ms : List EnvMove) (s : State) : (afterMoves ms s).data = s.data := by rw [afterMoves_eq]
@[simp] theorem afterMoves_idBuf (ms : List EnvMove) (s : State) : (afterMoves ms s).idBuf = s.idBuf := by rw [afterMoves_eq]
@[simp] theorem afterMoves_opnd (ms : List EnvMove) (s : State) : (afterMoves ms s).opnd = s.opnd := by rw [afterMoves_eq]
@[simp] theorem afterMoves_lat (ms : List EnvMove) (s : State) : (afterMoves ms s).lat = s.lat := by rw [afterMoves_eq]
@[simp] theorem afterMoves_phase (ms : List EnvMove) (s : State) : (afterMoves ms s).phase = s.phase := by rw [afterMoves_eq]
@[simp] theorem afterMoves_txi (ms : List EnvMove) (s : State) : (afterMoves ms s).txi = s.txi := by rw [afterMoves_eq]
@[simp] theorem afterMoves_rxi (ms : List EnvMove) (s : State) : (afterMoves ms s).rxi = s.rxi := by rw [afterMoves_eq]
@[simp] theorem afterMoves_elapsed (ms : List EnvMove) (s : State) : (afterMoves ms s).elapsed = s.elapsed := by rw [afterMoves_eq]
@[simp] theorem afterMoves_busy (ms : List EnvMove) (s : State) : (afterMoves ms s).busy = s.busy := by rw [afterMoves_eq]
@[simp] theorem afterMoves_ok (ms : List EnvMove) (s : State) : (afterMoves ms s).ok = s.ok := by rw [afterMoves_eq]
@[simp] theorem afterMoves_cause (ms : List EnvMove) (s : State) : (afterMoves ms s).cause = s.cause := by rw [afterMoves_eq]
@[simp] theorem afterMoves_removed (ms : List EnvMove) (s : State) : (afterMoves ms s).removed = s.removed := by rw [afterMoves_eq]
@[simp] theorem afterMoves_tx (ms : List EnvMove) (s : State) : (afterMoves ms s).tx = s.tx := by rw [afterMoves_eq]
@[simp] theorem afterMoves_env (ms : List EnvMove) (s : State) : (afterMoves ms s).env = s.env := by rw [afterMoves_eq]
@[simp] theorem afterMoves_draws (ms : List EnvMove) (s : State) : (afterMoves ms s).draws = s.draws := by rw [afterMoves_eq]
@[simp] theorem afterMoves_host (ms : List EnvMove) (s : State) : (afterMoves ms s).host = s.host := by rw [afterMoves_eq]
@[simp] theorem afterMoves_call (ms : List EnvMove) (s : State) : (afterMoves ms s).call = s.call := by rw [afterMoves_eq]
@[simp] theorem afterMoves_results (ms : List EnvMove) (s : State) : (afterMoves ms s).results = s.results := by rw [afterMoves_eq]
@[simp] theorem afterMoves_dataValid (ms : List EnvMove) (s : State) : (afterMoves ms s).dataValid = s.dataValid := by rw [afterMoves_eq]
@[simp] theorem afterMoves_idValid (ms : List EnvMove) (s : State) : (afterMoves ms s).idValid = s.idValid := by rw [afterMoves_eq]
@[simp] theorem afterMoves_okValid (ms : List EnvMove) (s : State) : (afterMoves ms s).okValid = s.okValid := by rw [afterMoves_eq]
@[simp] theorem afterMoves_cfg (ms : List EnvMove) (s : State) : (afterMoves ms s).cfg = s.cfg := by rw [afterMoves_eq]
@[simp] theorem afterMoves_rx (ms : List EnvMove) (s : State) : (afterMoves ms s).rx = s.rx ++ arrived ms := by
  rw [afterMoves_eq]

@[simp] theorem arrived_nil : arrived [] = [] := rfl
@[simp] theorem arrived_cons (m : EnvMove) (ms : List EnvMove) : arrived (m :: ms) = m.arrivals ++ arrived ms := rfl
@[simp] theorem arrived_append (ms ns : List EnvMove) : arrived (ms ++ ns) = arrived ms ++ arrived ns := by
  simp [arrived]

/-! ### One poll, and the starts -/

theorem deadlinePassed_iff {T e : Millis} : deadlinePassed T e = true ↔ T ≠ 0 ∧ T.toNat ≤ e.toNat := by
  simp [deadlinePassed]

@[simp] theorem deadlinePassed_zero (e : Millis) : deadlinePassed 0#16 e = false := rfl

/-- A sleep that stays inside the 16 bits adds `POLL_INC`. -/
theorem afterSleep_toNat {e : Millis} (h : e.toNat + pollInc < 2 ^ 16) : (afterSleep e).toNat = e.toNat + pollInc := by
  rw [afterSleep, if_pos h, BitVec.toNat_add, BitVec.toNat_ofNat, Nat.mod_eq_of_lt (a := pollInc) (by decide),
    Nat.mod_eq_of_lt h]

/-- A poll ends the wait with success, or times out with the log written, or sleeps. -/
theorem poll_cases (b : Bool) (T : Millis) (k : WaitKind) (f g : State → State) (s : State) :
    (b = true ∧ poll b T k f g s = f s) ∨
    (b = false ∧ T ≠ 0 ∧ T.toNat ≤ s.elapsed.toNat ∧ poll b T k f g s = g (logTimeout k s)) ∨
    (b = false ∧ (T = 0 ∨ s.elapsed.toNat < T.toNat) ∧ poll b T k f g s = slept s) := by
  cases b with
  | true => exact .inl ⟨rfl, rfl⟩
  | false =>
    by_cases h : deadlinePassed T s.elapsed = true
    · obtain ⟨h1, h2⟩ := deadlinePassed_iff.1 h
      exact .inr (.inl ⟨rfl, h1, h2, by rw [poll, if_neg (by simp), if_pos h]⟩)
    · refine .inr (.inr ⟨rfl, ?_, by rw [poll, if_neg (by simp), if_neg h]⟩)
      rw [deadlinePassed_iff, not_and, Nat.not_le] at h
      exact or_iff_not_imp_left.2 h

/-- What a sample of the line is, with `INIT` set. -/
theorem readyLevel_init {s : State} (h : s.init = true) : readyLevel s = (s.ready, s) := by
  rw [readyLevel, if_pos h]

/-- A sample of the line changes the draw counter at most. -/
theorem readyLevel_snd (s : State) : ∃ n, (readyLevel s).2 = draw n s := by
  rw [readyLevel]
  split_ifs
  · exact ⟨0, rfl⟩
  · exact ⟨1, rfl⟩

/-- `RxPop` takes the head of the queue and nothing else. -/
theorem rxPop_cons {s : State} {r : Byte} {q : List Byte} (h : s.rx = r :: q) : rxPop s = some (r, takeHead r q s) := by
  simp [rxPop, h]

theorem rxAvail_iff (s : State) : rxAvail s = true ↔ s.rx ≠ [] := by
  cases h : s.rx <;> simp [rxAvail, h]

end Sys2Proof.Machine
end

