-- ==== Sys2Proof/Laws/PerInstr.lean ====
section
/-! SUPPORT. What holds of each wire command as syntax: the shape of its frame and descriptor (R53 to R59, R87). -/

namespace Sys2Proof.Laws.FrameShape

open Sys2Proof.Machine

/-- A command is well formed; its frame begins with its opcode, has the length the opcode gives (R59) and fits the six frame
registers (R12); decoding the frame alone gives the command back. -/
def Statement (i : Instr) : Prop :=
  i.wellFormed = true ∧ (encode i).head? = some (opcodeOf i) ∧ frameLength (opcodeOf i) = some (encode i).length ∧
    (encode i).length ≤ 6 ∧ (descriptorOf i).frame = encode i ∧ decodeFrame (encode i) = some i

theorem rdpage (page : Byte) : Statement (.rdpage page) := by
  refine ⟨rfl, rfl, rfl, ?_, rfl, rfl⟩
  simp [encode]

theorem wrpage (page d0 d1 d2 d3 : Byte) : Statement (.wrpage page d0 d1 d2 d3) := by
  refine ⟨rfl, rfl, rfl, ?_, rfl, rfl⟩
  simp [encode]

theorem status : Statement .status := by
  refine ⟨rfl, rfl, rfl, ?_, rfl, rfl⟩
  simp [encode]

theorem uid : Statement .uid := by
  refine ⟨rfl, rfl, rfl, ?_, rfl, rfl⟩
  simp [encode]

theorem ident : Statement .ident := by
  refine ⟨rfl, rfl, rfl, ?_, rfl, rfl⟩
  simp [encode]

theorem progee (address value : Byte) : Statement (.progee address value) := by
  refine ⟨rfl, rfl, rfl, ?_, rfl, rfl⟩
  simp [encode]

end Sys2Proof.Laws.FrameShape
end

