-- ==== Sys2Proof/Laws/Sequencer.lean ====
section
/-! SUPPORT. What each row of the sequencer can do, said once, and how the rows make up a run: the polls of a wait, the bytes of
a frame, the acknowledgment, the payload and the drain. -/

namespace Sys2Proof.Machine

/-! ### A run, row by row -/

@[simp] theorem drive_nil (s : State) : drive [] s = .next (setEnv [] s) := rfl

/-- An idle machine runs nothing. -/
theorem drive_idle {s : State} (ms : List EnvMove) (h : s.busy = false) : drive ms s = .next (setEnv ms s) := by
  cases ms with
  | nil => rfl
  | cons m ms => rw [drive, if_neg (by simp [h])]

/-- A busy machine runs one row after each move. -/
theorem drive_busy {s : State} (m : EnvMove) (ms : List EnvMove) (h : s.busy = true) :
    drive (m :: ms) s = andThen (row (applyMove m (setEnv ms s))) (drive ms) := by
  rw [drive, if_pos h]

/-- The moves a run takes are those it is given, not those the state lists. -/
@[simp] theorem drive_setEnv (ms e : List EnvMove) (s : State) : drive ms (setEnv e s) = drive ms s := by
  cases ms with
  | nil => rfl
  | cons m ms => rw [drive, drive]; rfl

theorem row_idle {s : State} (h : s.phase = .idle) : row s = .fault .busyWhileIdle := by rw [row, h]
theorem row_wl {s : State} (h : s.phase = .wl) : row s = rowWL s := by rw [row, h]
theorem row_tx {s : State} (h : s.phase = .tx) : row s = rowTX s := by rw [row, h]
theorem row_wa {s : State} (h : s.phase = .wa) : row s = rowWA s := by rw [row, h]
theorem row_sa {s : State} (h : s.phase = .sa) : row s = rowSA s := by rw [row, h]
theorem row_ra {s : State} (h : s.phase = .ra) : row s = rowRA s := by rw [row, h]
theorem row_ck {s : State} (h : s.phase = .ck) : row s = rowCK s := by rw [row, h]
theorem row_wp {s : State} (h : s.phase = .wp) : row s = rowWP s := by rw [row, h]
theorem row_sp {s : State} (h : s.phase = .sp) : row s = rowSP s := by rw [row, h]
theorem row_rp {s : State} (h : s.phase = .rp) : row s = rowRP s := by rw [row, h]
theorem row_wd {s : State} (h : s.phase = .wd) : row s = rowWD s := by rw [row, h]
theorem row_dc {s : State} (h : s.phase = .dc) : row s = rowDC s := by rw [row, h]
theorem row_sd {s : State} (h : s.phase = .sd) : row s = rowSD s := by rw [row, h]
theorem row_rd {s : State} (h : s.phase = .rd) : row s = rowRD s := by rw [row, h]

/-- The whole frame is sent and an acknowledgment is expected. -/
theorem afterFrame_ack {s : State} (h : s.lat.ae = true) : afterFrame s = .next (toWait .wa s) := by
  rw [afterFrame, h]

/-- The whole frame is sent and a drain is to come that first waits for a byte. -/
theorem afterFrame_wait {s : State} (h : s.lat.ae = false) (hp : s.lat.pm = .drain) (hw : s.cfg.identWaitData = true) :
    afterFrame s = .next (toWait .wd s) := by
  rw [afterFrame, h, hp]
  exact congrArg _ (if_pos hw)

/-- The whole frame is sent and a drain begins at once. -/
theorem afterFrame_drain {s : State} (h : s.lat.ae = false) (hp : s.lat.pm = .drain) (hw : s.cfg.identWaitData = false) :
    afterFrame s = .next (toPhase .dc s) := by
  rw [afterFrame, h, hp]
  exact congrArg _ (if_neg (by simp [hw]))

/-- The whole frame is sent and nothing is to come. -/
theorem afterFrame_end {s : State} (h : s.lat.ae = false) (hp : s.lat.pm = .none) : afterFrame s = .next (succeed s) := by
  rw [afterFrame, h, hp]

/-! ### The polls of a wait -/

/-- A state further into its wait: `elapsed` is `n`, and the moves `e` are left. -/
def waited (n : Millis) (e : List EnvMove) (s : State) : State := { s with elapsed := n, env := e }

@[simp] theorem waited_lastAck (n : Millis) (e : List EnvMove) (s : State) : (waited n e s).lastAck = s.lastAck := rfl
@[simp] theorem waited_tmoListen (n : Millis) (e : List EnvMove) (s : State) : (waited n e s).tmoListen = s.tmoListen := rfl
@[simp] theorem waited_tmoData (n : Millis) (e : List EnvMove) (s : State) : (waited n e s).tmoData = s.tmoData := rfl
@[simp] theorem waited_init (n : Millis) (e : List EnvMove) (s : State) : (waited n e s).init = s.init := rfl
@[simp] theorem waited_log (n : Millis) (e : List EnvMove) (s : State) : (waited n e s).log = s.log := rfl
@[simp] theorem waited_data (n : Millis) (e : List EnvMove) (s : State) : (waited n e s).data = s.data := rfl
@[simp] theorem waited_idBuf (n : Millis) (e : List EnvMove) (s : State) : (waited n e s).idBuf = s.idBuf := rfl
@[simp] theorem waited_opnd (n : Millis) (e : List EnvMove) (s : State) : (waited n e s).opnd = s.opnd := rfl
@[simp] theorem waited_lat (n : Millis) (e : List EnvMove) (s : State) : (waited n e s).lat = s.lat := rfl
@[simp] theorem waited_phase (n : Millis) (e : List EnvMove) (s : State) : (waited n e s).phase = s.phase := rfl
@[simp] theorem waited_txi (n : Millis) (e : List EnvMove) (s : State) : (waited n e s).txi = s.txi := rfl
@[simp] theorem waited_rxi (n : Millis) (e : List EnvMove) (s : State) : (waited n e s).rxi = s.rxi := rfl
@[simp] theorem waited_elapsed (n : Millis) (e : List EnvMove) (s : State) : (waited n e s).elapsed = n := rfl
@[simp] theorem waited_busy (n : Millis) (e : List EnvMove) (s : State) : (waited n e s).busy = s.busy := rfl
@[simp] theorem waited_ok (n : Millis) (e : List EnvMove) (s : State) : (waited n e s).ok = s.ok := rfl
@[simp] theorem waited_cause (n : Millis) (e : List EnvMove) (s : State) : (waited n e s).cause = s.cause := rfl
@[simp] theorem waited_rx (n : Millis) (e : List EnvMove) (s : State) : (waited n e s).rx = s.rx := rfl
@[simp] theorem waited_removed (n : Millis) (e : List EnvMove) (s : State) : (waited n e s).removed = s.removed := rfl
@[simp] theorem waited_tx (n : Millis) (e : List EnvMove) (s : State) : (waited n e s).tx = s.tx := rfl
@[simp] theorem waited_ready (n : Millis) (e : List EnvMove) (s : State) : (waited n e s).ready = s.ready := rfl
@[simp] theorem waited_tag (n : Millis) (e : List EnvMove) (s : State) : (waited n e s).tag = s.tag := rfl
@[simp] theorem waited_ee (n : Millis) (e : List EnvMove) (s : State) : (waited n e s).ee = s.ee := rfl
@[simp] theorem waited_env (n : Millis) (e : List EnvMove) (s : State) : (waited n e s).env = e := rfl
@[simp] theorem waited_draws (n : Millis) (e : List EnvMove) (s : State) : (waited n e s).draws = s.draws := rfl
@[simp] theorem waited_host (n : Millis) (e : List EnvMove) (s : State) : (waited n e s).host = s.host := rfl
@[simp] theorem waited_call (n : Millis) (e : List EnvMove) (s : State) : (waited n e s).call = s.call := rfl
@[simp] theorem waited_results (n : Millis) (e : List EnvMove) (s : State) : (waited n e s).results = s.results := rfl
@[simp] theorem waited_dataValid (n : Millis) (e : List EnvMove) (s : State) : (waited n e s).dataValid = s.dataValid := rfl
@[simp] theorem waited_idValid (n : Millis) (e : List EnvMove) (s : State) : (waited n e s).idValid = s.idValid := rfl
@[simp] theorem waited_okValid (n : Millis) (e : List EnvMove) (s : State) : (waited n e s).okValid = s.okValid := rfl
@[simp] theorem waited_cfg (n : Millis) (e : List EnvMove) (s : State) : (waited n e s).cfg = s.cfg := rfl

theorem setEnv_afterMoves (ms e : List EnvMove) (s : State) : afterMoves ms (setEnv e s) = setEnv e (afterMoves ms s) := by
  induction ms generalizing s with
  | nil => rfl
  | cons m ms ih => exact ih (applyMove m s)

theorem afterMoves_waited (ms e : List EnvMove) (n : Millis) (s : State) :
    afterMoves ms (waited n e s) = waited n e (afterMoves ms s) := by
  induction ms generalizing s with
  | nil => rfl
  | cons m ms ih => exact ih (applyMove m s)

/-- An update that the environment's moves do not see may be made before them or after them. -/
theorem afterMoves_comm (f : State → State) (h : ∀ m u, applyMove m (f u) = f (applyMove m u)) (ms : List EnvMove)
    (s : State) : afterMoves ms (f s) = f (afterMoves ms s) := by
  induction ms generalizing s with
  | nil => rfl
  | cons m ms ih => rw [afterMoves_cons, h, ih, afterMoves_cons]

/-- The samples of a predicate at the polls after a list of moves. -/
def pollSamples (sample : State → Bool) : List EnvMove → State → List Bool
  | [], _ => []
  | m :: ms, s => sample (applyMove m s) :: pollSamples sample ms (applyMove m s)

/-- A predicate that a wait's own bookkeeping does not touch. -/
def Steady (sample : State → Bool) : Prop :=
  ∀ (n : Millis) (e : List EnvMove) (s : State), sample (waited n e s) = sample s

/-- The predicate of a listen wait, once `INIT` is 1 (R69). -/
def listening (s : State) : Bool := s.ready == .low

theorem steady_rxAvail : Steady rxAvail := fun _ _ _ => rfl

theorem steady_listening : Steady listening := fun _ _ _ => rfl

theorem pollSamples_waited {sample : State → Bool} (h : Steady sample) (ms e : List EnvMove) (n : Millis) (s : State) :
    pollSamples sample ms (waited n e s) = pollSamples sample ms s := by
  induction ms generalizing s with
  | nil => rfl
  | cons m ms ih => exact congrArg₂ List.cons (h n e (applyMove m s)) (ih (applyMove m s))

theorem pollSamples_listening (ms : List EnvMove) (s : State) : pollSamples listening ms s = listenSamples ms := by
  induction ms generalizing s with
  | nil => rfl
  | cons m ms ih => exact congrArg₂ List.cons rfl (ih _)

theorem pollSamples_rxAvail (ms : List EnvMove) (s : State) : pollSamples rxAvail ms s = dataSamples s.rx ms := by
  induction ms generalizing s with
  | nil => rfl
  | cons m ms ih => exact congrArg₂ List.cons rfl (ih _)

/-- A state is at a wait: it is busy, and its row, after any moves and however long into the wait, is one poll with this
predicate, timeout and log entry and these two ends. -/
def AtWait (sample : State → Bool) (T : Millis) (k : WaitKind) (f g : State → State) (s : State) : Prop :=
  s.busy = true ∧ ∀ (ms e : List EnvMove) (n : Millis),
    row (waited n e (afterMoves ms s)) = .next (poll (sample (afterMoves ms s)) T k f g (waited n e (afterMoves ms s)))

theorem AtWait.moved {sample : State → Bool} {T : Millis} {k : WaitKind} {f g : State → State} {s : State}
    (h : AtWait sample T k f g s) (m : EnvMove) (n : Millis) (e : List EnvMove) (hs : Steady sample) :
    AtWait sample T k f g (waited n e (applyMove m s)) := by
  refine ⟨h.1, fun ms e' n' => ?_⟩
  rw [afterMoves_waited, hs]
  exact h.2 (m :: ms) e' n'

/-- The polls of a wait are `waitFor` over its samples: the wait ends with its predicate, ends at its deadline, or goes on. -/
theorem drive_polls {sample : State → Bool} {T : Millis} {k : WaitKind} {f g : State → State} {s : State}
    (hs : Steady sample) (hw : AtWait sample T k f g s) (ms rest : List EnvMove) :
    (∀ n, waitFor T s.elapsed (pollSamples sample ms s) = .holds n [] →
      drive (ms ++ rest) s = drive rest (f (waited n rest (afterMoves ms s)))) ∧
    (∀ n, waitFor T s.elapsed (pollSamples sample ms s) = .timedOut n [] →
      drive (ms ++ rest) s = drive rest (g (logTimeout k (waited n rest (afterMoves ms s))))) ∧
    (∀ n, waitFor T s.elapsed (pollSamples sample ms s) = .waiting n →
      drive (ms ++ rest) s = drive rest (waited n rest (afterMoves ms s))) := by
  induction ms generalizing s with
  | nil =>
    refine ⟨fun n h => by simp [pollSamples, waitFor] at h, fun n h => by simp [pollSamples, waitFor] at h, fun n h => ?_⟩
    simp only [pollSamples, waitFor, WaitResult.waiting.injEq] at h
    subst h
    exact (drive_setEnv rest rest s).symm
  | cons m ms ih =>
    have hrow : row (applyMove m (setEnv (ms ++ rest) s)) = .next (poll (sample (applyMove m s)) T k f g
        (waited s.elapsed (ms ++ rest) (applyMove m s))) := hw.2 [m] (ms ++ rest) s.elapsed
    rw [List.cons_append, drive_busy _ _ hw.1, hrow, andThen_next, pollSamples]
    have hnil : ∀ u, pollSamples sample ms u = [] → ms = [] := fun u h => by
      cases ms with
      | nil => rfl
      | cons => simp [pollSamples] at h
    cases hsm : sample (applyMove m s) with
    | true =>
      refine ⟨fun n h => ?_, fun n h => by simp [waitFor] at h, fun n h => by simp [waitFor] at h⟩
      simp only [waitFor, WaitResult.holds.injEq] at h
      obtain ⟨rfl, h⟩ := h
      obtain rfl := hnil _ h
      rfl
    | false =>
      by_cases hd : deadlinePassed T s.elapsed = true
      · have hp : poll false T k f g (waited s.elapsed (ms ++ rest) (applyMove m s)) =
            g (logTimeout k (waited s.elapsed (ms ++ rest) (applyMove m s))) := by
          unfold poll
          exact if_pos hd
        rw [hp]
        simp only [waitFor, if_pos hd]
        refine ⟨fun n h => by simp at h, fun n h => ?_, fun n h => by simp at h⟩
        simp only [WaitResult.timedOut.injEq] at h
        obtain ⟨rfl, h⟩ := h
        obtain rfl := hnil _ h
        rfl
      · have hp : poll false T k f g (waited s.elapsed (ms ++ rest) (applyMove m s)) =
            waited (afterSleep s.elapsed) (ms ++ rest) (applyMove m s) := by
          unfold poll
          exact if_neg hd
        have := ih (hw.moved m (afterSleep s.elapsed) (ms ++ rest) hs)
        rw [pollSamples_waited hs, afterMoves_waited] at this
        rw [hp]
        simp only [waitFor, if_neg hd]
        exact this

/-- Phase WL is at the listen wait. -/
theorem atWait_wl {s : State} (hb : s.busy = true) (hp : s.phase = .wl) (hi : s.init = true) :
    AtWait listening s.lat.tmoListen .listen (if s.lat.waitOnly then endWait true else toTransmit)
      (if s.lat.waitOnly then endWait false else fail .notListening) s := by
  refine ⟨hb, fun ms e n => ?_⟩
  rw [row_wl (by simp [hp]), rowWL, readyLevel_init (by simp [hi])]
  simp [listening]

/-- Phase WA is at the acknowledgment's wait. -/
theorem atWait_wa {s : State} (hb : s.busy = true) (hp : s.phase = .wa) :
    AtWait rxAvail s.lat.tmoData .data (if s.lat.waitOnly then endWait true else toPhase .sa)
      (if s.lat.waitOnly then endWait false else fail .noResponse) s := by
  refine ⟨hb, fun ms e n => ?_⟩
  rw [row_wa (by simp [hp]), rowWA, steady_rxAvail]
  simp

/-- Phase WP is at a payload byte's wait. -/
theorem atWait_wp {s : State} (hb : s.busy = true) (hp : s.phase = .wp) :
    AtWait rxAvail s.lat.tmoData .data (toPhase .sp) (fail .payloadTimeout) s := by
  refine ⟨hb, fun ms e n => ?_⟩
  rw [row_wp (by simp [hp]), rowWP, steady_rxAvail]
  simp

/-- Phase WD is at the wait before a drain. -/
theorem atWait_wd {s : State} (hb : s.busy = true) (hp : s.phase = .wd) :
    AtWait rxAvail s.lat.tmoData .data (toPhase .dc) (fail .noResponse) s := by
  refine ⟨hb, fun ms e n => ?_⟩
  rw [row_wd (by simp [hp]), rowWD, steady_rxAvail]
  simp

/-! ### The frame -/

/-- A state after `bytes` of the frame have been sent, the moves `e` being left. -/
def transmitted (bytes : List Byte) (e : List EnvMove) (s : State) : State :=
  { s with tx := s.tx ++ bytes, txi := s.txi + bytes.length, env := e }

/-- Row TX with more bytes to come. -/
theorem rowTX_more {s : State} {b : Byte} (hx : frameGet s.lat.x s.txi = some b) (h : s.txi + 1 < s.lat.len) :
    rowTX s = .next (sentByte b s) := by
  rw [rowTX, if_pos (by omega), hx]
  exact if_pos h

/-- Row TX at the last byte of the frame. -/
theorem rowTX_last {s : State} {b : Byte} (hx : frameGet s.lat.x s.txi = some b) (h : s.txi + 1 = s.lat.len) :
    rowTX s = afterFrame (sentByte b s) := by
  rw [rowTX, if_pos (by omega), hx]
  exact if_neg (by omega)

/-- `LEN` bytes are sent, one after each move, in index order (R76). -/
theorem drive_transmit (bytes : List Byte) {s : State} (ms rest : List EnvMove) (hb : s.busy = true) (hp : s.phase = .tx)
    (hm : ms.length = bytes.length) (hne : bytes ≠ []) (hl : s.txi + bytes.length = s.lat.len)
    (hx : ∀ k (h : k < bytes.length), frameGet s.lat.x (s.txi + k) = some bytes[k]) :
    drive (ms ++ rest) s = andThen (afterFrame (transmitted bytes rest (afterMoves ms s))) (drive rest) := by
  induction bytes generalizing s ms with
  | nil => exact absurd rfl hne
  | cons b bs ih =>
    cases ms with
    | nil => simp at hm
    | cons m ms =>
      have h0 := hx 0 (by simp)
      simp only [Nat.add_zero, List.getElem_cons_zero] at h0
      simp only [List.length_cons] at hl hm
      rw [List.cons_append, drive_busy _ _ hb, row_tx (by simp [hp])]
      cases bs with
      | nil =>
        obtain rfl : ms = [] := by cases ms with
          | nil => rfl
          | cons => simp at hm
        simp only [List.length_nil] at hl
        rw [rowTX_last (s := applyMove m (setEnv ([] ++ rest) s)) h0 (by simpa using hl)]
        rfl
      | cons b' bs =>
        simp only [List.length_cons] at hl hm
        rw [rowTX_more (s := applyMove m (setEnv (ms ++ rest) s)) h0 (by simp; omega), andThen_next]
        have := ih (s := sentByte b (applyMove m (setEnv (ms ++ rest) s))) ms hb hp (by simpa using hm) (by simp)
          (by simp; omega) (fun k h => by
            have := hx (k + 1) (by simpa using h)
            simp only [List.getElem_cons_succ] at this
            simpa [Nat.add_assoc, Nat.add_comm 1 k] using this)
        rw [this, afterMoves_cons]
        congr 2
        have e1 : ∀ u : State, afterMoves ms (sentByte b u) = sentByte b (afterMoves ms u) := by
          intro u
          clear * -
          induction ms generalizing u with
          | nil => rfl
          | cons m ms ih => exact ih (applyMove m u)
        rw [e1, applyMove_setEnv, setEnv_afterMoves]
        simp [transmitted, sentByte, txPush, setEnv, Nat.add_assoc, Nat.add_comm 1]

/-! ### The acknowledgment -/

theorem rowRA_cons {s : State} {r : Byte} {q : List Byte} (h : s.rx = r :: q) :
    rowRA s = .next (toPhase .ck (storeAck r (takeHead r q s))) := by
  rw [rowRA, rxPop_cons h]

/-- A state whose acknowledgment `r` has been read, the queue holding `q` and the moves `e` being left. -/
def acknowledged (r : Byte) (q : List Byte) (e : List EnvMove) (s : State) : State :=
  { s with lastAck := r, rx := q, removed := s.removed ++ [r], phase := .ck, env := e }

/-- Settle, read, compare: the oldest byte is stored, and row CK decides (R78 to R80). -/
theorem drive_acknowledge {s : State} {r : Byte} {q : List Byte} (m1 m2 m3 : EnvMove) (rest : List EnvMove)
    (hb : s.busy = true) (hp : s.phase = .sa) (hne : s.rx ≠ []) (hq : s.rx ++ arrived [m1, m2, m3] = r :: q) :
    drive (m1 :: m2 :: m3 :: rest) s =
      andThen (rowCK (acknowledged r q rest (afterMoves [m1, m2, m3] s))) (drive rest) := by
  obtain ⟨a, as, ha⟩ := List.exists_cons_of_ne_nil hne
  rw [ha] at hq
  simp only [arrived_cons, arrived_nil, List.append_nil, List.cons_append, List.cons.injEq] at hq
  obtain ⟨rfl, rfl⟩ := hq
  rw [drive_busy _ _ hb, row_sa (by simp [hp]), rowSA, andThen_next, drive_busy _ _ (by simp [hb]), row_ra (by simp),
    rowRA_cons (r := a) (q := as ++ m1.arrivals ++ m2.arrivals) (by simp [ha]), andThen_next,
    drive_busy _ _ (by simp [hb]), row_ck (by simp)]
  refine congrArg (fun u => andThen (rowCK u) (drive rest)) ?_
  simp [acknowledged, applyMove, toPhase, storeAck, setEnv, takeHead]

/-! ### The payload -/

theorem waitFor_holds_last {T e n : Millis} {l : List Bool} (h : waitFor T e l = .holds n []) : ∃ l', l = l' ++ [true] := by
  induction l generalizing e with
  | nil => simp [waitFor] at h
  | cons b l ih =>
    cases b with
    | true =>
      simp only [waitFor, WaitResult.holds.injEq] at h
      exact ⟨[], by simp [h.2]⟩
    | false =>
      rw [waitFor] at h
      split_ifs at h
      obtain ⟨l', rfl⟩ := ih h
      exact ⟨false :: l', rfl⟩

theorem dataSamples_last {rx : List Byte} {ms : List EnvMove} {l : List Bool} (h : dataSamples rx ms = l ++ [true]) :
    rx ++ arrived ms ≠ [] := by
  induction ms generalizing rx l with
  | nil => simp [dataSamples] at h
  | cons m ms ih =>
    rw [dataSamples] at h
    cases l with
    | nil =>
      simp only [List.nil_append, List.cons.injEq] at h
      intro hc
      simp only [arrived_cons, List.append_eq_nil_iff] at hc
      simp [hc.1, hc.2.1] at h
    | cons b l =>
      simp only [List.cons_append, List.cons.injEq] at h
      simpa using ih h.2

/-- After a wait for data that succeeded the queue is not empty. -/
theorem answers_ne_nil {T : Millis} {rx : List Byte} {ms : List EnvMove} (h : Answers T rx ms) : rx ++ arrived ms ≠ [] := by
  obtain ⟨e, h⟩ := h
  obtain ⟨l, hl⟩ := waitFor_holds_last h
  exact dataSamples_last hl

theorem rowRP_cons {s : State} {r : Byte} {q : List Byte} {d : DataRegs} (h : s.rx = r :: q)
    (hd : dataSet s.data s.rxi r = some d) :
    rowRP s = .next (if s.rxi + 1 < s.lat.pcnt then toWait .wp (storedPayload d (takeHead r q s))
      else succeed (storedPayload d (takeHead r q s))) := by
  rw [rowRP, rxPop_cons h]
  dsimp only
  rw [hd]

/-- A state whose payload byte `r` has been read and stored, the registers being `d` now. -/
def payloadRead (d : DataRegs) (r : Byte) (q : List Byte) (n : Millis) (e : List EnvMove) (s : State) : State :=
  { s with data := d, rxi := s.rxi + 1, rx := q, removed := s.removed ++ [r], phase := .rp, elapsed := n, env := e }

/-- One payload byte: its wait, the settle and the read (R82). -/
theorem drive_payload_byte {s : State} {r : Byte} {q : List Byte} {d : DataRegs} (b : ByteMoves) (rest : List EnvMove)
    (hb : s.busy = true) (hp : s.phase = .wp) (he : s.elapsed = 0) (ha : Answers s.lat.tmoData s.rx b.polls)
    (hq : s.rx ++ arrived b.moves = r :: q) (hd : dataSet s.data s.rxi r = some d) :
    ∃ n, drive (b.moves ++ rest) s = drive rest (if s.rxi + 1 < s.lat.pcnt
      then toWait .wp (payloadRead d r q n rest (afterMoves b.moves s))
      else succeed (payloadRead d r q n rest (afterMoves b.moves s))) := by
  have hne := answers_ne_nil ha
  obtain ⟨n, hn⟩ := ha
  refine ⟨n, ?_⟩
  have h1 := (drive_polls steady_rxAvail (atWait_wp hb hp) b.polls (b.turn1 :: b.turn2 :: rest)).1 n
    (by rw [pollSamples_rxAvail, he]; exact hn)
  obtain ⟨a, as, hs⟩ := List.exists_cons_of_ne_nil hne
  simp only [ByteMoves.moves, arrived_append, ← List.append_assoc, hs, arrived_cons, arrived_nil, List.append_nil,
    List.cons_append, List.cons.injEq] at hq
  obtain ⟨rfl, rfl⟩ := hq
  rw [ByteMoves.moves, List.append_assoc, List.cons_append, List.cons_append, List.nil_append, h1,
    drive_busy _ _ (by simp [hb]), row_sp (by simp), rowSP, andThen_next, drive_busy _ _ (by simp [hb]), row_rp (by simp),
    rowRP_cons (r := a) (q := as ++ b.turn1.arrivals ++ b.turn2.arrivals) (d := d) (by simp [hs]) (by simpa using hd),
    andThen_next]
  have hu : storedPayload d (takeHead a (as ++ b.turn1.arrivals ++ b.turn2.arrivals) (applyMove b.turn2 (setEnv rest (toPhase .rp
      (applyMove b.turn1 (setEnv (b.turn2 :: rest) (toPhase .sp (waited n (b.turn1 :: b.turn2 :: rest)
        (afterMoves b.polls s))))))))) =
      payloadRead d a (as ++ b.turn1.arrivals ++ b.turn2.arrivals) n rest
        (afterMoves (b.polls ++ [b.turn1, b.turn2]) s) := by
    simp [payloadRead, storedPayload, takeHead, afterMoves_append, applyMove, toPhase, setEnv, waited]
  rw [hu]
  simp

/-! ### The drain -/

theorem rowRD_cons {s : State} {r : Byte} {q : List Byte} (h : s.rx = r :: q) (hc : s.idBuf.length < s.cfg.identCap) :
    rowRD s = .next (toPhase .dc (storeIdent r (takeHead r q s))) := by
  rw [rowRD, rxPop_cons h]
  exact if_pos hc

theorem rowRD_full {s : State} {r : Byte} {q : List Byte} (h : s.rx = r :: q) (hc : s.cfg.identCap ≤ s.idBuf.length) :
    rowRD s = .refused .identOverflow := by
  rw [rowRD, rxPop_cons h]
  exact if_neg (by omega)

/-- A state whose oldest byte `r` has been drained. -/
def drained (r : Byte) (q : List Byte) (e : List EnvMove) (s : State) : State :=
  { s with idBuf := s.idBuf ++ [r], rx := q, removed := s.removed ++ [r], env := e }

/-- One drained byte: the check, the settle and the read (R83). -/
theorem drive_drain_byte {s : State} {r : Byte} {q : List Byte} (d : DrainMoves) (rest : List EnvMove)
    (hb : s.busy = true) (hp : s.phase = .dc) (hne : s.rx ++ d.turn1.arrivals ≠ [])
    (hq : s.rx ++ arrived d.moves = r :: q) :
    drive (d.moves ++ rest) s = if s.idBuf.length < s.cfg.identCap
      then drive rest (drained r q rest (afterMoves d.moves s)) else .refused .identOverflow := by
  obtain ⟨a, as, hs⟩ := List.exists_cons_of_ne_nil hne
  simp only [DrainMoves.moves, arrived_cons, arrived_nil, List.append_nil, ← List.append_assoc, hs, List.cons_append,
    List.cons.injEq] at hq
  obtain ⟨rfl, rfl⟩ := hq
  have hav : rxAvail (applyMove d.turn1 (setEnv (d.turn2 :: d.turn3 :: rest) s)) = true := by
    rw [rxAvail_iff]
    simp [hs]
  rw [DrainMoves.moves, List.cons_append, List.cons_append, List.cons_append, List.nil_append, drive_busy _ _ hb,
    row_dc (by simp [hp]), rowDC, if_pos hav, andThen_next, drive_busy _ _ (by simp [hb]), row_sd (by simp), rowSD,
    andThen_next, drive_busy _ _ (by simp [hb]), row_rd (by simp)]
  have hrx : (applyMove d.turn3 (setEnv rest (toPhase .rd (applyMove d.turn2 (setEnv (d.turn3 :: rest) (toPhase .sd
      (applyMove d.turn1 (setEnv (d.turn2 :: d.turn3 :: rest) s)))))))).rx =
        a :: (as ++ d.turn2.arrivals ++ d.turn3.arrivals) := by
    simp [hs]
  split_ifs with hc
  · rw [rowRD_cons hrx (by simpa using hc), andThen_next]
    refine congrArg (drive rest) ?_
    simp [drained, toPhase, storeIdent, applyMove, setEnv, takeHead, hp]
  · rw [rowRD_full hrx (by simpa using hc)]
    rfl

/-- The check that finds the queue empty ends the drain (R83). -/
theorem drive_drain_end {s : State} (m : EnvMove) (rest : List EnvMove) (hb : s.busy = true) (hp : s.phase = .dc)
    (he : s.rx ++ m.arrivals = []) : drive (m :: rest) s = drive rest (succeed (applyMove m (setEnv rest s))) := by
  have hav : ¬ rxAvail (applyMove m (setEnv rest s)) = true := by
    rw [rxAvail_iff]
    simpa using he
  rw [drive_busy _ _ hb, row_dc (by simp [hp]), rowDC, if_neg hav, andThen_next]

/-! ### The start -/

/-- An admitted start (R85 row IDLE). -/
theorem startOperation_ok {s : State} {pm : PayloadMode} (hb : s.busy = false) (h : admittedMode s.opnd = .ok pm) :
    startOperation s = .next (enterFirstPhase (latch pm s)) := by
  rw [startOperation, if_neg (by simp [hb]), h]

/-- The operand registers that a wire command has loaded are admitted, with the payload mode of its descriptor (R55, R87). -/
theorem admittedMode_loadDescriptor (r : OperandRegs) (i : Instr) :
    admittedMode (loadDescriptor r (descriptorOf i)) = .ok (descriptorOf i).pm := by
  cases i <;> rfl

/-- What a wire command does from an idle machine: it loads, latches, and runs from phase WL (R88). -/
theorem exec_eq (i : Instr) {s : State} (hb : s.busy = false) :
    exec i s = drive s.env (toWait .wl (latch (descriptorOf i).pm (writeOperands (loadDescriptor s.opnd (descriptorOf i)) s))) := by
  have h : exec i s = issue (descriptorOf i) s := by cases i <;> rfl
  rw [h, issue, runOperation, startOperation_ok (pm := (descriptorOf i).pm) (by simpa using hb)
    (by rw [writeOperands_opnd, admittedMode_loadDescriptor]), andThen_next, driveListed, enterFirstPhase]
  have hwl : (latch (descriptorOf i).pm (writeOperands (loadDescriptor s.opnd (descriptorOf i)) s)).lat.wl = true := by
    cases i <;> rfl
  rw [if_pos hwl]
  rfl

/-- What a generic SENDCMD of an admitted length does from an idle machine (R61, R74). -/
theorem issue_sendCommand (bytes : List Byte) (mask : Byte) {s : State} (hb : s.busy = false) (h1 : 1 ≤ bytes.length)
    (h6 : bytes.length ≤ 6) :
    issue (sendCommandDescriptor bytes mask) s =
      drive s.env (toWait .wl (latch .none (writeOperands (loadDescriptor s.opnd (sendCommandDescriptor bytes mask)) s))) := by
  have hadm : admittedMode (loadDescriptor s.opnd (sendCommandDescriptor bytes mask)) = .ok .none := by
    have hl : lengthAdmitted (bytes.length % 8) = true := by
      rw [Nat.mod_eq_of_lt (by omega)]
      simp [lengthAdmitted, h1, h6]
    simp [admittedMode, loadDescriptor, sendCommandDescriptor, hl, pmCode, pmOfCode, shapeAdmitted]
  rw [issue, runOperation, startOperation_ok (pm := .none) (by simpa using hb) (by rw [writeOperands_opnd, hadm]), andThen_next]
  rfl

/-- No command starts while another operation runs (R87). -/
theorem exec_busy (i : Instr) {s : State} (hb : s.busy = true) : exec i s = .refused .startWhileBusy := by
  have h : exec i s = issue (descriptorOf i) s := by cases i <;> rfl
  rw [h, issue, runOperation, startOperation, if_pos (by simpa using hb)]
  rfl

/-! ### A command up to its frame, and up to its acknowledgment -/

/-- An idle machine that has loaded and latched a wire command. -/
def started (i : Instr) (s : State) : State :=
  latch (descriptorOf i).pm (writeOperands (loadDescriptor s.opnd (descriptorOf i)) s)

/-- The latched length is the length of the command's frame. -/
theorem started_len (i : Instr) (s : State) : (started i s).lat.len = (encode i).length := by cases i <;> rfl

/-- The latched frame is the command's frame. -/
theorem started_frame (i : Instr) (s : State) (k : Nat) (h : k < (encode i).length) :
    frameGet (started i s).lat.x k = some (encode i)[k] := by
  cases i <;>
    (simp only [encode, List.length_cons, List.length_nil] at h
     interval_cases k <;> rfl)

theorem started_ae (i : Instr) (s : State) : (started i s).lat.ae = (descriptorOf i).ae := by cases i <;> rfl
theorem started_pm (i : Instr) (s : State) : (started i s).lat.pm = (descriptorOf i).pm := by cases i <;> rfl
theorem started_pcnt (i : Instr) (s : State) : (started i s).lat.pcnt = (descriptorOf i).pcnt := by cases i <;> rfl
theorem started_waitOnly (i : Instr) (s : State) : (started i s).lat.waitOnly = false := by cases i <;> rfl
theorem started_tmoListen (i : Instr) (s : State) : (started i s).lat.tmoListen = s.tmoListen := by cases i <;> rfl
theorem started_tmoData (i : Instr) (s : State) : (started i s).lat.tmoData = s.tmoData := by cases i <;> rfl
theorem started_mask (i : Instr) (s : State) : (started i s).lat.mask = (descriptorOf i).mask.getD s.opnd.mask := by
  cases i <;> rfl

/-- A running operation whose line is found LOW in time sends its whole frame (R75, R76). -/
theorem drive_frame {s : State} (bytes : List Byte) {lm tm : List EnvMove} (rest : List EnvMove) (hb : s.busy = true)
    (hi : s.init = true) (hw : s.lat.waitOnly = false) (hlen : s.lat.len = bytes.length) (hne : bytes ≠ [])
    (hx : ∀ k (h : k < bytes.length), frameGet s.lat.x k = some bytes[k])
    (hl : Listens s.lat.tmoListen lm) (ht : tm.length = bytes.length) :
    ∃ n, drive (lm ++ tm ++ rest) (toWait .wl s) =
      andThen (afterFrame (transmitted bytes rest (toTransmit (waited n rest (afterMoves (lm ++ tm) s))))) (drive rest) := by
  obtain ⟨n, hn⟩ := hl
  refine ⟨n, ?_⟩
  have hwl := atWait_wl (s := toWait .wl s) hb rfl hi
  have h1 := (drive_polls steady_listening hwl lm (tm ++ rest)).1 n (by rw [pollSamples_listening]; exact hn)
  have hw' : (toWait .wl s).lat.waitOnly = false := hw
  rw [List.append_assoc, h1, hw', if_neg (by simp)]
  have h2 := drive_transmit bytes (s := toTransmit (waited n (tm ++ rest) (afterMoves lm (toWait .wl s)))) tm rest
    (by simpa using hb) rfl ht hne (by simp [hlen]) (by simpa using hx)
  rw [h2]
  refine congrArg (fun u => andThen (afterFrame u) (drive rest)) ?_
  rw [afterMoves_append, afterMoves_comm toTransmit (fun _ _ => rfl), afterMoves_comm (toWait .wl) (fun _ _ => rfl),
    afterMoves_waited, afterMoves_comm (toWait .wl) (fun _ _ => rfl)]
  rfl

/-- A running operation that has sent its frame and found an answer in time reads and stores it (R77 to R79); row CK is next. -/
theorem drive_answer {s : State} (bytes : List Byte) {lm tm dm : List EnvMove} (m1 m2 m3 : EnvMove) (rest : List EnvMove)
    {r : Byte} {q : List Byte} (hb : s.busy = true)
    (hi : s.init = true) (hw : s.lat.waitOnly = false) (hlen : s.lat.len = bytes.length) (hne : bytes ≠ [])
    (hx : ∀ k (h : k < bytes.length), frameGet s.lat.x k = some bytes[k]) (hae : s.lat.ae = true)
    (hl : Listens s.lat.tmoListen lm) (ht : tm.length = bytes.length)
    (ha : Answers s.lat.tmoData (s.rx ++ arrived (lm ++ tm)) dm)
    (hq : s.rx ++ arrived (lm ++ tm ++ dm ++ [m1, m2, m3]) = r :: q) :
    ∃ n, drive (lm ++ tm ++ dm ++ [m1, m2, m3] ++ rest) (toWait .wl s) =
      andThen (rowCK (acknowledged r q rest (waited n rest (transmitted bytes rest (toTransmit
        (afterMoves (lm ++ tm ++ dm ++ [m1, m2, m3]) s)))))) (drive rest) := by
  obtain ⟨n, h1⟩ := drive_frame bytes (dm ++ [m1, m2, m3] ++ rest) hb hi hw hlen hne hx hl ht
  obtain ⟨n', hn'⟩ := ha
  refine ⟨n', ?_⟩
  rw [List.append_assoc, List.append_assoc, List.append_assoc, ← List.append_assoc dm, ← List.append_assoc lm, h1]
  generalize hu : transmitted bytes (dm ++ [m1, m2, m3] ++ rest) (toTransmit (waited n (dm ++ [m1, m2, m3] ++ rest)
    (afterMoves (lm ++ tm) s))) = u
  have hue : u.lat = s.lat := by rw [← hu]; simp [transmitted]
  have hub : u.busy = true := by rw [← hu]; simp [transmitted, hb]
  have hux : u.rx = s.rx ++ arrived (lm ++ tm) := by rw [← hu]; simp [transmitted]
  have haf : afterFrame u = .next (toWait .wa u) := by rw [afterFrame, hue, hae]
  rw [haf, andThen_next]
  have hwa := atWait_wa (s := toWait .wa u) hub rfl
  have h2 := (drive_polls steady_rxAvail hwa dm ([m1, m2, m3] ++ rest)).1 n' (by
    rw [pollSamples_rxAvail]
    simp only [toWait_rx, toWait_lat, hue, hux, toWait_elapsed]
    exact hn')
  have hwu : (toWait .wa u).lat.waitOnly = false := by rw [toWait_lat, hue]; exact hw
  rw [hwu, if_neg (by simp)] at h2
  rw [List.append_assoc, h2]
  have hne2 : u.rx ++ arrived dm ≠ [] := by
    rw [hux]
    exact answers_ne_nil ⟨n', hn'⟩
  have h3 := drive_acknowledge (s := toPhase .sa (waited n' ([m1, m2, m3] ++ rest) (afterMoves dm (toWait .wa u)))) m1 m2 m3
    rest (r := r) (q := q) (by simpa using hub) rfl (by simpa using hne2) (by
      simp only [toPhase_rx, waited_rx, afterMoves_rx, toWait_rx, hux]
      simpa using hq)
  simp only [List.cons_append, List.nil_append] at h3 ⊢
  rw [h3]
  refine congrArg (fun u => andThen (rowCK u) (drive rest)) ?_
  rw [← hu, afterMoves_comm (toPhase .sa) (fun _ _ => rfl), afterMoves_waited, afterMoves_comm (toWait .wa) (fun _ _ => rfl),
    afterMoves_comm (toWait .wa) (fun _ _ => rfl), afterMoves_comm (transmitted _ _) (fun _ _ => rfl),
    afterMoves_comm (transmitted _ _) (fun _ _ => rfl), afterMoves_comm toTransmit (fun _ _ => rfl),
    afterMoves_comm toTransmit (fun _ _ => rfl), afterMoves_waited, afterMoves_waited, afterMoves_append (lm ++ tm ++ dm),
    afterMoves_append (lm ++ tm)]
  simp [acknowledged, toPhase, waited, toWait, transmitted, toTransmit]

/-! ### What a row does not read -/

/-- A state in which the listed moves, the host's operand registers and the timeout registers are others. -/
def foreign (e : List EnvMove) (r : OperandRegs) (l d : Millis) (s : State) : State :=
  writeTimeouts l d (writeOperands r (setEnv e s))

/-- No row reads or writes the listed moves, the operand registers or the timeout registers (R15). -/
theorem row_foreign (e : List EnvMove) (r : OperandRegs) (l d : Millis) (s : State) :
    row (foreign e r l d s) = mapNext (foreign e r l d) (row s) := by
  cases s
  rename_i lastAck tmoListen tmoData init log data idBuf opnd lat phase txi rxi elapsed busy ok cause rx removed tx ready tag ee env
    draws host call results dataValid idValid okValid cfg
  cases phase
  case idle => rfl
  case wl =>
    cases init <;> dsimp only [row, rowWL, readyLevel, foreign, draw, writeTimeouts, writeOperands, setEnv] <;>
      cases lat.waitOnly <;> simp only [if_true, if_false, Bool.false_eq_true] <;> dsimp only [poll] <;> split_ifs <;> rfl
  case tx =>
    dsimp only [row, rowTX, foreign, writeTimeouts, writeOperands, setEnv]
    by_cases h1 : txi < lat.len
    · rw [if_pos h1, if_pos h1]
      cases frameGet lat.x txi with
      | none => rfl
      | some b =>
        dsimp only
        by_cases h2 : txi + 1 < lat.len
        · rw [if_pos h2, if_pos h2]
          rfl
        · rw [if_neg h2, if_neg h2]
          dsimp only [afterFrame, sentByte, txPush]
          cases lat.ae <;> cases lat.pm <;> first | rfl | (dsimp only; split_ifs <;> rfl)
    · rw [if_neg h1, if_neg h1]
      rfl
  case wa =>
    dsimp only [row, rowWA, foreign, writeTimeouts, writeOperands, setEnv]
    cases lat.waitOnly <;> simp only [if_true, if_false, Bool.false_eq_true] <;> dsimp only [poll, rxAvail] <;>
      split_ifs <;> rfl
  case sa => rfl
  case ra => cases rx <;> rfl
  case ck =>
    dsimp only [row, rowCK, foreign, writeTimeouts, writeOperands, setEnv]
    cases ackAccepted lastAck lat.mask <;> cases lat.pm <;> rfl
  case wp =>
    dsimp only [row, rowWP, poll, foreign, rxAvail, writeTimeouts, writeOperands, setEnv]
    split_ifs <;> rfl
  case sp => rfl
  case rp =>
    cases rx with
    | nil => rfl
    | cons b q =>
      dsimp only [row, rowRP, rxPop, foreign, takeHead, writeTimeouts, writeOperands, setEnv]
      cases dataSet data rxi b with
      | none => rfl
      | some w =>
        dsimp only
        split_ifs <;> rfl
  case wd =>
    dsimp only [row, rowWD, poll, foreign, rxAvail, writeTimeouts, writeOperands, setEnv]
    split_ifs <;> rfl
  case dc => cases rx <;> rfl
  case sd => rfl
  case rd =>
    cases rx with
    | nil => rfl
    | cons b q =>
      dsimp only [row, rowRD, rxPop, foreign, takeHead, writeTimeouts, writeOperands, setEnv]
      split_ifs <;> rfl

/-- No row reads or writes the listed moves. -/
theorem row_setEnv (e : List EnvMove) (s : State) : row (setEnv e s) = mapNext (setEnv e) (row s) := by
  have h1 : row (setEnv e s) = _ := row_foreign e s.opnd s.tmoListen s.tmoData s
  have h2 : row s = _ := row_foreign s.env s.opnd s.tmoListen s.tmoData s
  rw [h1]
  cases hr : row s with
  | next t =>
    rw [hr, mapNext_next, Host.Outcome.next.injEq] at h2
    have ho : t.opnd = s.opnd := by rw [h2]; rfl
    have hl : t.tmoListen = s.tmoListen := by rw [h2]; rfl
    have hd : t.tmoData = s.tmoData := by rw [h2]; rfl
    rw [mapNext_next, mapNext_next, ← ho, ← hl, ← hd]
    rfl
  | fault x => rfl
  | refused x => rfl

/-- A row leaves the listed moves alone. -/
theorem row_env {s t : State} (h : row s = .next t) : t.env = s.env := by
  have h2 := row_setEnv s.env s
  rw [setEnv_self, h, mapNext_next, Host.Outcome.next.injEq] at h2
  rw [h2]
  rfl

/-! ### Which bytes are removed -/

/-- A poll takes no byte where its two ends take none (R70). -/
theorem poll_removed {b : Bool} {T : Millis} {k : WaitKind} {f g : State → State} {s : State}
    (hf : (f s).removed = s.removed ∧ (f s).rx = s.rx)
    (hg : (g (logTimeout k s)).removed = s.removed ∧ (g (logTimeout k s)).rx = s.rx) :
    (poll b T k f g s).removed ++ (poll b T k f g s).rx = s.removed ++ s.rx := by
  rcases poll_cases b T k f g s with ⟨-, h⟩ | ⟨-, -, -, h⟩ | ⟨-, -, h⟩ <;> rw [h] <;> simp [hf, hg]

/-- After the frame no byte has been taken yet. -/
theorem afterFrame_removed {s t : State} (h : afterFrame s = .next t) : t.removed = s.removed ∧ t.rx = s.rx := by
  rw [afterFrame] at h
  split at h
  · cases h; exact ⟨rfl, rfl⟩
  · cases h; split_ifs <;> exact ⟨rfl, rfl⟩
  · cases h; exact ⟨rfl, rfl⟩
  · cases h

/-- What is taken off the queue is recorded, and nothing else is (R10, R28): the record followed by the queue is the same after
every row. -/
theorem row_removed {s t : State} (h : row s = .next t) : t.removed ++ t.rx = s.removed ++ s.rx := by
  cases hp : s.phase
  case idle => rw [row_idle hp] at h; cases h
  case wl =>
    rw [row_wl hp, rowWL] at h
    cases h
    obtain ⟨n, hn⟩ := readyLevel_snd s
    rw [hn]
    cases s.lat.waitOnly <;> exact poll_removed (s := draw n s) ⟨rfl, rfl⟩ ⟨rfl, rfl⟩
  case tx =>
    rw [row_tx hp, rowTX] at h
    split at h
    · split at h
      · cases h
      · split at h
        · cases h; rfl
        · obtain ⟨h1, h2⟩ := afterFrame_removed h
          rw [h1, h2]
          rfl
    · cases h
  case wa =>
    rw [row_wa hp, rowWA] at h
    cases h
    cases s.lat.waitOnly <;> exact poll_removed ⟨rfl, rfl⟩ ⟨rfl, rfl⟩
  case sa => rw [row_sa hp, rowSA] at h; cases h; rfl
  case ra =>
    rw [row_ra hp] at h
    cases hq : s.rx with
    | nil => rw [rowRA, rxPop, hq] at h; cases h
    | cons r q => rw [rowRA_cons hq] at h; cases h; simp
  case ck =>
    rw [row_ck hp, rowCK] at h
    split_ifs at h
    · split at h <;> cases h <;> rfl
    · cases h; rfl
  case wp => rw [row_wp hp, rowWP] at h; cases h; exact poll_removed ⟨rfl, rfl⟩ ⟨rfl, rfl⟩
  case sp => rw [row_sp hp, rowSP] at h; cases h; rfl
  case rp =>
    rw [row_rp hp] at h
    cases hq : s.rx with
    | nil => rw [rowRP, rxPop, hq] at h; cases h
    | cons r q =>
      cases hd : dataSet s.data s.rxi r with
      | none => rw [rowRP, rxPop_cons hq] at h; dsimp only at h; rw [hd] at h; cases h
      | some d => rw [rowRP_cons hq hd] at h; cases h; split_ifs <;> simp
  case wd => rw [row_wd hp, rowWD] at h; cases h; exact poll_removed ⟨rfl, rfl⟩ ⟨rfl, rfl⟩
  case dc => rw [row_dc hp, rowDC] at h; cases h; split_ifs <;> rfl
  case sd => rw [row_sd hp, rowSD] at h; cases h; rfl
  case rd =>
    rw [row_rd hp] at h
    cases hq : s.rx with
    | nil => rw [rowRD, rxPop, hq] at h; cases h
    | cons r q =>
      by_cases hc : s.idBuf.length < s.cfg.identCap
      · rw [rowRD_cons hq hc] at h; cases h; simp
      · rw [rowRD_full hq (by omega)] at h; cases h

/-- Over a run the record and the queue together gain just the bytes that arrive with the moves it consumes. -/
theorem drive_removed {ms : List EnvMove} {s t : State} (h : drive ms s = .next t) :
    ∃ used, ms = used ++ t.env ∧ t.removed ++ t.rx = s.removed ++ (s.rx ++ arrived used) := by
  induction ms generalizing s with
  | nil =>
    rw [drive_nil] at h
    cases h
    exact ⟨[], rfl, by simp⟩
  | cons m ms ih =>
    by_cases hb : s.busy = true
    · rw [drive_busy _ _ hb] at h
      obtain ⟨u, hu, h⟩ := andThen_eq_next.1 h
      obtain ⟨used, h1, h2⟩ := ih h
      refine ⟨m :: used, by rw [h1]; rfl, ?_⟩
      rw [h2, ← List.append_assoc, row_removed hu]
      simp
    · rw [drive_idle _ (by simpa using hb)] at h
      cases h
      exact ⟨[], rfl, by simp⟩

/-- The same over a wire command (R88). -/
theorem exec_removed {i : Instr} {s t : State} (h : exec i s = .next t) :
    ∃ used, s.env = used ++ t.env ∧ t.removed ++ t.rx = s.removed ++ (s.rx ++ arrived used) := by
  cases hb : s.busy with
  | true => rw [exec_busy i hb] at h; cases h
  | false =>
    rw [exec_eq i hb] at h
    obtain ⟨used, h1, h2⟩ := drive_removed h
    exact ⟨used, h1, by simpa using h2⟩

/-! ### When `ok` is written -/

/-- What one row does to the result of the operation in progress (R20): the operation goes on and `ok` is untouched, or it has
ended and `ok` is valid, or it was a bare WAIT, which ends the host's call and writes no `ok`. -/
def Verdict (s t : State) : Prop :=
  (t.busy = true ∧ t.lat = s.lat ∧ t.ok = s.ok ∧ t.okValid = s.okValid) ∨ (t.busy = false ∧ t.okValid = true) ∨
  (s.lat.waitOnly = true ∧ t.busy = false ∧ t.call = none)

theorem verdict_goesOn {s t : State} (hb : t.busy = true) (hl : t.lat = s.lat) (ho : t.ok = s.ok)
    (hv : t.okValid = s.okValid) : Verdict s t := .inl ⟨hb, hl, ho, hv⟩

theorem verdict_ended {s t : State} (hb : t.busy = false) (hv : t.okValid = true) : Verdict s t := .inr (.inl ⟨hb, hv⟩)

theorem verdict_poll {b : Bool} {T : Millis} {k : WaitKind} {f g : State → State} {s u : State} (hb : u.busy = true)
    (hl : u.lat = s.lat) (ho : u.ok = s.ok) (hv : u.okValid = s.okValid) (hf : Verdict s (f u))
    (hg : Verdict s (g (logTimeout k u))) : Verdict s (poll b T k f g u) := by
  rcases poll_cases b T k f g u with ⟨-, h⟩ | ⟨-, -, -, h⟩ | ⟨-, -, h⟩ <;> rw [h]
  · exact hf
  · exact hg
  · exact verdict_goesOn hb hl ho hv

/-- After the frame the operation goes on or has ended with success. -/
theorem afterFrame_verdict {s t : State} (hb : s.busy = true) (h : afterFrame s = .next t) : Verdict s t := by
  rw [afterFrame] at h
  split at h
  · cases h; exact verdict_goesOn hb rfl rfl rfl
  · cases h; split_ifs <;> exact verdict_goesOn hb rfl rfl rfl
  · cases h; exact verdict_ended rfl rfl
  · cases h

/-- Every row of a busy machine. -/
theorem row_verdict {s t : State} (hb : s.busy = true) (h : row s = .next t) : Verdict s t := by
  cases hp : s.phase
  case idle => rw [row_idle hp] at h; cases h
  case wl =>
    rw [row_wl hp, rowWL] at h
    cases h
    obtain ⟨n, hn⟩ := readyLevel_snd s
    rw [hn]
    cases hw : s.lat.waitOnly
    · exact verdict_poll hb rfl rfl rfl (verdict_goesOn hb rfl rfl rfl) (verdict_ended rfl rfl)
    · exact verdict_poll hb rfl rfl rfl (.inr (.inr ⟨hw, rfl, rfl⟩)) (.inr (.inr ⟨hw, rfl, rfl⟩))
  case tx =>
    rw [row_tx hp, rowTX] at h
    split at h
    · split at h
      · cases h
      · split at h
        · cases h; exact verdict_goesOn hb rfl rfl rfl
        · exact afterFrame_verdict (s := sentByte _ s) hb h
    · cases h
  case wa =>
    rw [row_wa hp, rowWA] at h
    cases h
    cases hw : s.lat.waitOnly
    · exact verdict_poll hb rfl rfl rfl (verdict_goesOn hb rfl rfl rfl) (verdict_ended rfl rfl)
    · exact verdict_poll hb rfl rfl rfl (.inr (.inr ⟨hw, rfl, rfl⟩)) (.inr (.inr ⟨hw, rfl, rfl⟩))
  case sa => rw [row_sa hp, rowSA] at h; cases h; exact verdict_goesOn hb rfl rfl rfl
  case ra =>
    rw [row_ra hp] at h
    cases hq : s.rx with
    | nil => rw [rowRA, rxPop, hq] at h; cases h
    | cons r q => rw [rowRA_cons hq] at h; cases h; exact verdict_goesOn hb rfl rfl rfl
  case ck =>
    rw [row_ck hp, rowCK] at h
    split at h
    · split at h <;> cases h
      · exact verdict_goesOn hb rfl rfl rfl
      · exact verdict_ended rfl rfl
    · cases h; exact verdict_ended rfl rfl
  case wp =>
    rw [row_wp hp, rowWP] at h
    cases h
    exact verdict_poll hb rfl rfl rfl (verdict_goesOn hb rfl rfl rfl) (verdict_ended rfl rfl)
  case sp => rw [row_sp hp, rowSP] at h; cases h; exact verdict_goesOn hb rfl rfl rfl
  case rp =>
    rw [row_rp hp] at h
    cases hq : s.rx with
    | nil => rw [rowRP, rxPop, hq] at h; cases h
    | cons r q =>
      cases hd : dataSet s.data s.rxi r with
      | none => rw [rowRP, rxPop_cons hq] at h; dsimp only at h; rw [hd] at h; cases h
      | some d =>
        rw [rowRP_cons hq hd] at h
        cases h
        split_ifs
        · exact verdict_goesOn hb rfl rfl rfl
        · exact verdict_ended rfl rfl
  case wd =>
    rw [row_wd hp, rowWD] at h
    cases h
    exact verdict_poll hb rfl rfl rfl (verdict_goesOn hb rfl rfl rfl) (verdict_ended rfl rfl)
  case dc =>
    rw [row_dc hp, rowDC] at h
    cases h
    split_ifs
    · exact verdict_goesOn hb rfl rfl rfl
    · exact verdict_ended rfl rfl
  case sd => rw [row_sd hp, rowSD] at h; cases h; exact verdict_goesOn hb rfl rfl rfl
  case rd =>
    rw [row_rd hp] at h
    cases hq : s.rx with
    | nil => rw [rowRD, rxPop, hq] at h; cases h
    | cons r q =>
      by_cases hc : s.idBuf.length < s.cfg.identCap
      · rw [rowRD_cons hq hc] at h; cases h; exact verdict_goesOn hb rfl rfl rfl
      · rw [rowRD_full hq (by omega)] at h; cases h

/-- A wire operation writes `ok` when it ends and not before (R20). -/
theorem drive_verdict {ms : List EnvMove} {s t : State} (hb : s.busy = true) (hw : s.lat.waitOnly = false)
    (h : drive ms s = .next t) :
    if t.busy then t.ok = s.ok ∧ t.okValid = s.okValid else t.okValid = true := by
  induction ms generalizing s with
  | nil =>
    cases h
    exact (if_pos hb).mpr ⟨rfl, rfl⟩
  | cons m ms ih =>
    rw [drive_busy _ _ hb] at h
    obtain ⟨u, hu, h⟩ := andThen_eq_next.1 h
    rcases row_verdict (s := applyMove m (setEnv ms s)) hb hu with ⟨h1, h2, h3, h4⟩ | ⟨h1, h2⟩ | ⟨h1, -⟩
    · have := ih h1 (by rw [h2]; exact hw) h
      rw [h3, h4] at this
      exact this
    · rw [drive_idle _ h1] at h
      cases h
      exact (if_neg (by simp [h1])).mpr h2
    · exact absurd (hw.symm.trans h1) (by decide)

end Sys2Proof.Machine
end

