-- ==== Sys2Proof/Tests/Slice0.lean ====
section
/-! SUPPORT. Tests with expected results taken from 95_test_vectors.md and the rules, and for every statement with hypotheses a
concrete state and operands that meet them together (`witness_...`). -/

namespace Sys2Proof.Tests

open Sys2Proof.Machine

/-! ### Small states and moves -/

/-- A configured, idle framer with `LAST_ACK` 0xA5, an empty queue and these coming moves. -/
def base (env : List EnvMove) : State :=
  { State.reset with
    lastAck := 0xA5, init := true, rx := [], ready := .high, cfg := { identWaitData := true, identCap := 16 }, env := env }

/-- The same with both timeouts 5, so that a failing wait has two polls (V1 row 6). -/
def quick (env : List EnvMove) : State := { base env with tmoListen := 5, tmoData := 5 }

/-- The same with both timeouts 0, that is without deadlines (R66). -/
def endless (env : List EnvMove) : State := { base env with tmoListen := 0, tmoData := 0 }

/-- The environment does nothing; the line is HIGH. -/
def quiet : EnvMove := ⟨[], .high, []⟩

/-- The device listens. -/
def low : EnvMove := ⟨[], .low, []⟩

/-- These bytes arrive. -/
def sends (bytes : List Byte) : EnvMove := ⟨bytes, .high, []⟩

/-- The moves of a command of `n` frame bytes: LOW at the first poll, `bytes` at the first poll of the acknowledgment wait, then
`k` moves more. -/
def script (n : Nat) (bytes : List Byte) (k : Nat) : List EnvMove :=
  low :: (List.replicate n quiet ++ sends bytes :: List.replicate k quiet)

/-- What a vector of 95_test_vectors.md says of an end. -/
structure End where
  busy    : Bool
  ok      : Bool
  cause   : Option FailCause
  tx      : List Byte
  lastAck : Byte
  rx      : List Byte
  log     : List WaitKind
  deriving DecidableEq, Repr

/-- The end of a step, if it is a next state; `cause` only after a failure, since R116 leaves it open after a success. -/
def endOf : Result → Option End
  | .next s => some ⟨s.busy, s.ok, if s.ok then none else some s.cause, s.tx, s.lastAck, s.rx, s.log⟩
  | _ => none

/-- An end with success. -/
def success (tx : List Byte) (ack : Byte) (rx : List Byte) : Option End := some ⟨false, true, none, tx, ack, rx, []⟩

/-- An end in a failure. -/
def failure (c : FailCause) (tx : List Byte) (ack : Byte) (rx : List Byte) (log : List WaitKind) : Option End :=
  some ⟨false, false, some c, tx, ack, rx, log⟩

/-- A field of a next state. -/
def fieldOf {α : Type} (f : State → α) : Result → Option α
  | .next s => some (f s)
  | _ => none

/-- A step has a next state. -/
def isNext : Result → Bool
  | .next _ => true
  | _ => false

/-- The reason a step is refused. -/
def refusalOf : Result → Option Refusal
  | .refused r => some r
  | _ => none

/-! ### WellFormed: an ill-formed term for each check (R87, R39, R145) -/

/-- A STATUS descriptor, to be spoilt one field at a time. -/
def good : Descriptor := descriptorOf .status

theorem test_every_kind_of_command_well_formed :
    [Instr.rdpage 0xFF, .wrpage 8 0 0 0 0, .status, .uid, .ident, .progee 0 0].all Instr.wellFormed = true := by decide

theorem test_ill_formed_lengths :
    descriptorAdmitted { good with frame := [] } = false ∧
    descriptorAdmitted { good with frame := [1, 2, 3, 4, 5, 6, 7] } = false := by decide

theorem test_ill_formed_counts :
    descriptorAdmitted { good with pm := .fixed, pcnt := 5 } = false ∧
    descriptorAdmitted { good with pm := .fixed, pcnt := 0 } = false ∧
    descriptorAdmitted { good with pcnt := 1 } = false := by decide

theorem test_ill_formed_modes :
    descriptorAdmitted { good with pm := .fixed, pcnt := 4, ae := false } = false ∧
    descriptorAdmitted { good with pm := .drain } = false ∧
    descriptorAdmitted { good with wl := false } = false ∧
    descriptorAdmitted { good with ae := false } = false ∧
    descriptorAdmitted { sendByteDescriptor 1 with frame := [1, 2] } = false ∧
    descriptorAdmitted { descriptorOf .ident with frame := [0x7A, 0] } = false := by decide

theorem test_ill_formed_registers :
    operandsAdmitted (loadDescriptor OperandRegs.reset good) = true ∧
    operandsAdmitted { loadDescriptor OperandRegs.reset good with len := 0 } = false ∧
    operandsAdmitted { loadDescriptor OperandRegs.reset good with len := 7 } = false ∧
    operandsAdmitted { loadDescriptor OperandRegs.reset good with pm := 1, pcnt := 5 } = false ∧
    operandsAdmitted { loadDescriptor OperandRegs.reset good with pm := 3 } = false := by decide

theorem test_ill_formed_sequences :
    sequenceWellFormed (.authorizeTag [1, 2, 3] 0) = false ∧ sequenceWellFormed (.authorizeTag [1, 2, 3, 4] 60) = false ∧
    sequenceWellFormed (.writeEEPROMRange 0xFF [1, 2] 2) = false ∧ sequenceWellFormed (.writeEEPROMRange 9 [1] 2) = false ∧
    sequenceWellFormed (.setReaderPassword [1, 2, 3]) = false ∧ sequenceWellFormed (.setTagPassword [1, 2, 3, 4]) = false ∧
    sequenceWellFormed (.setTagPasswordInEEPROM []) = false ∧ sequenceWellFormed (.writeUserData [1]) = false ∧
    sequenceWellFormed (.writeTagPage 1 [1, 2, 3]) = false ∧ sequenceWellFormed (.writeEEPROMRange 0xFF [1] 1) = true := by
  decide

/-! ### Decoding: words written out from R54, R55 and V4 -/

theorem test_decode_rdpage :
    decodeFrame [0b01010010, 0b00000111] = some (.rdpage 7) ∧ decodeTableWord 16 0x0752 = some (.rdpage 7) := by decide

theorem test_decode_wrpage :
    decodeFrame [0b01010111, 0x03, 0xDE, 0xAD, 0xBE, 0xEF] = some (.wrpage 3 0xDE 0xAD 0xBE 0xEF) ∧
    decodeFrame [0x57, 0x57, 0x57, 0x57, 0x57, 0x57] = some (.wrpage 0x57 0x57 0x57 0x57 0x57) := by decide

theorem test_decode_status : decodeFrame [0b01010011] = some .status ∧ decodeTableWord 8 0x53 = some .status := by decide

theorem test_decode_uid : decodeFrame [0b01010101] = some .uid ∧ decodeTableWord 8 0x55 = some .uid := by decide

theorem test_decode_ident : decodeFrame [0b01111010] = some .ident ∧ decodeTableWord 8 0x7A = some .ident := by decide

theorem test_decode_progee :
    decodeFrame [0b01010000, 0x0C, 0xFF] = some (.progee 0x0C 0xFF) ∧
    decodeTableWord 24 0xFF0C50 = some (.progee 0x0C 0xFF) := by decide

theorem test_decode_refuses :
    decodeFrame [] = none ∧ decodeFrame [0x51] = none ∧ decodeFrame [0x52] = none ∧ decodeFrame [0x53, 0x53] = none := by decide

/-- V4, the cut of a transmit stream. -/
theorem test_cut_stream :
    cut [0x50, 0x0C, 0xFF, 0x52, 0x04, 0x53, 0x57, 0x01, 0x06, 0x11, 0x22, 0x33, 0x55, 0x7A] =
      .ok [.progee 0x0C 0xFF, .rdpage 4, .status, .wrpage 1 0x06 0x11 0x22 0x33, .uid, .ident] := rfl

/-- V4, the descriptors. -/
theorem test_descriptors :
    descriptorOf (.rdpage 7) = ⟨[0x52, 7], some 0x3E, true, true, .fixed, 4⟩ ∧
    descriptorOf (.wrpage 7 1 2 3 4) = ⟨[0x57, 7, 1, 2, 3, 4], some 0x3E, true, true, .none, 0⟩ ∧
    descriptorOf .status = ⟨[0x53], some 0x28, true, true, .none, 0⟩ ∧
    descriptorOf .uid = ⟨[0x55], some 0x3E, true, true, .fixed, 4⟩ ∧
    descriptorOf .ident = ⟨[0x7A], none, false, true, .drain, 0⟩ ∧
    descriptorOf (.progee 0x0C 0xFF) = ⟨[0x50, 0x0C, 0xFF], some 0x01, true, true, .none, 0⟩ := by decide

/-! ### The wait, the comparison and the acknowledgment bits -/

/-- V1 rows 2, 7, 8, 10. -/
theorem test_wait_vectors :
    waitFor 1000 0 [false, false, false, true] = .holds 15 [] ∧ waitFor 5 0 [false, true] = .holds 5 [] ∧
    waitFor 1 0 [false, false, true] = .timedOut 5 [true] ∧ waitFor 6 0 [false, false, false] = .timedOut 10 [] := by decide

/-- R73: 65535 is reached without a wrap (V1 row 13 ends there); a sleep adds 5 (V1 row 7). -/
theorem test_elapsed_reaches_the_last_sleep : afterSleep 65530 = 65535 ∧ afterSleep 0 = 5 := by decide

/-- V1 rows 13 and 15 at their last sample: at 65535 a deadline of 65535 has passed, and a timeout of 0 has none. -/
theorem test_deadline_at_the_last_sleep :
    waitFor 65535 65535 [false] = .timedOut 65535 [] ∧ waitFor 65535 65530 [false, false] = .timedOut 65535 [] ∧
    deadlinePassed 0 65535 = false := by decide

/-- V2. -/
theorem test_comparison_vectors :
    [0xD6, 0xD7, 0x16, 0x56, 0x97].all (ackAccepted · 0x3E) = true ∧
    [0xC6, 0xF6, 0xDE, 0xD2, 0xD4, 0x00, 0xFF].any (ackAccepted · 0x3E) = false ∧
    [0xD6, 0xC6, 0x00, 0xD7, 0x17].all (ackAccepted · 0x28) = true ∧ [0xF6, 0xDE, 0xFF].any (ackAccepted · 0x28) = false ∧
    [0xD6, 0x00, 0xFE, 0xF6, 0xDE].all (ackAccepted · 0x01) = true ∧ [0xD7, 0x01, 0xFF].any (ackAccepted · 0x01) = false := by
  decide

/-- The named bits of a byte, in the order of V8. -/
def bitsOf (r : Byte) : List Bool :=
  [antennaFault r, relayEnabled r, serialError r, receiveOkay r, tagOkay r, eepromError r]

/-- V8. -/
theorem test_acknowledgment_bits :
    bitsOf 0xD6 = [false, true, false, true, true, false] ∧ bitsOf 0xD7 = [false, true, false, true, true, true] ∧
    bitsOf 0xC6 = [false, false, false, true, true, false] ∧ bitsOf 0xF6 = [true, true, false, true, true, false] ∧
    bitsOf 0xDE = [false, true, true, true, true, false] ∧ bitsOf 0xD4 = [false, true, false, true, false, false] := by decide

/-! ### The commands -/

/-- V5 row 1. -/
theorem test_rdpage_payload :
    fieldOf (·.data) (exec (.rdpage 4) (base (script 2 [0xD6, 1, 2, 3, 4] 15))) = some ⟨1, 2, 3, 4⟩ ∧
    endOf (exec (.rdpage 4) (base (script 2 [0xD6, 1, 2, 3, 4] 15))) = success [0x52, 4] 0xD6 [] := by decide

/-- V5 row 3. -/
theorem test_rdpage_bad_acknowledgment :
    endOf (exec (.rdpage 4) (base (script 2 [0xD4, 1, 2, 3, 4] 15))) =
      failure .ackMismatch [0x52, 4] 0xD4 [1, 2, 3, 4] [] := by decide

/-- What an observer sees of the next state of a step. -/
def seen (r : Result) : Option Observation := fieldOf observe r

/-- R10, R16: while RDPAGE reads its payload an observer sees the bytes it has removed and no output buffer, though `DATA` held a
payload before. -/
theorem test_observer_sees_no_partial_payload :
    seen (exec (.rdpage 4) { base (script 2 [0xD6, 1, 2] 6) with dataValid := 4 }) =
      some ⟨[0x52, 4], [0xD6, 1], none, [], 0xD6, [], none, []⟩ := by decide

/-- R10: the payload byte that was removed before a PayloadTimeout is seen (V5 row 4). -/
theorem test_observer_sees_the_removed_bytes :
    seen (exec .uid (quick (script 1 [0xD6, 1, 2] 11))) =
      some ⟨[0x55], [0xD6, 1, 2], some false, [], 0xD6, [], some [], [.data]⟩ := by decide

/-- R20, R33: `ok` is not valid at reset, nor after the host's reset, nor while an operation runs; it is once one has ended. -/
theorem test_ok_is_seen_once_an_operation_has_ended :
    (observe State.reset).ok = none ∧
    fieldOf definedOk (step { base [] with ok := true, okValid := true, host := [.reset] }) = some none ∧
    fieldOf definedOk (exec .status { base (script 1 [0xD6] 1) with okValid := true }) = some none ∧
    fieldOf definedOk (exec .status (base (script 1 [0xD6] 3))) = some (some true) := by decide

/-- V6 rows 1 and 2. -/
theorem test_wrpage_acknowledgments :
    endOf (exec (.wrpage 3 0xDE 0xAD 0xBE 0xEF) (base (script 6 [0xD6] 3))) =
      success [0x57, 3, 0xDE, 0xAD, 0xBE, 0xEF] 0xD6 [] ∧
    endOf (exec (.wrpage 3 0xDE 0xAD 0xBE 0xEF) (base (script 6 [0xC6] 3))) =
      failure .ackMismatch [0x57, 3, 0xDE, 0xAD, 0xBE, 0xEF] 0xC6 [] [] := by decide

/-- V6 rows 5 and 6; V3 row 6. -/
theorem test_status_acknowledgments :
    endOf (exec .status (base (script 1 [0xC6] 3))) = success [0x53] 0xC6 [] ∧
    endOf (exec .status (base (script 1 [0xF6] 3))) = failure .ackMismatch [0x53] 0xF6 [] [] ∧
    endOf (exec .status (base (script 1 [0xD6, 0xAA] 3))) = success [0x53] 0xD6 [0xAA] := by decide

/-- V3 row 7: a stale byte is taken as the acknowledgment. -/
theorem test_status_stale_byte :
    endOf (exec .status { base (script 1 [0xD6] 3) with rx := [0xDE] }) = failure .ackMismatch [0x53] 0xDE [0xD6] [] := by decide

/-- V5 rows 9 and 7. -/
theorem test_uid_payload :
    endOf (exec .uid (base (script 1 [0xD6, 1, 2, 3, 4, 5] 15))) = success [0x55] 0xD6 [5] ∧
    fieldOf (·.data) (exec .uid (base (script 1 [0xD6, 0x04, 0xA1, 0xB2, 0xC3] 15))) = some ⟨0x04, 0xA1, 0xB2, 0xC3⟩ := by
  decide

/-- V5 rows 4 (UID's payload read is RDPAGE's) and 10, with the deadline of V1 row 6. -/
theorem test_uid_failures :
    endOf (exec .uid (quick (script 1 [0xD6, 1, 2] 11))) = failure .payloadTimeout [0x55] 0xD6 [] [.data] ∧
    endOf (exec .uid (quick (script 1 [] 1))) = failure .noResponse [0x55] 0xA5 [] [.data] := by decide

/-- V9 rows 4 and 8, with the identifier's first three bytes. -/
theorem test_ident_drains :
    endOf (exec .ident (base (script 1 [0x52, 0x57, 0x44] 10 ++ [sends [0x20]]))) = success [0x7A] 0xA5 [] ∧
    fieldOf (·.idBuf) (exec .ident (base (script 1 [0x52, 0x57, 0x44] 10 ++ [sends [0x20]]))) = some [0x52, 0x57, 0x44] ∧
    fieldOf (·.idBuf) (exec .ident { base (script 1 [0x52, 0x57, 0x44] 13) with rx := [0xD6] }) =
      some [0xD6, 0x52, 0x57, 0x44] := by decide

/-- V9 rows 3 and 5. -/
theorem test_ident_without_bytes :
    endOf (exec .ident { base (script 1 [] 0) with cfg := { identWaitData := false, identCap := 16 } }) =
      success [0x7A] 0xA5 [] ∧
    endOf (exec .ident (quick [quiet, quiet])) = failure .notListening [] 0xA5 [] [.listen] := by decide

/-- V6 rows 9 and 10. -/
theorem test_progee_acknowledgments :
    endOf (exec (.progee 0x0C 0xFF) (base (script 3 [0xF6] 3))) = success [0x50, 0x0C, 0xFF] 0xF6 [] ∧
    endOf (exec (.progee 0x0C 0xFF) (base (script 3 [0xD7] 3))) =
      failure .ackMismatch [0x50, 0x0C, 0xFF] 0xD7 [] [] := by decide

/-! ### The generic operations and the host -/

/-- V3 rows 11 and 12. -/
theorem test_send_command :
    endOf (step { base (script 6 [0xD6] 3) with host := [.sendCommand [1, 2, 3, 4, 5, 6] 0xFF] }) =
      success [1, 2, 3, 4, 5, 6] 0xD6 [] ∧
    endOf (step { base (script 4 [0x00] 3) with host := [.sendCommand [0xAA, 0xBB, 0xCC, 0xDD] 0x00] }) =
      success [0xAA, 0xBB, 0xCC, 0xDD] 0x00 [] := by decide

/-- V3 row 13. -/
theorem test_refused_starts :
    refusalOf (step { base [] with host := [.sendCommand [] 0] }) = some .frameLength ∧
    refusalOf (step { base [] with host := [.sendCommand [1, 2, 3, 4, 5, 6, 7] 0] }) = some .frameLength ∧
    refusalOf (exec .status { base [] with busy := true }) = some .startWhileBusy := by decide

/-- V7 rows 1 and 2. -/
theorem test_send_byte :
    endOf (step { base [quiet] with host := [.sendByte 0x7A] }) = success [0x7A] 0xA5 [] ∧
    endOf (step { base [quiet] with rx := [0xD6], host := [.sendByte 0x00] }) = success [0x00] 0xA5 [0xD6] := by decide

/-- R33, R133: a reset between two operations restores the timeouts and leaves the queue and the stream. -/
theorem test_reset_keeps_the_environment :
    fieldOf (fun t => (t.tmoData, t.init, t.rx, t.tx)) (step { quick [] with rx := [1], tx := [2], host := [.reset] }) =
      some (1000, false, [1], [2]) := by decide

/-- R17, R33: the identifier buffer is empty after reset, and that is what the host reads. -/
theorem test_ident_buffer_is_empty_after_reset :
    fieldOf (·.results) (step { base [] with host := [.readIdent] }) = some [{ value := true, out := [] }] := by decide

/-- The registers of SENDCMD + READBYTES with `n` payload bytes after the frame 53 (R82, R87). -/
def readRegisters (n : BitVec 3) : OperandRegs :=
  { loadDescriptor OperandRegs.reset good with pm := 1, pcnt := n }

/-- R82, R87: a count of 2 reads two bytes into `DATA[0]` and `DATA[1]` and leaves the third in the queue. -/
theorem test_payload_of_two :
    endOf (step { base (script 1 [0xD6, 0x11, 0x22, 0x33] 9) with opnd := readRegisters 2, host := [.start] }) =
      success [0x53] 0xD6 [0x33] ∧
    fieldOf (fun t => (t.data.b0, t.data.b1))
      (step { base (script 1 [0xD6, 0x11, 0x22, 0x33] 9) with opnd := readRegisters 2, host := [.start] }) =
      some (0x11, 0x22) := by decide

/-- R60: bytes that are not one of the six commands are no wire command; R39, R98: refused sequences. -/
theorem test_refused_operations :
    refusalOf (step { base [] with host := [.wire [0x53, 0x53]] }) = some .notAWireCommand ∧
    refusalOf (step { base [] with host := [.sequence (.authorizeTag [1, 2, 3, 4] 60)] }) = some .slotPastEnd ∧
    refusalOf (step { base [] with host := [.sequence (.writeEEPROMRange 0xFF [1, 2] 2)] }) = some .rangePastEnd ∧
    refusalOf (step { base [] with host := [.sequence (.writeUserData [1])] }) = some .operandLength := by decide

/-- V10: frames on full success. -/
theorem test_sequence_frames :
    framesOf (commandsOf (.writeEEPROMRange 9 [0xAA, 0xBB, 0xCC] 3)) = [0x50, 9, 0xAA, 0x50, 0x0A, 0xBB, 0x50, 0x0B, 0xCC] ∧
    framesOf (commandsOf (.writeEEPROMRange 0xFE [1, 2] 2)) = [0x50, 0xFE, 1, 0x50, 0xFF, 2] ∧
    framesOf (commandsOf (.writeEEPROMRange 0x20 [] 0)) = [] ∧
    framesOf (commandsOf (.authorizeTag [0xDE, 0xAD, 0xBE, 0xEF] 1)) =
      [0x50, 0x10, 0xDE, 0x50, 0x11, 0xAD, 0x50, 0x12, 0xBE, 0x50, 0x13, 0xEF] ∧
    framesOf (commandsOf (.writeUserData [0, 1, 2, 3, 4, 5, 6, 7, 8, 9, 10, 11, 12, 13, 14, 15])) =
      [0x57, 4, 0, 1, 2, 3, 0x57, 5, 4, 5, 6, 7, 0x57, 6, 8, 9, 10, 11, 0x57, 7, 12, 13, 14, 15] ∧
    framesOf (commandsOf .readUserData) = [0x52, 4, 0x52, 5, 0x52, 6, 0x52, 7] := by decide

/-- V11: `begin(true)` sets `INIT` and sends the first frame before its acknowledgment is known. -/
theorem test_begin_issues_first_command :
    fieldOf (·.init) (step { base [] with init := false, host := [.beginFramer true] }) = some true ∧
    endOf (step { base (script 3 [0xD7] 3) with init := false, host := [.beginFramer true] }) =
      failure .ackMismatch [0x50, 0x0C, 0xFF] 0xD7 [] [] := by decide

/-- A table word placed at reset is run by the next step: the operation is in progress with its frame latched. -/
theorem test_word_runs_from_reset :
    fieldOf (fun t => (t.busy, t.phase, t.lat.len, t.lat.mask, t.lat.x.x1)) (step (State.reset.withFetchWord 24 0xFF0C50)) =
      some (true, .wl, 3, 0x01, 0x0C) := by decide

/-- R29: TAG byte 2 of page 7 is the place 30, and a store there reads back and leaves its neighbour. -/
theorem test_device_store :
    memRead (storeTag [.tag 7 2 0x99] []) 30 = some 0x99 ∧ memRead (storeTag [.tag 7 2 0x99] [(29, 1)]) 29 = some 1 ∧
    memRead (storeEe [.ee 0xFF 0x5A, .ee 0xFF 0x5B] []) 255 = some 0x5B := by decide

/-! ### Witnesses: for each statement with hypotheses, values that meet all of them together -/

theorem witness_cutStreamIsItsFrames : cut [0x50, 0x52, 0x53, 0x55] = .ok [.progee 0x52 0x53, .uid] := rfl

/-- The lengths next to the bounds of both clauses. -/
theorem witness_otherStreamsAreRefusedByName :
    (0x51 : Byte) ∉ [(0x52 : Byte), 0x57, 0x53, 0x55, 0x7A, 0x50] ∧ ([] : List Byte).length < 5 ∧
    [(1 : Byte), 2, 3, 4].length < 5 ∧ [(1 : Byte)].length < 2 := by decide

theorem witness_stepRunsTheDecodedCommand :
    let s := { base [] with host := [.wire [0x52, 4], .getAck] }
    s.busy = false ∧ s.call = none ∧ s.host = .wire [0x52, 4] :: [.getAck] ∧ decodeFrame [0x52, 4] = some (.rdpage 4) ∧
      (Instr.rdpage 4).wellFormed = true := by decide

theorem witness_resetLeavesTheStatedValues :
    { base [] with host := [.reset] }.busy = false ∧ { base [] with host := [.reset] }.call = none ∧
    { base [] with host := [.reset] }.host = .reset :: [] := by decide

/-- An idle state that is not the reset state. -/
def idleState : State := { base [] with idBuf := [1, 2], tag := [(0, 9), (31, 8)], ee := [(255, 7)], dataValid := 4 }

/-- A running operation in the middle of its acknowledgment wait. -/
def runningState : State :=
  { quick [sends [0xD6]] with
    busy := true, phase := .wa, elapsed := 5
    lat := { latchOperands (loadDescriptor OperandRegs.reset good) .none 5 5 with waitOnly := false } }

theorem idleState_meets_the_invariant : Invariant idleState :=
  { busy_iff := by decide
    running := fun h => absurd h (by decide)
    tag_wf := by decide
    ee_wf := by decide
    ident := by decide
    data := by decide
    verdict := fun _ => by decide }

theorem runningState_meets_the_invariant : Invariant runningState :=
  { busy_iff := by decide
    running := fun _ => ⟨by decide, .inr rfl, fun _ => by decide⟩
    tag_wf := by decide
    ee_wf := by decide
    ident := by decide
    data := by decide
    verdict := fun _ => by decide }

/-- The invariant where the host waits for a call's return and the operation has ended. -/
theorem a_return_outstanding_meets_the_invariant :
    Invariant { idleState with okValid := true, call := some (singleCall .nothing) } :=
  { idleState_meets_the_invariant with verdict := fun _ _ => rfl }

/-- The invariant in an idle and in a running state, with the next state each steps to. -/
theorem witness_everyStepKeepsTheInvariant :
    Invariant { idleState with host := [.getAck] } ∧
    step { idleState with host := [.getAck] } = .next { idleState with results := [{ value := true, out := [0xA5] }] } ∧
    Invariant runningState ∧ isNext (step runningState) = true :=
  ⟨{ idleState_meets_the_invariant with }, rfl, runningState_meets_the_invariant, by decide⟩

theorem witness_noStepFaultsOrPopsAnEmptyQueue : Invariant runningState := runningState_meets_the_invariant

/-- How a procedure ended, as a number: returned, failed, unfinished, stopped. -/
def armOf : Ended → Nat
  | .returned _ => 0
  | .failed _ _ => 1
  | .unfinished => 2
  | .stopped _ => 3

/-- Every arm of the comparison is reached from an idle framer. -/
theorem witness_sequencerAgreesWithTheProcedures :
    (base []).busy = false ∧ armOf (procedureOf .status (base (script 1 [0xD6] 3))) = 0 ∧
    armOf (procedureOf .status (base (script 1 [0xF6] 3))) = 1 ∧ armOf (procedureOf .status (base (script 1 [] 3))) = 2 ∧
    armOf (procedureOf .ident
      { base (script 1 [1, 2] 6) with cfg := { identWaitData := true, identCap := 1 } }) = 3 := by decide

/-- A run that is cut while it goes on, one that is cut after its end, and a busy machine with a listed move. -/
theorem witness_aRunMayBeCutAtAnyMove :
    fieldOf (·.busy) (drive [quiet] { runningState with elapsed := 0 }) = some true ∧
    fieldOf (·.busy) (drive [sends [0xD6], quiet, quiet, quiet, quiet] runningState) = some false ∧
    runningState.busy = true ∧ runningState.env = sends [0xD6] :: [] := by decide

theorem witness_maskedComparisonDecidesSuccess :
    (0xD6 : Byte) &&& 0x3E = 0xD7 &&& 0x3E ∧ { base [] with phase := .ck }.phase = .ck ∧
    { base [] with phase := .ck }.lat.pm = .none ∧
    { base [] with phase := .ck, lat := { Latched.reset with pm := .fixed } }.lat.pm = .fixed := by decide

/-- The two ends of the range of `k`. -/
theorem witness_waitCountsItsPolls : (1000 : Millis) ≠ 0 ∧ 0 ≤ failingSleeps (1000 : Millis).toNat ∧ 200 ≤ failingSleeps (1000 : Millis).toNat := by decide

/-- Without a deadline; at the last poll before one; and a wait that fails. -/
theorem witness_waitIsAFunctionOfItsSamples :
    ((0 : Millis) = 0 ∨ 1000 ≤ failingSleeps (0 : Millis).toNat) ∧
    ((1000 : Millis) = 0 ∨ 200 ≤ failingSleeps (1000 : Millis).toNat) ∧ (6 : Millis) ≠ 0 ∧
    failingSleeps (6 : Millis).toNat < [false, false, false, true].length ∧
    (∀ k, k ≤ failingSleeps (6 : Millis).toNat → [false, false, false, true][k]? = some false) := by
  refine ⟨by decide, by decide, by decide, by decide, fun k hk => ?_⟩
  have : k ≤ 2 := hk
  interval_cases k <;> rfl

theorem witness_waitWithoutDeadlineNeverTimesOut : true ∈ [false, true] ∧ true ∉ [false, false] := by decide

/-- Each of the three arms, the greatest timeout among them. -/
theorem witness_elapsedFitsSixteenBits :
    (65535 : Millis) ≠ 0 ∧ waitFor 65535 0 [false, true] = .holds 5 [] ∧
    waitFor 1 0 [false, false] = .timedOut 5 [] ∧ waitFor 65535 0 [false] = .waiting 5 := by
  decide

/-- A state that polls in phase `p`, with both timeouts 5. -/
def polling (p : Phase) : State :=
  { quick [] with
    busy := true, phase := p
    lat := latchOperands (loadDescriptor OperandRegs.reset good) .none 5 5 }

/-- The three ends of a listen wait. -/
theorem witness_listenPollsAreTheWait :
    (polling .wl).busy = true ∧ (polling .wl).phase = .wl ∧ (polling .wl).init = true ∧ (polling .wl).lat.waitOnly = false ∧
    waitFor (polling .wl).lat.tmoListen (polling .wl).elapsed (listenSamples [quiet, low]) = .holds 5 [] ∧
    waitFor (polling .wl).lat.tmoListen (polling .wl).elapsed (listenSamples [quiet, quiet]) = .timedOut 5 [] ∧
    waitFor (polling .wl).lat.tmoListen (polling .wl).elapsed (listenSamples [quiet]) = .waiting 5 := by decide

/-- The three ends of a data wait. -/
theorem witness_dataPollsAreTheWait :
    (polling .wa).busy = true ∧ (polling .wa).phase = .wa ∧ (polling .wa).lat.waitOnly = false ∧
    waitFor (polling .wa).lat.tmoData (polling .wa).elapsed (dataSamples [] [quiet, sends [1]]) = .holds 5 [] ∧
    waitFor (polling .wa).lat.tmoData (polling .wa).elapsed (dataSamples [] [quiet, quiet]) = .timedOut 5 [] ∧
    waitFor (polling .wa).lat.tmoData (polling .wa).elapsed (dataSamples [] [quiet]) = .waiting 5 := by decide

/-- Both kinds of wait and both results. -/
theorem witness_bareWaitReturnsItsBoolean :
    let s := { base [quiet, low, quiet] with host := [.wait .listen 5] }
    let d := { base [quiet, quiet] with host := [.wait .data 5] }
    (Ready s ∧ s.call = none ∧ s.host = .wait .listen 5 :: [] ∧ s.env = [quiet, low] ++ [quiet] ∧
      waitFor 5 0 (listenSamples [quiet, low]) = .holds 5 []) ∧
    (Ready d ∧ d.call = none ∧ d.host = .wait .data 5 :: [] ∧ d.env = [quiet, quiet] ++ [] ∧
      waitFor 5 0 (dataSamples d.rx [quiet, quiet]) = .timedOut 5 []) := by
  simp only [Ready]; decide

/-- The hypotheses of a command with an acknowledgment and `n` frame bytes, met together at a state with the moves
`script n bytes 3` and moves after them. -/
theorem answered_hypotheses (n : Nat) (b : Byte) (bytes : List Byte) (rest : List EnvMove) :
    let s := base (script n (b :: bytes) 3 ++ rest)
    Ready s ∧ s.env = [low] ++ List.replicate n quiet ++ [sends (b :: bytes)] ++ [quiet, quiet, quiet] ++ rest ∧
      Listens s.tmoListen [low] ∧ (List.replicate n quiet).length = n ∧
      Answers s.tmoData (s.rx ++ arrived ([low] ++ List.replicate n quiet)) [sends (b :: bytes)] ∧
      [quiet, quiet, quiet].length = 3 := by
  have hq : arrived ([low] ++ List.replicate n quiet) = [] := by simp [arrived, low, quiet]
  refine ⟨⟨rfl, rfl⟩, ?_, ⟨0, rfl⟩, by simp, ⟨0, ?_⟩, rfl⟩
  · simp [base, script, List.replicate]
  · rw [hq]; rfl

theorem witness_wrpageCompletes :
    let s := base (script 6 [0xD6] 3 ++ [quiet])
    Ready s ∧ s.env = [low] ++ List.replicate 6 quiet ++ [sends [0xD6]] ++ [quiet, quiet, quiet] ++ [quiet] ∧
      Listens s.tmoListen [low] ∧ (List.replicate 6 quiet).length = 6 ∧
      Answers s.tmoData (s.rx ++ arrived ([low] ++ List.replicate 6 quiet)) [sends [0xD6]] ∧
      [quiet, quiet, quiet].length = 3 := answered_hypotheses 6 0xD6 [] [quiet]

theorem witness_statusCompletes :
    let s := base (script 1 [0xD6] 3 ++ [])
    Ready s ∧ s.env = [low] ++ List.replicate 1 quiet ++ [sends [0xD6]] ++ [quiet, quiet, quiet] ++ [] ∧
      Listens s.tmoListen [low] ∧ (List.replicate 1 quiet).length = 1 ∧
      Answers s.tmoData (s.rx ++ arrived ([low] ++ List.replicate 1 quiet)) [sends [0xD6]] ∧
      [quiet, quiet, quiet].length = 3 := answered_hypotheses 1 0xD6 [] []

theorem witness_progeeCompletes :
    let s := base (script 3 [0xD7] 3 ++ [])
    Ready s ∧ s.env = [low] ++ List.replicate 3 quiet ++ [sends [0xD7]] ++ [quiet, quiet, quiet] ++ [] ∧
      Listens s.tmoListen [low] ∧ (List.replicate 3 quiet).length = 3 ∧
      Answers s.tmoData (s.rx ++ arrived ([low] ++ List.replicate 3 quiet)) [sends [0xD7]] ∧
      [quiet, quiet, quiet].length = 3 := answered_hypotheses 3 0xD7 [] []

/-- The moves of a payload byte that is there at its first poll. -/
def byteReady : ByteMoves := ⟨[quiet], quiet, quiet⟩

/-- The moves of a payload byte that arrives before the second poll of its wait. -/
def byteLate (b : Byte) : ByteMoves := ⟨[quiet, sends [b]], quiet, quiet⟩

theorem witness_rdpageCompletes :
    let bs := [byteReady, byteReady, byteReady, byteLate 4]
    let s := base (script 2 [0xD7, 1, 2, 3] 3 ++ (bs.flatMap ByteMoves.moves ++ [low]))
    Ready s ∧
      s.env = [low] ++ [quiet, quiet] ++ [sends [0xD7, 1, 2, 3]] ++ [quiet, quiet, quiet] ++ bs.flatMap ByteMoves.moves ++ [low] ∧
      Listens s.tmoListen [low] ∧ [quiet, quiet].length = 2 ∧
      Answers s.tmoData (s.rx ++ arrived ([low] ++ [quiet, quiet])) [sends [0xD7, 1, 2, 3]] ∧
      [quiet, quiet, quiet].length = 3 ∧
      s.rx ++ arrived ([low] ++ [quiet, quiet] ++ [sends [0xD7, 1, 2, 3]] ++ [quiet, quiet, quiet]) = 0xD7 :: [1, 2, 3] ∧
      (0xD7 : Byte) &&& 0x3E = 0x16 ∧ bs.length = 4 ∧ PayloadArrives s.tmoData [1, 2, 3] bs :=
  ⟨⟨rfl, rfl⟩, rfl, ⟨0, rfl⟩, rfl, ⟨0, rfl⟩, rfl, rfl, rfl, rfl, ⟨0, rfl⟩, ⟨0, rfl⟩, ⟨0, rfl⟩, ⟨5, rfl⟩, trivial⟩

theorem witness_uidCompletes :
    let bs := [byteReady, byteReady, byteReady, byteReady]
    let s := base (script 1 [0xD6, 1, 2, 3, 4, 5] 3 ++ bs.flatMap ByteMoves.moves)
    Ready s ∧
      s.env = [low] ++ [quiet] ++ [sends [0xD6, 1, 2, 3, 4, 5]] ++ [quiet, quiet, quiet] ++ bs.flatMap ByteMoves.moves ++ [] ∧
      Listens s.tmoListen [low] ∧ [quiet].length = 1 ∧
      Answers s.tmoData (s.rx ++ arrived ([low] ++ [quiet])) [sends [0xD6, 1, 2, 3, 4, 5]] ∧ [quiet, quiet, quiet].length = 3 ∧
      s.rx ++ arrived ([low] ++ [quiet] ++ [sends [0xD6, 1, 2, 3, 4, 5]] ++ [quiet, quiet, quiet]) = 0xD6 :: [1, 2, 3, 4, 5] ∧
      (0xD6 : Byte) &&& 0x3E = 0x16 ∧ bs.length = 4 ∧ PayloadArrives s.tmoData [1, 2, 3, 4, 5] bs :=
  ⟨⟨rfl, rfl⟩, rfl, ⟨0, rfl⟩, rfl, ⟨0, rfl⟩, rfl, rfl, rfl, rfl, ⟨0, rfl⟩, ⟨0, rfl⟩, ⟨0, rfl⟩, ⟨0, rfl⟩, trivial⟩

/-- The moves of a drained byte, with `b` arriving during its check. -/
def drained (b : List Byte) : DrainMoves := ⟨sends b, quiet, quiet⟩

/-- Both values of `IDENT_WAIT_DATA`: two bytes that fill the buffer, and none in a buffer of capacity 0. -/
theorem witness_identCompletes :
    let ds := [drained [], drained [0x57]]
    let s := { base (low :: quiet :: sends [0x52] :: (ds.flatMap DrainMoves.moves ++ [quiet])) with
      cfg := { identWaitData := true, identCap := 2 } }
    let u := { base [low, quiet, quiet] with cfg := { identWaitData := false, identCap := 0 } }
    (Ready s ∧ s.env = [low] ++ [quiet] ++ [sends [0x52]] ++ ds.flatMap DrainMoves.moves ++ [quiet] ++ [] ∧
      Listens s.tmoListen [low] ∧
      (if s.cfg.identWaitData then Answers s.tmoData (s.rx ++ arrived ([low] ++ [quiet])) [sends [0x52]]
        else [sends [0x52]] = []) ∧
      Drains (s.rx ++ arrived ([low] ++ [quiet] ++ [sends [0x52]])) ds quiet ∧ ds.length ≤ s.cfg.identCap) ∧
    (Ready u ∧ u.env = [low] ++ [quiet] ++ [] ++ [].flatMap DrainMoves.moves ++ [quiet] ++ [] ∧ Listens u.tmoListen [low] ∧
      (if u.cfg.identWaitData then Answers u.tmoData (u.rx ++ arrived ([low] ++ [quiet])) [] else ([] : List EnvMove) = []) ∧
      Drains (u.rx ++ arrived ([low] ++ [quiet] ++ [])) [] quiet ∧ 0 ≤ u.cfg.identCap) :=
  ⟨⟨⟨rfl, rfl⟩, rfl, ⟨0, rfl⟩, ⟨0, rfl⟩, ⟨by decide, by decide, rfl⟩, by decide⟩,
    ⟨⟨rfl, rfl⟩, rfl, ⟨0, rfl⟩, rfl, rfl, by decide⟩⟩

theorem witness_neverListeningFailsUnsent :
    let s := quick ([quiet, quiet] ++ [low])
    Ready s ∧ s.tmoListen ≠ 0 ∧ s.env = [quiet, quiet] ++ [low] ∧ [quiet, quiet].length = failingPolls s.tmoListen.toNat ∧
      (∀ m ∈ [quiet, quiet], m.ready = .high) :=
  ⟨⟨rfl, rfl⟩, by decide, rfl, rfl, by decide⟩

/-- The frames of 1 and of 6 bytes. -/
theorem witness_genericSendFailsWhenNotListening :
    let s := { quick [quiet, quiet] with host := [.sendCommand [1, 2, 3, 4, 5, 6] 0xFF] }
    (Ready s ∧ s.call = none ∧ s.host = .sendCommand [1, 2, 3, 4, 5, 6] 0xFF :: [] ∧
      1 ≤ [(1 : Byte), 2, 3, 4, 5, 6].length ∧ [(1 : Byte), 2, 3, 4, 5, 6].length ≤ 6 ∧ s.tmoListen ≠ 0 ∧
      s.env = [quiet, quiet] ++ [] ∧ [quiet, quiet].length = failingPolls s.tmoListen.toNat ∧
      (∀ m ∈ [quiet, quiet], m.ready = .high)) ∧
    1 ≤ [(0xAA : Byte)].length ∧ [(0xAA : Byte)].length ≤ 6 :=
  ⟨⟨⟨rfl, rfl⟩, rfl, rfl, by decide, by decide, by decide, rfl, rfl, by decide⟩, by decide, by decide⟩

theorem witness_noResponseFailsAfterTheFrame :
    let s := quick ([low] ++ [quiet] ++ [quiet, quiet])
    Instr.status ≠ .ident ∧ Ready s ∧ s.tmoData ≠ 0 ∧ s.env = [low] ++ [quiet] ++ [quiet, quiet] ++ [] ∧
      Listens s.tmoListen [low] ∧ [quiet].length = (encode .status).length ∧
      [quiet, quiet].length = failingPolls s.tmoData.toNat ∧ s.rx = [] ∧ arrived ([low] ++ [quiet] ++ [quiet, quiet]) = [] :=
  ⟨by decide, ⟨rfl, rfl⟩, by decide, rfl, ⟨0, rfl⟩, rfl, rfl, rfl, rfl⟩

theorem witness_identWithoutResponseFails :
    let s := quick ([low] ++ [quiet] ++ [quiet, quiet])
    Ready s ∧ s.tmoData ≠ 0 ∧ s.cfg.identWaitData = true ∧ s.env = [low] ++ [quiet] ++ [quiet, quiet] ++ [] ∧
      Listens s.tmoListen [low] ∧ [quiet, quiet].length = failingPolls s.tmoData.toNat ∧ s.rx = [] ∧
      arrived ([low] ++ [quiet] ++ [quiet, quiet]) = [] :=
  ⟨⟨rfl, rfl⟩, by decide, rfl, rfl, ⟨0, rfl⟩, rfl, rfl, rfl⟩

theorem witness_badAcknowledgmentLeavesThePayload :
    let s := base (script 2 [0xD4, 1, 2, 3, 4] 3)
    (descriptorOf (.rdpage 4)).pm = .fixed ∧ Ready s ∧
      s.env = [low] ++ [quiet, quiet] ++ [sends [0xD4, 1, 2, 3, 4]] ++ [quiet, quiet, quiet] ++ [] ∧ Listens s.tmoListen [low] ∧
      [quiet, quiet].length = (encode (.rdpage 4)).length ∧
      Answers s.tmoData (s.rx ++ arrived ([low] ++ [quiet, quiet])) [sends [0xD4, 1, 2, 3, 4]] ∧ [quiet, quiet, quiet].length = 3 ∧
      s.rx ++ arrived ([low] ++ [quiet, quiet] ++ [sends [0xD4, 1, 2, 3, 4]] ++ [quiet, quiet, quiet]) = 0xD4 :: [1, 2, 3, 4] ∧
      (0xD4 : Byte) &&& 0x3E ≠ 0x16 :=
  ⟨rfl, ⟨rfl, rfl⟩, rfl, ⟨0, rfl⟩, rfl, ⟨0, rfl⟩, rfl, rfl, by decide⟩

/-- No payload byte, and three of the four. -/
theorem witness_missingPayloadByteFails :
    let bs := [byteReady, byteReady, byteLate 3]
    let s := quick (script 1 [0xD6, 1, 2] 3 ++ (bs.flatMap ByteMoves.moves ++ [quiet, quiet]))
    let u := quick (script 1 [0xD6] 3 ++ [quiet, quiet])
    ((descriptorOf .uid).pm = .fixed ∧ Ready s ∧ s.tmoData ≠ 0 ∧
      s.env = [low] ++ [quiet] ++ [sends [0xD6, 1, 2]] ++ [quiet, quiet, quiet] ++ bs.flatMap ByteMoves.moves ++ [quiet, quiet]
        ++ [] ∧
      Listens s.tmoListen [low] ∧ [quiet].length = (encode .uid).length ∧
      Answers s.tmoData (s.rx ++ arrived ([low] ++ [quiet])) [sends [0xD6, 1, 2]] ∧ [quiet, quiet, quiet].length = 3 ∧
      s.rx ++ arrived ([low] ++ [quiet] ++ [sends [0xD6, 1, 2]] ++ [quiet, quiet, quiet]) = 0xD6 :: [1, 2] ∧
      (0xD6 : Byte) &&& 0x3E = 0x16 ∧ bs.length < 4 ∧ PayloadArrives s.tmoData [1, 2] bs ∧
      ([1, 2] ++ arrived (bs.flatMap ByteMoves.moves)).length = bs.length ∧
      [quiet, quiet].length = failingPolls s.tmoData.toNat ∧ arrived [quiet, quiet] = []) ∧
    (Ready u ∧ u.env = [low] ++ [quiet] ++ [sends [0xD6]] ++ [quiet, quiet, quiet] ++ [].flatMap ByteMoves.moves
        ++ [quiet, quiet] ++ [] ∧
      Answers u.tmoData (u.rx ++ arrived ([low] ++ [quiet])) [sends [0xD6]] ∧
      u.rx ++ arrived ([low] ++ [quiet] ++ [sends [0xD6]] ++ [quiet, quiet, quiet]) = 0xD6 :: [] ∧
      ([] ++ arrived ([].flatMap ByteMoves.moves)).length = 0 ∧ PayloadArrives u.tmoData [] []) :=
  ⟨⟨rfl, ⟨rfl, rfl⟩, by decide, rfl, ⟨0, rfl⟩, rfl, ⟨0, rfl⟩, rfl, rfl, rfl, by decide, ⟨⟨0, rfl⟩, ⟨0, rfl⟩, ⟨5, rfl⟩, trivial⟩,
    rfl, rfl, rfl⟩, ⟨rfl, rfl⟩, rfl, ⟨0, rfl⟩, rfl, rfl, trivial⟩

theorem witness_listenWithoutDeadlinePollsOn :
    Ready (endless [quiet, quiet]) ∧ (endless [quiet, quiet]).tmoListen = 0 ∧
      (∀ m ∈ (endless [quiet, quiet]).env, m.ready = .high) :=
  ⟨⟨rfl, rfl⟩, rfl, by decide⟩

theorem witness_answerWithoutDeadlinePollsOn :
    let s := endless ([quiet, low] ++ [quiet] ++ [quiet, quiet, quiet])
    Instr.uid ≠ .ident ∧ Ready s ∧ s.tmoData = 0 ∧ s.env = [quiet, low] ++ [quiet] ++ [quiet, quiet, quiet] ∧
      Listens s.tmoListen [quiet, low] ∧ [quiet].length = (encode .uid).length ∧ s.rx = [] ∧ arrived s.env = [] :=
  ⟨by decide, ⟨rfl, rfl⟩, rfl, rfl, ⟨5, rfl⟩, rfl, rfl, rfl⟩

/-- Capacity 1 with the wait, the second byte arriving only during the drain; capacity 0 without the wait. -/
theorem witness_identBeyondItsCapacityIsRefused :
    let ds := [drained [], drained [2]]
    let s := { base (low :: quiet :: sends [1] :: ds.flatMap DrainMoves.moves) with
      cfg := { identWaitData := true, identCap := 1 } }
    let u := { base (low :: quiet :: (drained []).moves) with rx := [7], cfg := { identWaitData := false, identCap := 0 } }
    (Ready s ∧ s.env = [low] ++ [quiet] ++ [sends [1]] ++ ds.flatMap DrainMoves.moves ++ [] ∧ Listens s.tmoListen [low] ∧
      (if s.cfg.identWaitData then Answers s.tmoData (s.rx ++ arrived ([low] ++ [quiet])) [sends [1]]
        else [sends [1]] = []) ∧
      ds.length = s.cfg.identCap + 1 ∧ Fed (s.rx ++ arrived ([low] ++ [quiet] ++ [sends [1]])) ds) ∧
    (Ready u ∧ u.env = [low] ++ [quiet] ++ [] ++ [drained []].flatMap DrainMoves.moves ++ [] ∧ Listens u.tmoListen [low] ∧
      (if u.cfg.identWaitData then Answers u.tmoData (u.rx ++ arrived ([low] ++ [quiet])) [] else ([] : List EnvMove) = []) ∧
      [drained []].length = u.cfg.identCap + 1 ∧ Fed (u.rx ++ arrived ([low] ++ [quiet] ++ [])) [drained []]) :=
  ⟨⟨⟨rfl, rfl⟩, rfl, ⟨0, rfl⟩, ⟨0, rfl⟩, rfl, by decide, by decide, trivial⟩,
    ⟨⟨rfl, rfl⟩, rfl, ⟨0, rfl⟩, rfl, rfl, by decide, trivial⟩⟩

/-- A list of moves of just the length asked for. -/
theorem witness_everyAcknowledgedCommandEnds :
    let s := quick (List.replicate 8 quiet)
    Instr.status ≠ .ident ∧ s.busy = false ∧ s.tmoListen ≠ 0 ∧ s.tmoData ≠ 0 ∧
      rowBound s.tmoListen s.tmoData (encode .status).length (descriptorOf .status).pcnt ≤ s.env.length := by decide

/-- The rows of the table, met by runs that end: success, and one of each failure; and those of IDENT. -/
theorem witness_endedCommandsRecordTheTable :
    (base []).busy = false ∧
    endOf (exec .status (base (script 1 [0xD6] 3))) = success [0x53] 0xD6 [] ∧
    endOf (exec .status (quick [quiet, quiet])) = failure .notListening [] 0xA5 [] [.listen] ∧
    endOf (exec .status (quick (script 1 [] 1))) = failure .noResponse [0x53] 0xA5 [] [.data] ∧
    endOf (exec .status (base (script 1 [0xDE] 3))) = failure .ackMismatch [0x53] 0xDE [] [] ∧
    endOf (exec .uid (quick (script 1 [0xD6, 1, 2] 11))) = failure .payloadTimeout [0x55] 0xD6 [] [.data] ∧
    endOf (exec .ident (quick (script 1 [] 1))) = failure .noResponse [0x7A] 0xA5 [] [.data] := by decide

/-- Both sides of the conclusion: the line stays HIGH, or the stale byte is taken. -/
theorem witness_staleByteIsTakenAsTheAcknowledgment :
    Instr.status ≠ .ident ∧ { quick [quiet, quiet] with rx := [0xDE] }.rx = 0xDE :: [] ∧
    endOf (exec .status { quick [quiet, quiet] with rx := [0xDE] }) = failure .notListening [] 0xA5 [0xDE] [.listen] ∧
    endOf (exec .status { quick (script 1 [0xD6] 3) with rx := [0xDE] }) = failure .ackMismatch [0x53] 0xDE [0xD6] [] := by
  decide

/-- A next state of a command, here one that sends its frame, and the same of IDENT. -/
theorem witness_commandFrameOfRegisters :
    isNext (exec (.wrpage 3 1 2 3 4) (base (script 6 [0xD6] 3))) = true ∧
    isNext (exec .ident (base (script 1 [0x52] 4))) = true ∧ (descriptorOf (.wrpage 3 1 2 3 4)).pm ≠ .fixed := by decide

/-- A run whose moves store in TAG and EE, and places they do not store at. -/
theorem witness_commandFrameOfMemory :
    isNext (exec .status (base [low, ⟨[0xD6], .high, [.tag 3 1 0x11, .ee 9 0x22]⟩, quiet, quiet, quiet, quiet])) = true ∧
    noTagStore 12 [⟨[0xD6], .high, [.tag 3 1 0x11]⟩] ∧ noEeStore 10 [⟨[0xD6], .high, [.ee 9 0x22]⟩] := by
  refine ⟨by decide, ?_, ?_⟩ <;> intro m hm d hd <;> simp at hm <;> subst hm <;> simp at hd <;> subst hd <;>
    intros <;> simp_all [tagAddress]
  · rename_i h; obtain ⟨rfl, rfl, rfl⟩ := h; decide
  · rename_i h; obtain ⟨rfl, rfl⟩ := h; decide

/-- A start that succeeds, of a drain and of a bare SENDB. -/
theorem witness_hostWritesDoNotReachARunningOperation :
    isNext (startOperation (writeOperands (loadDescriptor OperandRegs.reset (descriptorOf .ident)) (base []))) = true ∧
    isNext (startOperation (writeOperands (loadDescriptor OperandRegs.reset (sendByteDescriptor 7)) (base []))) = true := by
  decide

/-- Another phase, and phase WL before `begin`. -/
theorem witness_onlyPhaseWLSamplesTheLine :
    (polling .wa).phase ≠ .wl ∧ { polling .wl with init := false }.phase = .wl ∧
    { polling .wl with init := false }.init = false := by decide

/-- Each of the four shapes at a bound of its range, a register file that starts nothing, and a busy framer. -/
theorem witness_onlyTheFourShapesStart :
    { base [] with busy := true }.busy = true ∧ (base []).busy = false ∧
    operandsAdmitted { OperandRegs.reset with wl := true, ae := true, len := 6 } = true ∧
    operandsAdmitted { OperandRegs.reset with wl := true, ae := true, pm := 1, pcnt := 4, len := 1 } = true ∧
    operandsAdmitted { OperandRegs.reset with wl := true, pm := 2, len := 1 } = true ∧
    operandsAdmitted { OperandRegs.reset with len := 1 } = true ∧
    refusalOf (startOperation { base [] with opnd := { OperandRegs.reset with len := 2 } }) = some .descriptorShape ∧
    { base [] with opnd := { OperandRegs.reset with len := 7 } }.opnd.len = 7 ∧ (base []).opnd.len = 0 := by decide

/-- Six bytes with the full mask, and one byte with the empty mask. -/
theorem witness_genericSendCompletes :
    let s := { base (script 6 [0xD6] 3) with host := [.sendCommand [1, 2, 3, 4, 5, 6] 0xFF] }
    let u := { base (script 1 [0x00] 3) with host := [.sendCommand [0xAA] 0x00] }
    (Ready s ∧ s.call = none ∧ s.host = .sendCommand [1, 2, 3, 4, 5, 6] 0xFF :: [] ∧
      1 ≤ [(1 : Byte), 2, 3, 4, 5, 6].length ∧ [(1 : Byte), 2, 3, 4, 5, 6].length ≤ 6 ∧
      s.env = [low] ++ List.replicate 6 quiet ++ [sends [0xD6]] ++ [quiet, quiet, quiet] ++ [] ∧ Listens s.tmoListen [low] ∧
      (List.replicate 6 quiet).length = [(1 : Byte), 2, 3, 4, 5, 6].length ∧
      Answers s.tmoData (s.rx ++ arrived ([low] ++ List.replicate 6 quiet)) [sends [0xD6]] ∧ [quiet, quiet, quiet].length = 3) ∧
    (Ready u ∧ u.call = none ∧ u.host = .sendCommand [0xAA] 0x00 :: [] ∧ 1 ≤ [(0xAA : Byte)].length ∧
      [(0xAA : Byte)].length ≤ 6 ∧ u.env = [low] ++ [quiet] ++ [sends [0x00]] ++ [quiet, quiet, quiet] ++ [] ∧
      Listens u.tmoListen [low] ∧ [quiet].length = [(0xAA : Byte)].length ∧
      Answers u.tmoData (u.rx ++ arrived ([low] ++ [quiet])) [sends [0x00]] ∧ [quiet, quiet, quiet].length = 3) :=
  ⟨⟨⟨rfl, rfl⟩, rfl, rfl, by decide, by decide, rfl, ⟨0, rfl⟩, rfl, ⟨0, rfl⟩, rfl⟩,
    ⟨⟨rfl, rfl⟩, rfl, rfl, by decide, by decide, rfl, ⟨0, rfl⟩, rfl, ⟨0, rfl⟩, rfl⟩⟩

/-- The generic start with a payload: one byte after a frame of one byte with mask 0x28, and four after six with mask 0x00. -/
theorem witness_genericSendCompletes_payload :
    let s := { base (script 1 [0xD6, 9] 3 ++ byteReady.moves) with opnd := readRegisters 1, host := [.start] }
    let bs := [byteReady, byteReady, byteReady, byteLate 4]
    let u := { base (script 6 [0xFF, 1, 2, 3] 3 ++ bs.flatMap ByteMoves.moves) with
      opnd := { readRegisters 4 with len := 6, mask := 0 }, host := [.start] }
    (Ready s ∧ s.call = none ∧ s.host = .start :: [] ∧ s.opnd.wl = true ∧ s.opnd.ae = true ∧ s.opnd.pm = 1 ∧
      1 ≤ s.opnd.pcnt.toNat ∧ s.opnd.pcnt.toNat ≤ 4 ∧ 1 ≤ s.opnd.len.toNat ∧ s.opnd.len.toNat ≤ 6 ∧
      s.env = [low] ++ [quiet] ++ [sends [0xD6, 9]] ++ [quiet, quiet, quiet] ++ [byteReady].flatMap ByteMoves.moves ++ [] ∧
      Listens s.tmoListen [low] ∧ [quiet].length = s.opnd.len.toNat ∧
      Answers s.tmoData (s.rx ++ arrived ([low] ++ [quiet])) [sends [0xD6, 9]] ∧ [quiet, quiet, quiet].length = 3 ∧
      s.rx ++ arrived ([low] ++ [quiet] ++ [sends [0xD6, 9]] ++ [quiet, quiet, quiet]) = 0xD6 :: [9] ∧
      (0xD6 : Byte) &&& s.opnd.mask = 0xD6 &&& s.opnd.mask ∧ [byteReady].length = s.opnd.pcnt.toNat ∧
      PayloadArrives s.tmoData [9] [byteReady]) ∧
    (Ready u ∧ u.call = none ∧ u.host = .start :: [] ∧ u.opnd.wl = true ∧ u.opnd.ae = true ∧ u.opnd.pm = 1 ∧
      1 ≤ u.opnd.pcnt.toNat ∧ u.opnd.pcnt.toNat ≤ 4 ∧ 1 ≤ u.opnd.len.toNat ∧ u.opnd.len.toNat ≤ 6 ∧
      u.env = [low] ++ List.replicate 6 quiet ++ [sends [0xFF, 1, 2, 3]] ++ [quiet, quiet, quiet]
        ++ bs.flatMap ByteMoves.moves ++ [] ∧
      Listens u.tmoListen [low] ∧ (List.replicate 6 quiet).length = u.opnd.len.toNat ∧
      Answers u.tmoData (u.rx ++ arrived ([low] ++ List.replicate 6 quiet)) [sends [0xFF, 1, 2, 3]] ∧
      [quiet, quiet, quiet].length = 3 ∧
      u.rx ++ arrived ([low] ++ List.replicate 6 quiet ++ [sends [0xFF, 1, 2, 3]] ++ [quiet, quiet, quiet]) =
        0xFF :: [1, 2, 3] ∧
      (0xFF : Byte) &&& u.opnd.mask = 0xD6 &&& u.opnd.mask ∧ bs.length = u.opnd.pcnt.toNat ∧
      PayloadArrives u.tmoData [1, 2, 3] bs) :=
  ⟨⟨⟨rfl, rfl⟩, rfl, rfl, rfl, rfl, rfl, by decide, by decide, by decide, by decide, rfl, ⟨0, rfl⟩, rfl, ⟨0, rfl⟩, rfl, rfl, rfl, rfl,
      ⟨0, rfl⟩, trivial⟩,
    ⟨⟨rfl, rfl⟩, rfl, rfl, rfl, rfl, rfl, by decide, by decide, by decide, by decide, rfl, ⟨0, rfl⟩, rfl, ⟨0, rfl⟩, rfl, rfl, rfl, rfl,
      ⟨0, rfl⟩, ⟨0, rfl⟩, ⟨0, rfl⟩, ⟨5, rfl⟩, trivial⟩⟩

/-- Before `begin`, with a byte in the queue and the line HIGH. -/
theorem witness_sendByteCannotFail :
    let s := { base [quiet] with init := false, rx := [0xD6], host := [.sendByte 0x7A] }
    s.busy = false ∧ s.call = none ∧ s.host = .sendByte 0x7A :: [] ∧ s.env = quiet :: [] :=
  ⟨rfl, rfl, rfl, rfl⟩

/-- The host's operations on an idle framer, each at the head of the list. -/
theorem witness_getAckReturnsLastAck :
    { base [] with host := [.getAck] }.busy = false ∧ { base [] with host := [.getAck] }.call = none ∧
    { base [] with host := [.getAck] }.host = .getAck :: [] := by decide

theorem witness_hostRegistersAreWritable :
    let s := { base [] with host := [.setTimeouts 0 65535, .load OperandRegs.reset] }
    let u := { base [] with host := [.load OperandRegs.reset] }
    (s.busy = false ∧ s.call = none ∧ s.host = .setTimeouts 0 65535 :: [.load OperandRegs.reset]) ∧
    (u.busy = false ∧ u.call = none ∧ u.host = .load OperandRegs.reset :: []) := by decide

/-- All of `DATA` defined and none of it; a defined identifier. -/
theorem witness_hostReadsDefinedBuffers :
    let s := { base [] with dataValid := 4, host := [.readData] }
    let u := { base [] with dataValid := 0, host := [.readData] }
    let v := { base [] with idBuf := [1], idValid := true, host := [.readIdent] }
    (s.busy = false ∧ s.call = none ∧ s.host = .readData :: []) ∧ (u.busy = false ∧ u.call = none ∧ u.host = .readData :: []) ∧
    (v.busy = false ∧ v.call = none ∧ v.host = .readIdent :: [] ∧ v.idValid = true) := by decide

/-- With a move listed, and with none. -/
theorem witness_idleFramerDoesNothing :
    (base [quiet]).busy = false ∧ (base [quiet]).call = none ∧ (base [quiet]).host = [] ∧ (base [quiet]).env = quiet :: [] ∧
    (base []).busy = false ∧ (base []).call = none ∧ (base []).host = [] ∧ (base []).env = [] := by decide

theorem witness_beginSetsInit :
    let s := { base [] with init := false, host := [.beginFramer false] }
    let u := { base [] with init := false, host := [.beginFramer true] }
    (s.busy = false ∧ s.call = none ∧ s.host = .beginFramer false :: []) ∧
    (u.busy = false ∧ u.call = none ∧ u.host = .beginFramer true :: []) := by decide

/-- A sequence without commands, one of length 0 at the last address, and one that is refused. -/
theorem witness_sequencesFailFast_other_starts :
    let z := { base [] with host := [.sequence (.writeEEPROMRange 0xFF [] 0)] }
    let r := { base [] with host := [.sequence (.authorizeTag [1, 2, 3, 4] 60)] }
    (z.busy = false ∧ z.call = none ∧ z.host = .sequence (.writeEEPROMRange 0xFF [] 0) :: [] ∧
      expand (.writeEEPROMRange 0xFF [] 0) = .ok []) ∧
    (r.busy = false ∧ r.call = none ∧ r.host = .sequence (.authorizeTag [1, 2, 3, 4] 60) :: [] ∧
      expand (.authorizeTag [1, 2, 3, 4] 60) = .error .slotPastEnd) :=
  ⟨⟨rfl, rfl, rfl, rfl⟩, ⟨rfl, rfl, rfl, rfl⟩⟩

/-- A sequence to begin; a call whose command failed; one with a command to come; one at its end. -/
theorem witness_sequencesFailFast :
    let c : Call := { todo := [.status], out := .nothing, got := [] }
    let b := { base [] with host := [.sequence .readUserData] }
    let f := { base [] with call := some c, ok := false }
    let g := { base [] with call := some c, ok := true }
    let e := { base [] with call := some { c with todo := [] }, ok := true }
    (b.busy = false ∧ b.call = none ∧ b.host = .sequence .readUserData :: [] ∧
      expand .readUserData = .ok (.rdpage 4 :: [.rdpage 5, .rdpage 6, .rdpage 7])) ∧
    (f.busy = false ∧ f.call = some c ∧ f.ok = false) ∧
    (g.busy = false ∧ g.call = some c ∧ g.ok = true ∧ c.todo = .status :: []) ∧
    (e.busy = false ∧ e.call = some { c with todo := [] } ∧ e.ok = true) := by
  refine ⟨⟨rfl, rfl, rfl, rfl⟩, ?_, ?_, ?_⟩ <;> decide

theorem witness_callsCollectTheirBytes :
    (singleCall .payload).out = .payload ∧ { base [] with lat := { Latched.reset with pcnt := 4 } }.lat.pcnt = 4 ∧
    (singleCall .userData).out = .userData ∧ (singleCall .identifier).out = .identifier ∧
    (singleCall .nothing).out = .nothing := by decide

/-- The ends of both clauses' ranges: nothing at 0xFF, one byte at 0xFF, two bytes at 0xFF. -/
theorem witness_rangeWriteExpands :
    (0 ≤ ([] : List Byte).length ∧ ((0 : Nat) = 0 ∨ (0xFF : Byte).toNat + 0 - 1 ≤ 255)) ∧
    (1 ≤ [(0x5A : Byte)].length ∧ ((1 : Nat) = 0 ∨ (0xFF : Byte).toNat + 1 - 1 ≤ 255)) ∧
    (2 ≤ [(1 : Byte), 2].length ∧ 1 ≤ 2 ∧ 255 < (0xFF : Byte).toNat + 2 - 1) := by decide

theorem witness_authorizeTagExpands : (0 : Nat) ≤ 59 ∧ (59 : Nat) ≤ 59 ∧ (59 : Nat) < 60 := by decide

theorem witness_userDataMapsOntoPagesFourToSeven :
    [(0 : Byte), 1, 2, 3, 4, 5, 6, 7, 8, 9, 10, 11, 12, 13, 14, 15].length = 16 ∧
    expand (.writeUserData [0, 1, 2, 3, 4, 5, 6, 7, 8, 9, 10, 11, 12, 13, 14, 15]) =
      .ok [.wrpage 4 0 1 2 3, .wrpage 5 4 5 6 7, .wrpage 6 8 9 10 11, .wrpage 7 12 13 14 15] := ⟨rfl, rfl⟩

/-- The two codes no phase has. -/
theorem witness_codesAreAsTabulated : 14 ≤ (14 : BitVec 4).toNat ∧ 14 ≤ (15 : BitVec 4).toNat := by decide

end Sys2Proof.Tests
end

section
namespace Sys2Proof.Machine

/-! ### A run goes on from the moves its state lists -/

/-- Running on from a row with the moves that were listed is running on with the moves then listed: no row changes them. -/
theorem andThen_row_drive (s : State) : andThen (row s) (drive s.env) = andThen (row s) driveListed := by
  cases h : row s with
  | next t => rw [andThen_next, andThen_next, driveListed, row_env h]
  | fault x => rfl
  | refused x => rfl

/-- A busy machine with a listed move takes it, runs one row, and goes on with the others. -/
theorem driveListed_busy {s : State} {m : EnvMove} {ms : List EnvMove} (hb : s.busy = true) (he : s.env = m :: ms) :
    driveListed s = andThen (row (applyMove m (setEnv ms s))) driveListed := by
  rw [driveListed, he, drive_busy m ms hb]
  exact andThen_row_drive (applyMove m (setEnv ms s))

/-- An idle machine is left as it is. -/
theorem driveListed_idle {s : State} (hb : s.busy = false) : driveListed s = .next s := by
  rw [driveListed, drive_idle s.env hb, setEnv_self]

/-- A run through two lists of moves is the run through the first, and where the operation is then still busy the run through
the second; where it has ended, the second list is left. -/
theorem drive_append {ms : List EnvMove} (ns : List EnvMove) {s t : State} (h : drive ms s = .next t) :
    drive (ms ++ ns) s = if t.busy then drive ns t else .next (setEnv (t.env ++ ns) t) := by
  induction ms generalizing s with
  | nil =>
    cases h
    cases hb : s.busy with
    | true => simp [hb]
    | false => simp [hb, drive_idle]
  | cons m ms ih =>
    cases hb : s.busy with
    | true =>
      rw [drive_busy m ms hb] at h
      obtain ⟨u, hu, ht⟩ := andThen_eq_next.1 h
      have hrow : row (applyMove m (setEnv (ms ++ ns) s)) = .next (setEnv (ms ++ ns) u) := by
        rw [← setEnv_setEnv (ms ++ ns) ms, applyMove_setEnv m (ms ++ ns), row_setEnv, hu, mapNext_next]
      rw [List.cons_append, drive_busy m (ms ++ ns) hb, hrow, andThen_next, drive_setEnv, ih ht]
    | false =>
      rw [drive_idle _ hb] at h
      cases h
      simp [hb, drive_idle]

/-- A step of a busy machine with a listed move is a run through its listed moves. -/
theorem step_busy {s : State} {m : EnvMove} {ms : List EnvMove} (hb : s.busy = true) (he : s.env = m :: ms) :
    step s = drive (m :: ms) s := by
  rw [step, if_pos hb, resume, envTurn_listed he, ← he]
  exact (driveListed_busy hb he).symm

/-- Settles O12, by induction on the first list of moves: no row reads or writes the moves that are listed. -/
theorem aRunMayBeCutAtAnyMove : Obligations.ARunMayBeCutAtAnyMove :=
  ⟨fun _ ns _ _ h => drive_append ns h, fun _ _ _ hb he => step_busy hb he⟩

end Sys2Proof.Machine
end

section
/-! The simulation between the sequencer's table and the procedures (R85): the sequencer's state is a procedure's state with the
sequencer's own registers laid over it, and each part of a procedure agrees with the rows that stand for it, whatever comes after. -/

namespace Sys2Proof.Machine

/-! ### The queue, and the rows that read it or compare -/

theorem rxPop_nil {s : State} (h : s.rx = []) : rxPop s = none := by
  rw [rxPop, h]

/-- `RxPop` leaves the listed moves alone. -/
theorem rxPop_env {s t : State} {r : Byte} (h : rxPop s = some (r, t)) : t.env = s.env := by
  cases hx : s.rx with
  | nil => simp [rxPop_nil hx] at h
  | cons b q =>
    rw [rxPop_cons hx] at h
    cases h
    rfl

theorem rowRA_nil {u : State} (h : u.rx = []) : rowRA u = .refused .rxEmpty := by
  rw [rowRA, rxPop_nil h]

/-- A masked comparison that fails. -/
theorem rowCK_mismatch {u : State} (h : ackAccepted u.lastAck u.lat.mask = false) : rowCK u = .next (fail .ackMismatch u) := by
  rw [rowCK, if_neg (by simp [h])]

/-- A masked comparison that holds, with no payload to come. -/
theorem rowCK_end {u : State} (h : ackAccepted u.lastAck u.lat.mask = true) (hp : u.lat.pm = .none) :
    rowCK u = .next (succeed u) := by
  rw [rowCK, if_pos h, hp]

/-- A masked comparison that holds, with a payload to come. -/
theorem rowCK_payload {u : State} (h : ackAccepted u.lastAck u.lat.mask = true) (hp : u.lat.pm = .fixed) :
    rowCK u = .next (toPayload u) := by
  rw [rowCK, if_pos h, hp]

theorem rowRP_nil {u : State} (h : u.rx = []) : rowRP u = .refused .rxEmpty := by
  rw [rowRP, rxPop_nil h]

/-- The four payload registers can be written. -/
theorem dataSet_of_lt (d : DataRegs) {b : Nat} (v : Byte) (h : b < 4) : ∃ d', dataSet d b v = some d' := by
  interval_cases b <;> exact ⟨_, rfl⟩

theorem rowRD_nil {u : State} (h : u.rx = []) : rowRD u = .refused .rxEmpty := by
  rw [rowRD, rxPop_nil h]

/-! ### How a procedure is put together -/

@[simp] theorem procThen_returned (s : State) (k : State → Ended) : procThen (.returned s) k = k s := rfl
@[simp] theorem procThen_failed (c : FailCause) (s : State) (k : State → Ended) :
    procThen (.failed c s) k = .failed c s := rfl
@[simp] theorem procThen_unfinished (k : State → Ended) : procThen .unfinished k = .unfinished := rfl
@[simp] theorem procThen_stopped (r : Refusal) (k : State → Ended) : procThen (.stopped r) k = .stopped r := rfl

theorem procThen_assoc (x : Ended) (f g : State → Ended) :
    procThen (procThen x f) g = procThen x fun s => procThen (f s) g := by
  cases x <;> rfl

/-- A procedure with nothing to come after it. -/
theorem procThen_pure (x : Ended) : procThen x .returned = x := by
  cases x <;> rfl

theorem procThen_procTurn (k g : State → Ended) (s : State) :
    procThen (procTurn k s) g = procTurn (fun t => procThen (k t) g) s := by
  cases h : s.env <;> simp [procTurn, h]

theorem procThen_procRead (k : Byte → State → Ended) (g : State → Ended) (s : State) :
    procThen (procRead k s) g = procRead (fun r t => procThen (k r t) g) s := by
  simp only [procRead, procThen_procTurn]
  congr! 4 with t
  cases h : rxPop t <;> simp

/-! ### The two forms of one operation -/

/-- The sequencer at phase `ph` of command `i`, begun in `s`, over the procedure's state `p`: the registers that only the table's
form has, `txi` being `j`, `rxi` being `k` and `elapsed` being `n`, are laid over `p`. -/
def runningAt (i : Instr) (s : State) (ph : Phase) (j k : Nat) (n : Millis) (p : State) : State :=
  { p with opnd := (started i s).opnd, lat := (started i s).lat, phase := ph, txi := j, rxi := k, elapsed := n, busy := true }

section
variable {i : Instr} {s p : State} {ph : Phase} {j k : Nat} {n : Millis}

@[simp] theorem toPhase_runningAt (ph' : Phase) : toPhase ph' (runningAt i s ph j k n p) = runningAt i s ph' j k n p := rfl
@[simp] theorem toWait_runningAt (ph' : Phase) : toWait ph' (runningAt i s ph j k n p) = runningAt i s ph' j k 0 p := rfl
@[simp] theorem toTransmit_runningAt : toTransmit (runningAt i s ph j k n p) = runningAt i s .tx 0 k n p := rfl
@[simp] theorem toPayload_runningAt : toPayload (runningAt i s ph j k n p) = runningAt i s .wp j 0 0 p := rfl
@[simp] theorem sentByte_runningAt (b : Byte) :
    sentByte b (runningAt i s ph j k n p) = runningAt i s ph (j + 1) k n (txPush b p) := rfl
@[simp] theorem takeHead_runningAt (r : Byte) (q : List Byte) :
    takeHead r q (runningAt i s ph j k n p) = runningAt i s ph j k n (takeHead r q p) := rfl
@[simp] theorem storeAck_runningAt (r : Byte) :
    storeAck r (runningAt i s ph j k n p) = runningAt i s ph j k n (storeAck r p) := rfl
@[simp] theorem rxAvail_runningAt : rxAvail (runningAt i s ph j k n p) = rxAvail p := rfl

end

/-- What holds of every state `p` of a procedure for command `i` begun in the idle state `s`: the registers that no procedure
writes are those of `s`, and of the output buffers only the command's own may have changed. -/
structure Underway (i : Instr) (s p : State) : Prop where
  idle      : s.busy = false
  tmoListen : p.tmoListen = s.tmoListen
  tmoData   : p.tmoData = s.tmoData
  results   : p.results = s.results
  dataValid : p.dataValid = s.dataValid
  idValid   : p.idValid = s.idValid
  data      : (descriptorOf i).pm ≠ .fixed → p.data = s.data
  idBuf     : (descriptorOf i).pm ≠ .drain → p.idBuf = s.idBuf

/-- A result of the sequencer agrees with how the procedure of command `i`, begun in `s`, stands: what the statement of R85 asks
for, with the sequencer's result in the place of `exec i s`. -/
def Agrees (i : Instr) (s : State) (x : Ended) (r : Result) : Prop :=
  match x with
  | .returned t =>
    ∃ u, r = .next u ∧ u.busy = false ∧ u.phase = .idle ∧ u.ok = true ∧ compared u = compared t ∧
      observe u = endedObservation (descriptorOf i).pm true s t
  | .failed c t =>
    ∃ u, r = .next u ∧ u.busy = false ∧ u.phase = .idle ∧ u.ok = false ∧ u.cause = c ∧ compared u = compared t ∧
      observe u = endedObservation (descriptorOf i).pm false s t
  | .unfinished => ∃ u, r = .next u ∧ u.busy = true
  | .stopped q => r = .refused q

section
variable {i : Instr} {s p : State}

theorem Underway.moved (h : Underway i s p) (m : EnvMove) (ms : List EnvMove) :
    Underway i s (applyMove m (setEnv ms p)) := { h with }
theorem Underway.drawn (h : Underway i s p) (n : Nat) : Underway i s (draw n p) := { h with }
theorem Underway.logged (h : Underway i s p) (kind : WaitKind) : Underway i s (logTimeout kind p) := { h with }
theorem Underway.sent (h : Underway i s p) (b : Byte) : Underway i s (txPush b p) := { h with }
theorem Underway.taken (h : Underway i s p) (r : Byte) (q : List Byte) : Underway i s (takeHead r q p) := { h with }
theorem Underway.acked (h : Underway i s p) (r : Byte) : Underway i s (storeAck r p) := { h with }

theorem Underway.stored (h : Underway i s p) (hpm : (descriptorOf i).pm = .fixed) (d : DataRegs) :
    Underway i s { p with data := d } := { h with data := fun hne => absurd hpm hne }

theorem Underway.drained (h : Underway i s p) (hpm : (descriptorOf i).pm = .drain) (r : Byte) :
    Underway i s (storeIdent r p) := { h with idBuf := fun hne => absurd hpm hne }

/-- A sample of a wait's predicate draws a free level at most. -/
theorem Underway.sampled (h : Underway i s p) (kind : WaitKind) : Underway i s (procSample kind p).2 := by
  cases kind with
  | listen =>
    obtain ⟨n, hn⟩ := readyLevel_snd p
    rw [procSample, hn]
    exact h.drawn n
  | data => exact h

/-! ### The ends -/

/-- A payload read has the four bytes of DOC (R56). -/
theorem started_pcnt_fixed (h : (descriptorOf i).pm = .fixed) : (started i s).lat.pcnt = 4 := by
  rw [started_pcnt]
  revert h
  cases i <;> simp [descriptorOf, fixedPayload]

/-- A procedure that returns `true`, and the sequencer's end with success. -/
theorem agrees_returned (h : Underway i s p) (ph : Phase) (j k : Nat) (n : Millis) :
    Agrees i s (.returned p) (driveListed (succeed (runningAt i s ph j k n p))) := by
  refine ⟨_, driveListed_idle rfl, rfl, rfl, rfl, rfl, ?_⟩
  have hpm := started_pm i s
  have hpc := started_pcnt_fixed (i := i) (s := s)
  obtain ⟨idle, -, -, hr, hd, hi, hdata, hid⟩ := h
  cases hm : (descriptorOf i).pm <;>
    simp_all [observe, endedObservation, definedOk, definedData, definedIdent, runningAt, dataList]

/-- A procedure that raises a failure, and the sequencer's end with that failure. -/
theorem agrees_failed (h : Underway i s p) (c : FailCause) (ph : Phase) (j k : Nat) (n : Millis) :
    Agrees i s (.failed c p) (driveListed (fail c (runningAt i s ph j k n p))) := by
  refine ⟨_, driveListed_idle rfl, rfl, rfl, rfl, rfl, rfl, ?_⟩
  have hpm := started_pm i s
  obtain ⟨idle, -, -, hr, hd, hi, hdata, hid⟩ := h
  cases hm : (descriptorOf i).pm <;>
    simp_all [observe, endedObservation, definedOk, definedData, definedIdent, runningAt, dataList]

/-! ### One turn, one wait, one read -/

/-- A primitive that the listed moves do not reach leaves the sequencer busy. -/
theorem agrees_unfinished {ph : Phase} {j k : Nat} {n : Millis} (he : p.env = []) :
    Agrees i s .unfinished (driveListed (runningAt i s ph j k n p)) := by
  have h : driveListed (runningAt i s ph j k n p) = drive [] (runningAt i s ph j k n p) := congrArg (drive · _) he
  exact ⟨_, h, rfl⟩

/-- With a move listed the sequencer takes the row of its phase in the state the move leaves. -/
theorem driveListed_runningAt {ph : Phase} {j k : Nat} {n : Millis} {m : EnvMove} {ms : List EnvMove} (he : p.env = m :: ms) :
    driveListed (runningAt i s ph j k n p) = andThen (row (runningAt i s ph j k n (applyMove m (setEnv ms p)))) driveListed :=
  driveListed_busy (s := runningAt i s ph j k n p) rfl he

/-- A primitive and the row that stands for it agree when they agree after every turn of the environment. -/
theorem agrees_turn {ph : Phase} {j k : Nat} {n : Millis} {f : State → Ended} (h : Underway i s p)
    (hf : ∀ q, Underway i s q → q.env.length < p.env.length →
      Agrees i s (f q) (andThen (row (runningAt i s ph j k n q)) driveListed)) :
    Agrees i s (procTurn f p) (driveListed (runningAt i s ph j k n p)) := by
  cases he : p.env with
  | nil =>
    rw [procTurn, he]
    exact agrees_unfinished he
  | cons m ms =>
    rw [procTurn, he, driveListed_runningAt he]
    exact hf _ (h.moved m ms) (by simp [he])

/-- A wait and a phase whose row is one poll of it agree, when what comes after the wait does. -/
theorem agrees_wait {kind : WaitKind} {T : Millis} {c : FailCause} {ph : Phase} {j k : Nat} {n : Millis} {next : State → State}
    {f : State → Ended} (h : Underway i s p)
    (hrow : ∀ n q, row (runningAt i s ph j k n q) =
      .next (poll (procSample kind q).1 T kind next (fail c) (runningAt i s ph j k n (procSample kind q).2)))
    (hf : ∀ n q, Underway i s q → Agrees i s (f q) (driveListed (next (runningAt i s ph j k n q)))) :
    Agrees i s (procThen (procWait kind T c p.env n p) f) (driveListed (runningAt i s ph j k n p)) := by
  generalize he : p.env = ms
  induction ms generalizing p n with
  | nil => exact agrees_unfinished he
  | cons m ms ih =>
    rw [driveListed_runningAt he, hrow, andThen_next, procWait]
    have ht := (h.moved m ms).sampled kind
    have hte : (procSample kind (applyMove m (setEnv ms p))).2.env = ms := by
      cases kind with
      | listen =>
        obtain ⟨d, hd⟩ := readyLevel_snd (applyMove m (setEnv ms p))
        rw [procSample, hd]
        rfl
      | data => rfl
    generalize procSample kind (applyMove m (setEnv ms p)) = b at ht hte
    rcases poll_cases b.1 T kind next (fail c) (runningAt i s ph j k n b.2) with ⟨hb, hp⟩ | ⟨hb, h1, h2, hp⟩ | ⟨hb, h1, hp⟩
    · rw [hp]
      simp only [hb, if_true]
      exact hf n b.2 ht
    · have hd : deadlinePassed T n = true := deadlinePassed_iff.2 ⟨h1, h2⟩
      rw [hp]
      simp only [hb, hd, Bool.false_eq_true, if_false, if_true]
      exact agrees_failed (ht.logged kind) c ph j k n
    · have hd : deadlinePassed T n = false := by
        rw [← Bool.not_eq_true, deadlinePassed_iff, not_and, Nat.not_le]
        exact or_iff_not_imp_left.1 h1
      rw [hp]
      simp only [hb, hd, Bool.false_eq_true, if_false]
      exact ih (n := afterSleep n) ht hte

/-- A settled read and the two rows that stand for it agree, when what is done with the byte does. -/
theorem agrees_read {ph ph' : Phase} {j k : Nat} {n : Millis} {f : Byte → State → Ended} (h : Underway i s p)
    (hsettle : ∀ q, row (runningAt i s ph j k n q) = .next (runningAt i s ph' j k n q))
    (hempty : ∀ q : State, q.rx = [] → row (runningAt i s ph' j k n q) = .refused .rxEmpty)
    (hf : ∀ r rest q, Underway i s (takeHead r rest q) → q.rx = r :: rest → q.env.length < p.env.length →
      Agrees i s (f r (takeHead r rest q)) (andThen (row (runningAt i s ph' j k n q)) driveListed)) :
    Agrees i s (procRead f p) (driveListed (runningAt i s ph j k n p)) := by
  refine agrees_turn h fun q hq hlt => ?_
  rw [hsettle, andThen_next]
  refine agrees_turn hq fun u hu hlt' => ?_
  cases hx : u.rx with
  | nil =>
    rw [rxPop_nil hx, hempty u hx]
    rfl
  | cons r rest =>
    rw [rxPop_cons hx]
    exact hf r rest u (hu.taken r rest) hx (hlt'.trans hlt)

/-! ### The rows of a running command -/

/-- Row WL of a command is one poll of its listen wait. -/
theorem row_runningAt_wl (j k : Nat) (n : Millis) (q : State) :
    row (runningAt i s .wl j k n q) = .next (poll (procSample .listen q).1 s.tmoListen .listen toTransmit (fail .notListening)
      (runningAt i s .wl j k n (procSample .listen q).2)) := by
  have hlevel : readyLevel (runningAt i s .wl j k n q) = ((readyLevel q).1, runningAt i s .wl j k n (readyLevel q).2) := by
    cases hi : q.init <;> simp [readyLevel, runningAt, draw, hi]
  have hw : (runningAt i s .wl j k n q).lat.waitOnly = false := started_waitOnly i s
  have hT : (runningAt i s .wl j k n q).lat.tmoListen = s.tmoListen := started_tmoListen i s
  rw [row_wl rfl, rowWL, hw, hT, hlevel]
  rfl

/-- Row WA of a command is one poll of its acknowledgment's wait. -/
theorem row_runningAt_wa (j k : Nat) (n : Millis) (q : State) :
    row (runningAt i s .wa j k n q) = .next (poll (procSample .data q).1 s.tmoData .data (toPhase .sa) (fail .noResponse)
      (runningAt i s .wa j k n (procSample .data q).2)) := by
  have hw : (runningAt i s .wa j k n q).lat.waitOnly = false := started_waitOnly i s
  have hT : (runningAt i s .wa j k n q).lat.tmoData = s.tmoData := started_tmoData i s
  rw [row_wa rfl, rowWA, hw, hT]
  rfl

/-- Row WP of a command is one poll of a payload byte's wait. -/
theorem row_runningAt_wp (j k : Nat) (n : Millis) (q : State) :
    row (runningAt i s .wp j k n q) = .next (poll (procSample .data q).1 s.tmoData .data (toPhase .sp) (fail .payloadTimeout)
      (runningAt i s .wp j k n (procSample .data q).2)) := by
  have hT : (runningAt i s .wp j k n q).lat.tmoData = s.tmoData := started_tmoData i s
  rw [row_wp rfl, rowWP, hT]
  rfl

/-- Row WD of a command is one poll of the wait before a drain. -/
theorem row_runningAt_wd (j k : Nat) (n : Millis) (q : State) :
    row (runningAt i s .wd j k n q) = .next (poll (procSample .data q).1 s.tmoData .data (toPhase .dc) (fail .noResponse)
      (runningAt i s .wd j k n (procSample .data q).2)) := by
  have hT : (runningAt i s .wd j k n q).lat.tmoData = s.tmoData := started_tmoData i s
  rw [row_wd rfl, rowWD, hT]
  rfl

/-! ### The frame -/

/-- Sending the frame from byte `j` on and the rows TX agree, when what comes after the frame does (R76). -/
theorem agrees_transmit {bytes : List Byte} {j k : Nat} {n : Millis} {f : State → Ended} (h : Underway i s p)
    (hd : (encode i).drop j = bytes) (hne : bytes ≠ [])
    (hf : ∀ q, Underway i s q →
      Agrees i s (f q) (andThen (afterFrame (runningAt i s .tx (encode i).length k n q)) driveListed)) :
    Agrees i s (procThen (procTransmit bytes p) f) (driveListed (runningAt i s .tx j k n p)) := by
  induction bytes generalizing j p with
  | nil => exact absurd rfl hne
  | cons b bs ih =>
    have hj : j < (encode i).length := by
      by_contra hlen
      exact hne (hd ▸ List.drop_eq_nil_of_le (Nat.not_lt.1 hlen))
    rw [List.drop_eq_getElem_cons hj, List.cons.injEq] at hd
    obtain ⟨hb, hd⟩ := hd
    rw [procTransmit, procThen_procTurn]
    refine agrees_turn h fun q hq _ => ?_
    rw [row_tx rfl]
    have hx : frameGet (runningAt i s .tx j k n q).lat.x j = some b := hb ▸ started_frame i s j hj
    have hl : (runningAt i s .tx j k n q).lat.len = (encode i).length := started_len i s
    cases bs with
    | nil =>
      have hlast : j + 1 = (encode i).length := by
        have := List.drop_eq_nil_iff.1 hd
        omega
      rw [rowTX_last hx (hlast.trans hl.symm), sentByte_runningAt, hlast, procTransmit, procThen_returned]
      exact hf _ (hq.sent b)
    | cons b' bs =>
      have hmore : j + 1 < (encode i).length := by
        have := congrArg List.length hd
        simp only [List.length_drop, List.length_cons] at this
        omega
      rw [rowTX_more hx (hl ▸ hmore), andThen_next, sentByte_runningAt]
      exact ih (hq.sent b) hd (by simp)

/-! ### The acknowledgment -/

/-- SENDCMD and the rows from WL to CK agree, when what comes after an accepted acknowledgment does (R74). -/
theorem agrees_sendCommand {mask : Byte} {j k : Nat} {f : State → Ended} (h : Underway i s p)
    (hae : (descriptorOf i).ae = true) (hmask : (descriptorOf i).mask = some mask)
    (hf : ∀ j k n q, Underway i s q → ackAccepted q.lastAck (started i s).lat.mask = true →
      Agrees i s (f q) (andThen (rowCK (runningAt i s .ck j k n q)) driveListed)) :
    Agrees i s (procThen (procSendCommand (encode i) mask p) f) (driveListed (runningAt i s .wl j k 0 p)) := by
  have hm : (started i s).lat.mask = mask := by rw [started_mask, hmask]; rfl
  simp only [procSendCommand, procThen_assoc, procThen_procRead, procThen_procTurn]
  rw [h.tmoListen]
  refine agrees_wait h (row_runningAt_wl j k) fun n q hq => ?_
  rw [toTransmit_runningAt]
  refine agrees_transmit hq rfl (by cases i <;> simp [encode]) fun q hq => ?_
  rw [afterFrame_ack (s := runningAt i s .tx _ k n q) ((started_ae i s).trans hae), andThen_next, hq.tmoData,
    toWait_runningAt]
  refine agrees_wait hq (row_runningAt_wa _ k) fun n q hq => ?_
  rw [toPhase_runningAt]
  refine agrees_read (ph' := .ra) hq (fun _ => rfl) (fun _ hx => rowRA_nil hx) fun r rest q hq hx _ => ?_
  rw [row_ra rfl, rowRA_cons (s := runningAt i s .ra _ k n q) hx, andThen_next, takeHead_runningAt, storeAck_runningAt,
    toPhase_runningAt]
  refine agrees_turn (hq.acked r) fun q hq _ => ?_
  rw [row_ck rfl]
  cases hacc : ackAccepted q.lastAck mask with
  | true => exact hf _ k n q hq (hm ▸ hacc)
  | false =>
    rw [rowCK_mismatch (u := runningAt i s .ck _ k n q) (hm ▸ hacc), andThen_next]
    exact agrees_failed hq .ackMismatch _ _ _ _

/-- A command with an acknowledgment and nothing more. -/
theorem agrees_acknowledged {mask : Byte} {j k : Nat} (h : Underway i s p) (hae : (descriptorOf i).ae = true)
    (hmask : (descriptorOf i).mask = some mask) (hpm : (descriptorOf i).pm = .none) :
    Agrees i s (procSendCommand (encode i) mask p) (driveListed (runningAt i s .wl j k 0 p)) := by
  rw [← procThen_pure (procSendCommand _ _ _)]
  refine agrees_sendCommand h hae hmask fun j k n q hq hacc => ?_
  rw [rowCK_end (u := runningAt i s .ck j k n q) hacc ((started_pm i s).trans hpm), andThen_next]
  exact agrees_returned hq _ _ _ _

/-! ### The payload -/

/-- READBYTES of the last `m` bytes and the rows WP, SP and RP agree; with none left the operation has ended (R82, D6). -/
theorem agrees_readBytes {m b : Nat} {ph : Phase} {j : Nat} {n : Millis} (h : Underway i s p)
    (hpm : (descriptorOf i).pm = .fixed) (hb : b + m = 4) :
    Agrees i s (procReadBytes m b p) (driveListed (if b < (started i s).lat.pcnt
      then toWait .wp (runningAt i s ph j b n p) else succeed (runningAt i s ph j b n p))) := by
  induction m generalizing b p ph n with
  | zero =>
    rw [started_pcnt_fixed hpm, if_neg (by omega)]
    exact agrees_returned h _ _ _ _
  | succ m ih =>
    rw [started_pcnt_fixed hpm, if_pos (by omega), procReadBytes, h.tmoData, toWait_runningAt]
    refine agrees_wait h (row_runningAt_wp j b) fun n q hq => ?_
    rw [toPhase_runningAt]
    refine agrees_read (ph' := .rp) hq (fun _ => rfl) (fun _ hx => rowRP_nil hx) fun r rest q hq hx _ => ?_
    obtain ⟨d, hd⟩ := dataSet_of_lt q.data (b := b) r (by omega)
    rw [row_rp rfl, rowRP_cons (s := runningAt i s .rp j b n q) hx hd, andThen_next]
    simp only [takeHead_data, hd]
    exact ih (hq.stored hpm d) (by omega)

/-- A command with an acknowledgment and a payload of four bytes. -/
theorem agrees_payload {mask : Byte} {j k : Nat} (h : Underway i s p) (hae : (descriptorOf i).ae = true)
    (hmask : (descriptorOf i).mask = some mask) (hpm : (descriptorOf i).pm = .fixed) :
    Agrees i s (procThen (procSendCommand (encode i) mask p) (procReadBytes 4 0))
      (driveListed (runningAt i s .wl j k 0 p)) := by
  refine agrees_sendCommand h hae hmask fun j k n q hq hacc => ?_
  rw [rowCK_payload (u := runningAt i s .ck j k n q) hacc ((started_pm i s).trans hpm), andThen_next]
  have := agrees_readBytes (m := 4) (b := 0) (ph := .ck) (j := j) (n := n) hq hpm rfl
  rwa [started_pcnt_fixed hpm, if_pos (by omega)] at this

/-! ### The drain -/

/-- One round of the drain loop, turn by turn (R83). -/
theorem procDrainLoop_eq (p : State) :
    procDrainLoop p.env p = procTurn (fun t =>
      if rxAvail t then procRead (fun r v =>
        if v.idBuf.length < v.cfg.identCap then procDrainLoop v.env (storeIdent r v) else .stopped .identOverflow) t
      else .returned t) p := by
  rcases he : p.env with _ | ⟨m, _ | ⟨m1, _ | ⟨m2, ms⟩⟩⟩
  · simp [procDrainLoop, procTurn, he]
  · simp [procDrainLoop, procTurn, procRead, he]
  · simp [procDrainLoop, procTurn, procRead, he]
  · simp only [procDrainLoop, procTurn, procRead, he, applyMove_env, setEnv_env]
    split_ifs with ha
    · split
      · rfl
      · next hx => simp [rxPop_env hx]
    · rfl

/-- The drain loop and the rows DC, SD and RD agree (R83). -/
theorem agrees_drainLoop {j k : Nat} {n : Millis} (h : Underway i s p) (hpm : (descriptorOf i).pm = .drain) :
    Agrees i s (procDrainLoop p.env p) (driveListed (runningAt i s .dc j k n p)) := by
  induction hl : p.env.length using Nat.strong_induction_on generalizing p with
  | _ l ih =>
    rw [procDrainLoop_eq]
    refine agrees_turn h fun q hq hlt => ?_
    rw [row_dc rfl, rowDC, andThen_next, rxAvail_runningAt]
    split_ifs
    · rw [toPhase_runningAt]
      refine agrees_read (ph' := .rd) hq (fun _ => rfl) (fun _ hx => rowRD_nil hx) fun r rest u hu hx hlt' => ?_
      rw [row_rd rfl]
      by_cases hc : u.idBuf.length < u.cfg.identCap
      · rw [rowRD_cons (s := runningAt i s .rd j k n u) hx hc, andThen_next, takeHead_idBuf, takeHead_cfg, if_pos hc]
        exact ih _ (hl ▸ hlt'.trans hlt) (hu.drained hpm r) rfl
      · rw [rowRD_full (s := runningAt i s .rd j k n u) hx (Nat.not_lt.1 hc), takeHead_idBuf, takeHead_cfg, if_neg hc]
        rfl
    · exact agrees_returned hq _ _ _ _

/-- DRAIN and the rows after the frame agree, with and without the wait for data (R83, D7). -/
theorem agrees_drain {j k : Nat} {n : Millis} (h : Underway i s p) (hae : (descriptorOf i).ae = false)
    (hpm : (descriptorOf i).pm = .drain) :
    Agrees i s (procDrain p) (andThen (afterFrame (runningAt i s .tx j k n p)) driveListed) := by
  have hae' : (runningAt i s .tx j k n p).lat.ae = false := (started_ae i s).trans hae
  have hpm' : (runningAt i s .tx j k n p).lat.pm = .drain := (started_pm i s).trans hpm
  cases hw : p.cfg.identWaitData with
  | true =>
    rw [afterFrame_wait hae' hpm' hw, andThen_next, procDrain, if_pos hw, h.tmoData]
    exact agrees_wait (ph := .wd) h (row_runningAt_wd j k) fun n q hq => agrees_drainLoop hq hpm
  | false =>
    rw [afterFrame_drain hae' hpm' hw, andThen_next, procDrain, if_neg (by simp [hw])]
    exact agrees_drainLoop h hpm

/-! ### The six commands -/

/-- The state in which the procedure of command `i` waits for the line: a drain's buffer has been emptied (R83). -/
def begun (i : Instr) (s : State) : State := { s with idBuf := if (descriptorOf i).pm = .drain then [] else s.idBuf }

theorem underway_begun (i : Instr) (hb : s.busy = false) : Underway i s (begun i s) where
  idle := hb
  tmoListen := rfl
  tmoData := rfl
  results := rfl
  dataValid := rfl
  idValid := rfl
  data _ := rfl
  idBuf hne := if_neg hne

/-- A command starts at phase WL over the state its procedure starts from. -/
theorem exec_begun (i : Instr) (hb : s.busy = false) :
    exec i s = driveListed (runningAt i s .wl s.txi s.rxi 0 (begun i s)) := exec_eq i hb

/-- IDENT and the rows WL, TX and those of the drain agree (R93). -/
theorem agrees_ident (hb : s.busy = false) : Agrees .ident s (procedureOf .ident s) (exec .ident s) := by
  have h := underway_begun .ident hb
  rw [exec_begun .ident hb]
  refine agrees_wait h (row_runningAt_wl _ _) fun n q hq => ?_
  exact agrees_transmit (j := 0) hq rfl (by simp) fun q hq => agrees_drain hq rfl rfl

/-- Every procedure agrees with the sequencer. -/
theorem agrees_exec (i : Instr) (hb : s.busy = false) : Agrees i s (procedureOf i s) (exec i s) := by
  have h := underway_begun i hb
  cases i with
  | ident => exact agrees_ident hb
  | rdpage page => rw [exec_begun _ hb]; exact agrees_payload h rfl rfl rfl
  | uid => rw [exec_begun _ hb]; exact agrees_payload h rfl rfl rfl
  | wrpage page d0 d1 d2 d3 => rw [exec_begun _ hb]; exact agrees_acknowledged h rfl rfl rfl
  | status => rw [exec_begun _ hb]; exact agrees_acknowledged h rfl rfl rfl
  | progee address value => rw [exec_begun _ hb]; exact agrees_acknowledged h rfl rfl rfl

end

/-- Settles O11: each part of a procedure agrees with the rows that stand for it, whatever comes after it. -/
theorem sequencerAgreesWithTheProcedures : Obligations.SequencerAgreesWithTheProcedures :=
  fun i _ hb => agrees_exec i hb

end Sys2Proof.Machine
end

section
/-! What one row of the sequencer can do, said once with its guards (R85): from it follow the frame of the device's memories and
the invariant. -/

namespace Sys2Proof.Machine

/-- A poll in the phase of `s` waits with timeout `T`: WL against `TMO_LISTEN`, WA, WP and WD against `TMO_DATA` (R69, R70). -/
def PollsFor (s : State) (T : Millis) : Prop :=
  (s.phase = .wl ∧ T = s.lat.tmoListen) ∨ ((s.phase = .wa ∨ s.phase = .wp ∨ s.phase = .wd) ∧ T = s.lat.tmoData)

/-- One row of R85 takes `s` to a state: a constructor for each entry of the table, with the guard under which it is taken. A poll
of the line may have drawn `n` free values (R27). -/
inductive RowStep (s : State) : State → Prop where
  /-- A poll fails before its deadline, and the poller sleeps (R65). -/
  | sleeps {T : Millis} (n : Nat) (hp : PollsFor s T) (hT : T = 0 ∨ s.elapsed.toNat < T.toNat) : RowStep s (slept (draw n s))
  /-- A wait of a command times out (R112, R113, R115). -/
  | timesOut {T : Millis} (n : Nat) (k : WaitKind) (c : FailCause) (hp : PollsFor s T)
      (hT : T ≠ 0 ∧ T.toNat ≤ s.elapsed.toNat) : RowStep s (fail c (logTimeout k (draw n s)))
  /-- The predicate of a bare WAIT holds (R65). -/
  | bareHolds (n : Nat) (hw : s.lat.waitOnly = true) : RowStep s (endWait true (draw n s))
  /-- A bare WAIT times out (R65). -/
  | bareTimesOut {T : Millis} (n : Nat) (k : WaitKind) (hw : s.lat.waitOnly = true) (hp : PollsFor s T)
      (hT : T ≠ 0 ∧ T.toNat ≤ s.elapsed.toNat) : RowStep s (endWait false (logTimeout k (draw n s)))
  /-- WL: the device listens (R75). -/
  | listens (n : Nat) (hp : s.phase = .wl) (hw : s.lat.waitOnly = false) : RowStep s (toTransmit (draw n s))
  /-- TX: a byte that is not the last of the frame (R76). -/
  | sends (b : Byte) (hp : s.phase = .tx) (hx : frameGet s.lat.x s.txi = some b) (hl : s.txi + 1 < s.lat.len) :
      RowStep s (sentByte b s)
  /-- TX: the last byte, before an acknowledgment. -/
  | awaitsAck (b : Byte) (hp : s.phase = .tx) (hx : frameGet s.lat.x s.txi = some b) (hae : s.lat.ae = true) :
      RowStep s (toWait .wa (sentByte b s))
  /-- TX: the last byte, before a drain that waits for data (R83). -/
  | awaitsDrain (b : Byte) (hp : s.phase = .tx) (hx : frameGet s.lat.x s.txi = some b) (hpm : s.lat.pm = .drain) :
      RowStep s (toWait .wd (sentByte b s))
  /-- TX: the last byte, before a drain that does not wait (R83). -/
  | beginsDrain (b : Byte) (hp : s.phase = .tx) (hx : frameGet s.lat.x s.txi = some b) (hpm : s.lat.pm = .drain) :
      RowStep s (toPhase .dc (sentByte b s))
  /-- TX: the only byte of a SENDB (R81). -/
  | sent (b : Byte) (hp : s.phase = .tx) (hx : frameGet s.lat.x s.txi = some b) (hpm : s.lat.pm = .none) :
      RowStep s (succeed (sentByte b s))
  /-- WA: there is an acknowledgment to read (R77). -/
  | answered (hp : s.phase = .wa) (hw : s.lat.waitOnly = false) (hq : s.rx ≠ []) : RowStep s (toPhase .sa s)
  /-- SA (R78). -/
  | settlesAck (hp : s.phase = .sa) : RowStep s (toPhase .ra s)
  /-- RA (R79). -/
  | readsAck {r : Byte} {q : List Byte} (hp : s.phase = .ra) (hq : s.rx = r :: q) :
      RowStep s (toPhase .ck (storeAck r (takeHead r q s)))
  /-- CK: accepted, with no payload to come (R80). -/
  | accepts (hp : s.phase = .ck) (hc : ackAccepted s.lastAck s.lat.mask = true) (hpm : s.lat.pm = .none) :
      RowStep s (succeed s)
  /-- CK: accepted, with a payload to come (R82). -/
  | beginsPayload (hp : s.phase = .ck) (hc : ackAccepted s.lastAck s.lat.mask = true) (hpm : s.lat.pm = .fixed) :
      RowStep s (toPayload s)
  /-- CK: not accepted (R114). -/
  | mismatches (hp : s.phase = .ck) (hc : ackAccepted s.lastAck s.lat.mask = false) : RowStep s (fail .ackMismatch s)
  /-- WP: there is a payload byte to read (R82). -/
  | findsByte (hp : s.phase = .wp) (hq : s.rx ≠ []) : RowStep s (toPhase .sp s)
  /-- SP (R82). -/
  | settlesByte (hp : s.phase = .sp) : RowStep s (toPhase .rp s)
  /-- RP: a payload byte that is not the last (R82). -/
  | readsByte {r : Byte} {q : List Byte} {d : DataRegs} (hp : s.phase = .rp) (hq : s.rx = r :: q)
      (hd : dataSet s.data s.rxi r = some d) (hl : s.rxi + 1 < s.lat.pcnt) :
      RowStep s (toWait .wp (storedPayload d (takeHead r q s)))
  /-- RP: the last payload byte (R82). -/
  | readsLastByte {r : Byte} {q : List Byte} {d : DataRegs} (hp : s.phase = .rp) (hq : s.rx = r :: q)
      (hd : dataSet s.data s.rxi r = some d) (hl : s.lat.pcnt ≤ s.rxi + 1) :
      RowStep s (succeed (storedPayload d (takeHead r q s)))
  /-- WD: there is a byte to drain (R83). -/
  | findsDrain (hp : s.phase = .wd) (hq : s.rx ≠ []) : RowStep s (toPhase .dc s)
  /-- DC: the queue is not empty (R83). -/
  | drains (hp : s.phase = .dc) (hq : s.rx ≠ []) : RowStep s (toPhase .sd s)
  /-- DC: the queue is empty (R83). -/
  | drained (hp : s.phase = .dc) (hq : s.rx = []) : RowStep s (succeed s)
  /-- SD (R83). -/
  | settlesDrain (hp : s.phase = .sd) : RowStep s (toPhase .rd s)
  /-- RD: a byte that fits the identifier buffer (R83). -/
  | readsDrain {r : Byte} {q : List Byte} (hp : s.phase = .rd) (hq : s.rx = r :: q)
      (hc : s.idBuf.length < s.cfg.identCap) : RowStep s (toPhase .dc (storeIdent r (takeHead r q s)))

section
variable {s t : State}

/-- A poll, where each of its two ends is an entry of the table. -/
theorem rowStep_poll {b : Bool} {T : Millis} {k : WaitKind} {f g : State → State} (n : Nat) (hp : PollsFor s T)
    (hf : b = true → RowStep s (f (draw n s)))
    (hg : T ≠ 0 ∧ T.toNat ≤ s.elapsed.toNat → RowStep s (g (logTimeout k (draw n s)))) :
    RowStep s (poll b T k f g (draw n s)) := by
  rcases poll_cases b T k f g (draw n s) with ⟨hb, h⟩ | ⟨-, h0, hT, h⟩ | ⟨-, hT, h⟩ <;> rw [h]
  · exact hf hb
  · exact hg ⟨h0, hT⟩
  · exact .sleeps n hp hT

theorem rowWL_step (hp : s.phase = .wl) (h : rowWL s = .next t) : RowStep s t := by
  obtain ⟨n, hn⟩ := readyLevel_snd s
  rw [rowWL, hn] at h
  cases h
  have hpoll : PollsFor s s.lat.tmoListen := .inl ⟨hp, rfl⟩
  cases hw : s.lat.waitOnly with
  | true => exact rowStep_poll n hpoll (fun _ => .bareHolds n hw) (.bareTimesOut n .listen hw hpoll)
  | false => exact rowStep_poll n hpoll (fun _ => .listens n hp hw) (.timesOut n .listen .notListening hpoll)

theorem afterFrame_step {b : Byte} (hp : s.phase = .tx) (hx : frameGet s.lat.x s.txi = some b)
    (h : afterFrame (sentByte b s) = .next t) : RowStep s t := by
  cases hae : s.lat.ae with
  | true =>
    rw [afterFrame_ack (by simpa using hae)] at h
    cases h
    exact .awaitsAck b hp hx hae
  | false =>
    rw [afterFrame, sentByte_lat, hae] at h
    cases hpm : s.lat.pm <;> rw [hpm] at h <;> cases h
    · exact .sent b hp hx hpm
    · split_ifs
      · exact .awaitsDrain b hp hx hpm
      · exact .beginsDrain b hp hx hpm

theorem rowTX_step (hp : s.phase = .tx) (h : rowTX s = .next t) : RowStep s t := by
  rw [rowTX] at h
  split at h
  · cases hx : frameGet s.lat.x s.txi with
    | none => rw [hx] at h; cases h
    | some b =>
      rw [hx] at h
      dsimp only at h
      split_ifs at h with hl
      · cases h
        exact .sends b hp hx hl
      · exact afterFrame_step hp hx h
  · cases h

theorem rowWA_step (hp : s.phase = .wa) (h : rowWA s = .next t) : RowStep s t := by
  cases h
  have hpoll : PollsFor s s.lat.tmoData := .inr ⟨.inl hp, rfl⟩
  cases hw : s.lat.waitOnly with
  | true => exact rowStep_poll 0 hpoll (fun _ => .bareHolds 0 hw) (.bareTimesOut 0 .data hw hpoll)
  | false =>
    exact rowStep_poll 0 hpoll (fun ha => .answered hp hw ((rxAvail_iff s).1 ha)) (.timesOut 0 .data .noResponse hpoll)

theorem rowRA_step (hp : s.phase = .ra) (h : rowRA s = .next t) : RowStep s t := by
  cases hq : s.rx with
  | nil => rw [rowRA_nil hq] at h; cases h
  | cons r q =>
    rw [rowRA_cons hq] at h
    cases h
    exact .readsAck hp hq

theorem rowCK_step (hp : s.phase = .ck) (h : rowCK s = .next t) : RowStep s t := by
  cases hc : ackAccepted s.lastAck s.lat.mask with
  | false =>
    rw [rowCK_mismatch hc] at h
    cases h
    exact .mismatches hp hc
  | true =>
    cases hpm : s.lat.pm with
    | none => rw [rowCK_end hc hpm] at h; cases h; exact .accepts hp hc hpm
    | fixed => rw [rowCK_payload hc hpm] at h; cases h; exact .beginsPayload hp hc hpm
    | drain => rw [rowCK, if_pos hc, hpm] at h; cases h

theorem rowWP_step (hp : s.phase = .wp) (h : rowWP s = .next t) : RowStep s t := by
  cases h
  have hpoll : PollsFor s s.lat.tmoData := .inr ⟨.inr (.inl hp), rfl⟩
  exact rowStep_poll 0 hpoll (fun ha => .findsByte hp ((rxAvail_iff s).1 ha)) (.timesOut 0 .data .payloadTimeout hpoll)

theorem rowRP_step (hp : s.phase = .rp) (h : rowRP s = .next t) : RowStep s t := by
  cases hq : s.rx with
  | nil => rw [rowRP_nil hq] at h; cases h
  | cons r q =>
    cases hd : dataSet s.data s.rxi r with
    | none =>
      rw [rowRP, rxPop_cons hq] at h
      dsimp only at h
      rw [hd] at h
      cases h
    | some d =>
      rw [rowRP_cons hq hd] at h
      cases h
      split_ifs with hl
      · exact .readsByte hp hq hd hl
      · exact .readsLastByte hp hq hd (Nat.not_lt.1 hl)

theorem rowWD_step (hp : s.phase = .wd) (h : rowWD s = .next t) : RowStep s t := by
  cases h
  have hpoll : PollsFor s s.lat.tmoData := .inr ⟨.inr (.inr hp), rfl⟩
  exact rowStep_poll 0 hpoll (fun ha => .findsDrain hp ((rxAvail_iff s).1 ha)) (.timesOut 0 .data .noResponse hpoll)

theorem rowDC_step (hp : s.phase = .dc) (h : rowDC s = .next t) : RowStep s t := by
  cases h
  split_ifs with ha
  · exact .drains hp ((rxAvail_iff s).1 ha)
  · exact .drained hp (by simpa [rxAvail_iff] using ha)

theorem rowRD_step (hp : s.phase = .rd) (h : rowRD s = .next t) : RowStep s t := by
  cases hq : s.rx with
  | nil => rw [rowRD_nil hq] at h; cases h
  | cons r q =>
    by_cases hc : s.idBuf.length < s.cfg.identCap
    · rw [rowRD_cons hq hc] at h
      cases h
      exact .readsDrain hp hq hc
    · rw [rowRD_full hq (Nat.not_lt.1 hc)] at h
      cases h

/-- Whatever next state a row answers is an entry of the table. -/
theorem row_step (h : row s = .next t) : RowStep s t := by
  cases hp : s.phase with
  | idle => rw [row_idle hp] at h; cases h
  | wl => exact rowWL_step hp (row_wl hp ▸ h)
  | tx => exact rowTX_step hp (row_tx hp ▸ h)
  | wa => exact rowWA_step hp (row_wa hp ▸ h)
  | sa => rw [row_sa hp] at h; cases h; exact .settlesAck hp
  | ra => exact rowRA_step hp (row_ra hp ▸ h)
  | ck => exact rowCK_step hp (row_ck hp ▸ h)
  | wp => exact rowWP_step hp (row_wp hp ▸ h)
  | sp => rw [row_sp hp] at h; cases h; exact .settlesByte hp
  | rp => exact rowRP_step hp (row_rp hp ▸ h)
  | wd => exact rowWD_step hp (row_wd hp ▸ h)
  | dc => exact rowDC_step hp (row_dc hp ▸ h)
  | sd => rw [row_sd hp] at h; cases h; exact .settlesDrain hp
  | rd => exact rowRD_step hp (row_rd hp ▸ h)

/-! ### The start -/

/-- The operand registers that are admitted, and with which payload mode (R87). -/
theorem admittedMode_eq_ok {r : OperandRegs} {pm : PayloadMode} :
    admittedMode r = .ok pm ↔ lengthAdmitted r.len.toNat = true ∧ r.pcnt.toNat ≤ 4 ∧ pmOfCode r.pm = some pm ∧
      shapeAdmitted r.wl r.ae pm r.pcnt.toNat r.len.toNat = true := by
  rw [admittedMode]
  cases hl : lengthAdmitted r.len.toNat with
  | false => simp
  | true =>
    by_cases hc : 4 < r.pcnt.toNat
    · simp [hc]
    · cases hm : pmOfCode r.pm with
      | none => simp [hc]
      | some p =>
        simp only [Bool.not_true, Bool.false_eq_true, if_false, hc, Nat.not_lt.1 hc, true_and, Option.some.injEq]
        split_ifs with hs
        · rw [Except.ok.injEq]
          exact ⟨fun h => ⟨h, h ▸ hs⟩, And.left⟩
        · exact iff_of_false (by simp) fun h => hs (h.1 ▸ h.2)

/-- A start is answered by an idle machine with admitted operand registers, and by no other (R87). -/
theorem startOperation_eq_next :
    startOperation s = .next t ↔ ∃ pm, s.busy = false ∧ admittedMode s.opnd = .ok pm ∧ t = enterFirstPhase (latch pm s) := by
  cases hb : s.busy with
  | true => simp [startOperation, hb]
  | false =>
    cases hm : admittedMode s.opnd with
    | error r => simp [startOperation, hb, hm]
    | ok pm => simp [startOperation_ok hb hm, eq_comm]

end

end Sys2Proof.Machine
end

section
/-! The invariant of the machine (R18, R20, R29, R30, R73, R85): the rows keep it, the starts reach it, and the host's turns keep
it. -/

namespace Sys2Proof.Machine

/-! ### The parts of the invariant -/

/-- The part of the invariant into which neither the phase nor the host's call enters. -/
structure Stored (s : State) : Prop where
  tag_wf : memWf tagSize s.tag
  ee_wf  : memWf eeSize s.ee
  ident  : s.idBuf.length ≤ s.cfg.identCap
  data   : s.dataValid ≤ 4

/-- A busy state that meets the invariant: into it the host's call does not enter. -/
structure InProgress (s : State) : Prop extends Stored s where
  busy     : s.busy = true
  admitted : latchedAdmitted s.lat = true
  position : positionRight s

/-- A bare WAIT aside, a latched operation has a shape of R87. -/
theorem latchedAdmitted_iff {l : Latched} (hw : l.waitOnly = false) :
    latchedAdmitted l = true ↔
      lengthAdmitted l.len = true ∧ l.pcnt ≤ 4 ∧ shapeAdmitted l.wl l.ae l.pm l.pcnt l.len = true := by
  simp [latchedAdmitted, hw, and_assoc]

/-- A payload read has at least one byte (R87). -/
theorem pcnt_pos_of_shapeAdmitted {wl ae : Bool} {pcnt len : Nat} (h : shapeAdmitted wl ae .fixed pcnt len = true) : 0 < pcnt := by
  cases wl <;> cases ae <;> simp [shapeAdmitted] at h
  exact h

section
variable {s t : State}

theorem Invariant.stored (h : Invariant s) : Stored s := { h with }

theorem Invariant.inProgress (h : Invariant s) (hb : s.busy = true) : InProgress s :=
  { h.stored with busy := hb, admitted := (h.running hb).1, position := (h.running hb).2 }

theorem InProgress.invariant (h : InProgress s) : Invariant s :=
  { h.toStored with
    busy_iff := iff_of_true h.busy fun hp => by simpa [positionRight, hp] using h.position
    running := fun _ => ⟨h.admitted, h.position⟩
    verdict := fun hb => absurd h.busy (by simp [hb]) }

/-- An idle state meets the invariant where `ok` is valid if a call's return is outstanding. -/
theorem Stored.invariant (h : Stored s) (hb : s.busy = false) (hp : s.phase = .idle)
    (hv : s.call ≠ none → s.okValid = true) : Invariant s :=
  { h with
    busy_iff := iff_of_false (by simp [hb]) (by simp [hp])
    running := fun hb' => absurd hb' (by simp [hb])
    verdict := fun _ => hv }

/-- The position of a busy state, spelled for the phase it is in. -/
theorem InProgress.positionAt (h : InProgress s) {p : Phase} (hp : s.phase = p) : positionRight (toPhase p s) := by
  subst hp
  exact h.position

theorem InProgress.pcnt_le (h : InProgress s) (hw : s.lat.waitOnly = false) : s.lat.pcnt ≤ 4 :=
  ((latchedAdmitted_iff hw).1 h.admitted).2.1

theorem InProgress.len_pos (h : InProgress s) (hw : s.lat.waitOnly = false) : 0 < s.lat.len := by
  have hl := ((latchedAdmitted_iff hw).1 h.admitted).1
  simp only [lengthAdmitted, Bool.and_eq_true, decide_eq_true_eq] at hl
  exact hl.1

theorem InProgress.pcnt_pos (h : InProgress s) (hw : s.lat.waitOnly = false) (hpm : s.lat.pm = .fixed) : 0 < s.lat.pcnt :=
  pcnt_pos_of_shapeAdmitted (hpm ▸ ((latchedAdmitted_iff hw).1 h.admitted).2.2)

/-! ### The environment -/

/-- A move of the environment adds to the queue, which no position forbids. -/
theorem positionRight_applyMove (m : EnvMove) (h : positionRight s) : positionRight (applyMove m s) := by
  revert h
  unfold positionRight
  cases hp : s.phase <;> simp +contextual [hp, elapsedRight]

theorem Stored.moved (h : Stored s) (m : EnvMove) : Stored (applyMove m s) :=
  { h with tag_wf := memWf_storeTag h.tag_wf, ee_wf := memWf_storeEe h.ee_wf }

theorem Invariant.moved (h : Invariant s) (m : EnvMove) : Invariant (applyMove m s) :=
  { h.stored.moved m with
    busy_iff := h.busy_iff
    running := fun hb => ⟨(h.running hb).1, positionRight_applyMove m (h.running hb).2⟩
    verdict := h.verdict }

theorem Invariant.envTurn (h : Invariant s) : Invariant (envTurn s) := by
  obtain ⟨m, e, d, hm⟩ := envTurn_cases s
  have hs : Invariant { s with env := e, draws := d } := { h with }
  rw [hm]
  exact hs.moved m

/-! ### The poll's `elapsed` -/

theorem elapsedRight_zero (T : Millis) : elapsedRight T 0 := fun _ => ⟨rfl, Nat.zero_le _⟩

/-- The sleep before the deadline reaches at most the multiple of `POLL_INC` at which the wait fails (R67, R73). -/
theorem elapsedRight_afterSleep {T e : Millis} (h : elapsedRight T e) (hT : T = 0 ∨ e.toNat < T.toNat) :
    elapsedRight T (afterSleep e) := by
  intro hne
  obtain ⟨hmod, -⟩ := h hne
  have hlt := hT.resolve_left hne
  have hbound := T.isLt
  have hs := afterSleep_toNat (e := e)
  simp only [failingSleeps, pollInc] at hmod hs ⊢
  rw [hs (by omega)]
  omega

/-! ### The ends of an operation -/

theorem Stored.succeeded (h : Stored s) (hc : s.lat.pcnt ≤ 4) : Invariant (succeed s) := by
  have hd : (succeed s).dataValid ≤ 4 := by
    rw [succeed_dataValid]
    split_ifs
    · exact max_le hc h.data
    · exact h.data
  exact { h with data := hd : Stored (succeed s) }.invariant rfl rfl fun _ => rfl

theorem Stored.failed (h : Stored s) (c : FailCause) : Invariant (fail c s) := by
  have hd : (fail c s).dataValid ≤ 4 := by
    rw [fail_dataValid]
    split_ifs
    · exact Nat.zero_le 4
    · exact h.data
  exact { h with data := hd : Stored (fail c s) }.invariant rfl rfl fun _ => rfl

theorem Stored.waitEnded (h : Stored s) (v : Bool) : Invariant (endWait v s) :=
  { h with : Stored (endWait v s) }.invariant rfl rfl fun hc => absurd rfl hc

/-! ### The rows -/

/-- A poll that sleeps stays where it is. -/
theorem InProgress.slept {T : Millis} (h : InProgress s) (n : Nat) (hp : PollsFor s T) (hT : T = 0 ∨ s.elapsed.toNat < T.toNat) :
    InProgress (slept (draw n s)) := by
  refine { h with position := ?_ }
  rcases hp with ⟨hp, rfl⟩ | ⟨hp | hp | hp, rfl⟩
  all_goals
    have hpos := h.positionAt hp
    simp only [positionRight, slept_phase, draw_phase, hp, toPhase_phase] at hpos ⊢
  · exact hpos.imp_right (elapsedRight_afterSleep · hT)
  · exact hpos.imp_right (elapsedRight_afterSleep · hT)
  · exact hpos.imp_right (.imp_right (.imp_right (elapsedRight_afterSleep · hT)))
  · exact hpos.imp_right (.imp_right (elapsedRight_afterSleep · hT))

/-- Every row keeps the invariant: it goes on to a phase whose position it has established, or ends the operation. -/
theorem InProgress.rowStep (h : InProgress s) (hr : RowStep s t) : Invariant t := by
  cases hr with
  | sleeps n hp hT => exact (h.slept n hp hT).invariant
  | timesOut n k c hp hT => exact { h.toStored with : Stored (logTimeout k (draw n s)) }.failed c
  | bareHolds n hw => exact { h.toStored with : Stored (draw n s) }.waitEnded true
  | bareTimesOut n k hw hp hT => exact { h.toStored with : Stored (logTimeout k (draw n s)) }.waitEnded false
  | listens n hp hw => exact { h with position := ⟨hw, h.len_pos hw⟩ : InProgress (toTransmit (draw n s)) }.invariant
  | sends b hp hx hl =>
    obtain ⟨hw, -⟩ := h.positionAt hp
    have hpos : positionRight (sentByte b s) := by
      simp only [positionRight, sentByte_phase, hp]
      exact ⟨hw, hl⟩
    exact { h with position := hpos : InProgress (sentByte b s) }.invariant
  | awaitsAck b hp hx hae =>
    exact { h with position := ⟨.inr hae, elapsedRight_zero _⟩ : InProgress (toWait .wa (sentByte b s)) }.invariant
  | awaitsDrain b hp hx hpm =>
    obtain ⟨hw, -⟩ := h.positionAt hp
    exact { h with position := ⟨hw, hpm, elapsedRight_zero _⟩ : InProgress (toWait .wd (sentByte b s)) }.invariant
  | beginsDrain b hp hx hpm =>
    obtain ⟨hw, -⟩ := h.positionAt hp
    exact { h with position := ⟨hw, hpm⟩ : InProgress (toPhase .dc (sentByte b s)) }.invariant
  | sent b hp hx hpm =>
    obtain ⟨hw, -⟩ := h.positionAt hp
    exact { h.toStored with : Stored (sentByte b s) }.succeeded (h.pcnt_le hw)
  | answered hp hw hq =>
    obtain ⟨hae, -⟩ := h.positionAt hp
    exact { h with position := ⟨hw, hae.resolve_left (by simp [hw]), hq⟩ : InProgress (toPhase .sa s) }.invariant
  | settlesAck hp =>
    obtain ⟨hw, hae, hq⟩ := h.positionAt hp
    exact { h with position := ⟨hw, hae, hq⟩ : InProgress (toPhase .ra s) }.invariant
  | readsAck hp hq =>
    obtain ⟨hw, hae, -⟩ := h.positionAt hp
    exact { h with position := ⟨hw, hae⟩ : InProgress (toPhase .ck (storeAck _ (takeHead _ _ s))) }.invariant
  | accepts hp hc hpm =>
    obtain ⟨hw, -⟩ := h.positionAt hp
    exact h.succeeded (h.pcnt_le hw)
  | beginsPayload hp hc hpm =>
    obtain ⟨hw, -⟩ := h.positionAt hp
    exact { h with position := ⟨hw, hpm, h.pcnt_pos hw hpm, elapsedRight_zero _⟩ : InProgress (toPayload s) }.invariant
  | mismatches hp hc => exact h.failed .ackMismatch
  | findsByte hp hq =>
    obtain ⟨hw, hpm, hlt, -⟩ := h.positionAt hp
    exact { h with position := ⟨hw, hpm, hlt, hq⟩ : InProgress (toPhase .sp s) }.invariant
  | settlesByte hp =>
    obtain ⟨hw, hpm, hlt, hq⟩ := h.positionAt hp
    exact { h with position := ⟨hw, hpm, hlt, hq⟩ : InProgress (toPhase .rp s) }.invariant
  | readsByte hp hq hd hl =>
    obtain ⟨hw, hpm, -⟩ := h.positionAt hp
    exact { h with position := ⟨hw, hpm, hl, elapsedRight_zero _⟩ :
      InProgress (toWait .wp (storedPayload _ (takeHead _ _ s))) }.invariant
  | readsLastByte hp hq hd hl =>
    obtain ⟨hw, -⟩ := h.positionAt hp
    exact { h.toStored with : Stored (storedPayload _ (takeHead _ _ s)) }.succeeded (h.pcnt_le hw)
  | findsDrain hp hq =>
    obtain ⟨hw, hpm, -⟩ := h.positionAt hp
    exact { h with position := ⟨hw, hpm⟩ : InProgress (toPhase .dc s) }.invariant
  | drains hp hq =>
    obtain ⟨hw, hpm⟩ := h.positionAt hp
    exact { h with position := ⟨hw, hpm, hq⟩ : InProgress (toPhase .sd s) }.invariant
  | drained hp hq =>
    obtain ⟨hw, -⟩ := h.positionAt hp
    exact h.succeeded (h.pcnt_le hw)
  | settlesDrain hp =>
    obtain ⟨hw, hpm, hq⟩ := h.positionAt hp
    exact { h with position := ⟨hw, hpm, hq⟩ : InProgress (toPhase .rd s) }.invariant
  | readsDrain hp hq hc =>
    obtain ⟨hw, hpm, -⟩ := h.positionAt hp
    exact { h with position := ⟨hw, hpm⟩, ident := by simpa using hc :
      InProgress (toPhase .dc (storeIdent _ (takeHead _ _ s))) }.invariant

/-! ### The runs -/

theorem Invariant.drive {ms : List EnvMove} (h : Invariant s) (hd : drive ms s = .next t) : Invariant t := by
  induction ms generalizing s with
  | nil =>
    cases hd
    exact { h with }
  | cons m ms ih =>
    cases hb : s.busy with
    | true =>
      rw [drive_busy m ms hb] at hd
      obtain ⟨u, hu, hd⟩ := andThen_eq_next.1 hd
      have hm : Invariant (applyMove m (setEnv ms s)) := { h with : Invariant (setEnv ms s) }.moved m
      exact ih ((hm.inProgress hb).rowStep (row_step hu)) hd
    | false =>
      rw [drive_idle _ hb] at hd
      cases hd
      exact { h with }

theorem Invariant.driveListed (h : Invariant s) (hd : driveListed s = .next t) : Invariant t := h.drive hd

theorem Invariant.resume (h : Invariant s) (hb : s.busy = true) (hr : resume s = .next t) : Invariant t := by
  obtain ⟨u, hu, hd⟩ := andThen_eq_next.1 hr
  have hb' : (Machine.envTurn s).busy = true := by
    obtain ⟨m, e, d, hm⟩ := envTurn_cases s
    rw [hm]
    exact hb
  exact ((h.envTurn.inProgress hb').rowStep (row_step hu)).driveListed hd

/-! ### The starts -/

/-- A start from an idle machine leaves the operation in progress, whatever the host waits for. -/
theorem Stored.startOperation (h : Stored s) (hs : startOperation s = .next t) : InProgress t := by
  obtain ⟨pm, -, hpm, rfl⟩ := startOperation_eq_next.1 hs
  obtain ⟨hlen, hcnt, -, hshape⟩ := admittedMode_eq_ok.1 hpm
  have hlat : latchedAdmitted (latch pm s).lat = true := (latchedAdmitted_iff rfl).2 ⟨hlen, hcnt, hshape⟩
  have hid : (latch pm s).idBuf.length ≤ s.cfg.identCap := by
    rw [latch_idBuf]
    split_ifs
    · exact Nat.zero_le _
    · exact h.ident
  have hst : Stored (latch pm s) := { h with ident := hid }
  rw [enterFirstPhase]
  split_ifs with hwl
  · exact { hst with busy := rfl, admitted := hlat, position := ⟨.inr hwl, elapsedRight_zero _⟩ }
  · have hpos : 0 < (latch pm s).lat.len := by
      simp only [lengthAdmitted, Bool.and_eq_true, decide_eq_true_eq] at hlen
      exact hlen.1
    exact { hst with busy := rfl, admitted := hlat, position := ⟨rfl, hpos⟩ }

theorem Stored.runOperation (h : Stored s) (hr : runOperation s = .next t) : Invariant t := by
  obtain ⟨u, hu, hd⟩ := andThen_eq_next.1 hr
  exact (h.startOperation hu).invariant.driveListed hd

theorem Stored.issue {d : Descriptor} (h : Stored s) (hi : issue d s = .next t) : Invariant t :=
  { h with : Stored (writeOperands (loadDescriptor s.opnd d) s) }.runOperation hi

theorem Stored.exec {i : Instr} (h : Stored s) (he : exec i s = .next t) : Invariant t := by
  cases i <;> exact h.issue he

theorem Stored.runWait {k : WaitKind} {T : Millis} (h : Stored s) (hr : runWait k T s = .next t) : Invariant t := by
  rw [Machine.runWait] at hr
  split_ifs at hr
  cases k with
  | listen =>
    refine (InProgress.invariant ?_).driveListed hr
    exact { h with busy := rfl, admitted := rfl, position := ⟨.inl rfl, elapsedRight_zero _⟩ }
  | data =>
    refine (InProgress.invariant ?_).driveListed hr
    exact { h with busy := rfl, admitted := rfl, position := ⟨.inl rfl, elapsedRight_zero _⟩ }

/-! ### The host -/

theorem Invariant.delivered (h : Invariant s) (r : HostResult) : Invariant (deliver r s) :=
  { h with verdict := fun _ hc => absurd rfl hc }

/-- What the host waits for from now on enters into none of what is stored. -/
theorem Invariant.called (h : Invariant s) (c : Option Call) : Stored (setCall c s) := { h with }

theorem Invariant.hostReturn {c : Call} (h : Invariant s) (hr : hostReturn c s = .next t) : Invariant t := by
  rw [Machine.hostReturn] at hr
  split_ifs at hr
  · cases htodo : c.todo with
    | nil =>
      rw [htodo] at hr
      cases hr
      exact h.delivered _
    | cons i rest =>
      rw [htodo] at hr
      exact (h.called _).exec hr
  · cases hr
    exact { h with : Invariant (draw 4 s) }.delivered _

theorem Invariant.beginSequence {q : Sequence} (h : Invariant s) (hr : beginSequence q s = .next t) : Invariant t := by
  rw [Machine.beginSequence] at hr
  split at hr
  · cases hr
  · cases hr
    exact h.delivered _
  · exact (h.called _).exec hr

theorem Stored.reset (h : Stored s) (hc : s.call = none) : Invariant (resetFramer s) :=
  { h with ident := Nat.zero_le _, data := Nat.zero_le _ : Stored (resetFramer s) }.invariant rfl rfl fun hne => absurd hc hne

theorem Invariant.hostIssue {op : HostOp} (h : Invariant s) (hc : s.call = none) (hr : hostIssue op s = .next t) :
    Invariant t := by
  cases op with
  | wire frame =>
    rw [Machine.hostIssue] at hr
    split at hr
    · exact (h.called _).exec hr
    · cases hr
  | sendCommand bytes mask =>
    rw [Machine.hostIssue] at hr
    split_ifs at hr
    exact (h.called _).issue hr
  | sendByte b => exact (h.called _).issue hr
  | load r => cases hr; exact { h with }
  | start => exact (h.called _).runOperation hr
  | wait kind timeout => exact (h.called _).runWait hr
  | setTimeouts listen data => cases hr; exact { h with }
  | getAck => cases hr; exact h.delivered _
  | readData => cases hr; exact { h with : Invariant (draw 1 s) }.delivered _
  | readIdent => cases hr; exact { h with : Invariant (draw 1 s) }.delivered _
  | beginFramer enableUID =>
    have hi : Invariant (setInit s) := { h with }
    cases enableUID with
    | true => exact hi.beginSequence (q := .enableUIDQuery) hr
    | false => cases hr; exact hi.delivered _
  | sequence q => exact h.beginSequence hr
  | reset => cases hr; exact h.stored.reset hc

theorem Invariant.hostTurn (h : Invariant s) (hr : hostTurn s = .next t) : Invariant t := by
  rw [Machine.hostTurn] at hr
  cases hc : s.call with
  | some c =>
    rw [hc] at hr
    exact h.hostReturn hr
  | none =>
    rw [hc] at hr
    cases hh : s.host with
    | nil =>
      rw [hh] at hr
      cases hr
      exact h.envTurn
    | cons op rest =>
      rw [hh] at hr
      exact { h with : Invariant (setHost rest s) }.hostIssue hc hr

theorem Invariant.step (h : Invariant s) (hs : step s = .next t) : Invariant t := by
  rw [Machine.step] at hs
  split_ifs at hs with hb
  · exact h.resume hb hs
  · exact h.hostTurn hs

end

/-- Settles O9: a busy machine takes a row, an idle one a turn of the host, and both keep the invariant. -/
theorem everyStepKeepsTheInvariant : Obligations.EveryStepKeepsTheInvariant :=
  fun _ _ h hs => h.step hs

/-- Settles O8: the reset state is idle, and its memories and identifier buffer are empty. -/
theorem resetMeetsTheInvariant : Obligations.ResetMeetsTheInvariant :=
  have hst : Stored State.reset :=
    { tag_wf := reset_memWf.1, ee_wf := reset_memWf.2, ident := Nat.zero_le _, data := Nat.zero_le _ }
  hst.invariant rfl rfl fun hc => absurd rfl hc

end Sys2Proof.Machine
end

section
/-! What a command leaves alone: the device's memories (R28 to R30), and the operand and timeout registers of the host (R15). -/

namespace Sys2Proof.Machine

/-! ### The device's memories -/

theorem storeTag_append (ds es : List DevStore) (m : List Host.Cell) : storeTag (ds ++ es) m = storeTag es (storeTag ds m) := by
  induction ds generalizing m with
  | nil => rfl
  | cons d ds ih => cases d <;> exact ih _

theorem storeEe_append (ds es : List DevStore) (m : List Host.Cell) : storeEe (ds ++ es) m = storeEe es (storeEe ds m) := by
  induction ds generalizing m with
  | nil => rfl
  | cons d ds ih => cases d <;> exact ih _

/-- What the device stores in a list of moves, in order. -/
def storesOf (ms : List EnvMove) : List DevStore := ms.flatMap EnvMove.stores

theorem storesOf_cons (m : EnvMove) (ms : List EnvMove) : storesOf (m :: ms) = m.stores ++ storesOf ms := List.flatMap_cons

/-- No row stores in the device's memories (R28). -/
theorem RowStep.memory {s t : State} (h : RowStep s t) : t.tag = s.tag ∧ t.ee = s.ee := by
  cases h <;> exact ⟨rfl, rfl⟩

/-- Over a run the memories change by just what the moves it consumes store. -/
theorem drive_memory {ms : List EnvMove} {s t : State} (h : drive ms s = .next t) :
    ∃ used, ms = used ++ t.env ∧ t.tag = storeTag (storesOf used) s.tag ∧ t.ee = storeEe (storesOf used) s.ee := by
  induction ms generalizing s with
  | nil =>
    cases h
    exact ⟨[], rfl, rfl, rfl⟩
  | cons m ms ih =>
    cases hb : s.busy with
    | true =>
      rw [drive_busy m ms hb] at h
      obtain ⟨u, hu, h⟩ := andThen_eq_next.1 h
      obtain ⟨used, hms, htag, hee⟩ := ih h
      obtain ⟨hutag, huee⟩ := (row_step hu).memory
      refine ⟨m :: used, congrArg (m :: ·) hms, ?_, ?_⟩
      · rw [htag, hutag, storesOf_cons, storeTag_append]
        rfl
      · rw [hee, huee, storesOf_cons, storeEe_append]
        rfl
    | false =>
      rw [drive_idle _ hb] at h
      cases h
      exact ⟨[], rfl, rfl, rfl⟩

/-- The same over a wire command (R88). -/
theorem exec_memory {i : Instr} {s t : State} (h : exec i s = .next t) :
    ∃ used, s.env = used ++ t.env ∧ t.tag = storeTag (storesOf used) s.tag ∧ t.ee = storeEe (storesOf used) s.ee := by
  cases hb : s.busy with
  | true => rw [exec_busy i hb] at h; cases h
  | false =>
    rw [exec_eq i hb] at h
    obtain ⟨used, hmem⟩ := drive_memory h
    exact ⟨used, hmem⟩

theorem memRead_storeTag_storesOf {ms : List EnvMove} {a : Nat} (m : List Host.Cell) (h : noTagStore a ms) :
    memRead (storeTag (storesOf ms) m) a = memRead m a := by
  refine memRead_storeTag fun d hd => ?_
  obtain ⟨mv, hmv, hd⟩ := List.mem_flatMap.1 hd
  exact h mv hmv d hd

theorem memRead_storeEe_storesOf {ms : List EnvMove} {a : Nat} (m : List Host.Cell) (h : noEeStore a ms) :
    memRead (storeEe (storesOf ms) m) a = memRead m a := by
  refine memRead_storeEe fun d hd => ?_
  obtain ⟨mv, hmv, hd⟩ := List.mem_flatMap.1 hd
  exact h mv hmv d hd

/-- Settles O40: what a command leaves in the memories is what the consumed moves have stored over what was there. -/
theorem commandFrameOfMemory : Obligations.CommandFrameOfMemory := by
  intro i s t h
  obtain ⟨used, henv, htag, hee⟩ := exec_memory h
  refine ⟨used, henv, fun a ha => ?_, fun a ha => ?_⟩
  · rw [htag, memRead_storeTag_storesOf s.tag ha]
  · rw [hee, memRead_storeEe_storesOf s.ee ha]

/-! ### The latched copy -/

theorem pmCode_of_pmOfCode {c : BitVec 2} {pm : PayloadMode} (h : pmOfCode c = some pm) : pmCode pm = c := by
  revert c
  cases pm <;> decide

/-- The host writes all its registers. -/
def hostWrites (r : OperandRegs) (l d : Millis) (s : State) : State := writeTimeouts l d (writeOperands r s)

/-- No row reads or writes the host's registers (R15). -/
theorem row_hostWrites (r : OperandRegs) (l d : Millis) (s : State) :
    row (hostWrites r l d s) = mapNext (hostWrites r l d) (row s) := by
  have h : row (hostWrites r l d s) = mapNext (foreign s.env r l d) (row s) := row_foreign s.env r l d s
  rw [h]
  cases hr : row s with
  | next t => rw [mapNext_next, mapNext_next, ← row_env hr]; rfl
  | fault x => rfl
  | refused x => rfl

/-- No run reads or writes the host's registers (R15). -/
theorem drive_hostWrites (ms : List EnvMove) (r : OperandRegs) (l d : Millis) (s : State) :
    drive ms (hostWrites r l d s) = mapNext (hostWrites r l d) (drive ms s) := by
  induction ms generalizing s with
  | nil => rfl
  | cons m ms ih =>
    cases hb : s.busy with
    | true =>
      have hrow := row_hostWrites r l d (applyMove m (setEnv ms s))
      rw [drive_busy (s := hostWrites r l d s) m ms hb, drive_busy m ms hb, ← andThen_mapNext fun u _ => ih u, ← hrow]
      rfl
    | false =>
      rw [drive_idle (s := hostWrites r l d s) _ hb, drive_idle _ hb]
      rfl

/-- A start latches the operands and timeouts, goes busy and enters the first phase (R15, R17, R85). -/
theorem startOperation_copies {s t : State} (h : startOperation s = .next t) :
    ∃ pm, pmCode pm = s.opnd.pm ∧ t.lat = latchOperands s.opnd pm s.tmoListen s.tmoData ∧ t.busy = true ∧
      (if s.opnd.wl then t.phase = .wl ∧ t.elapsed = 0 else t.phase = .tx ∧ t.txi = 0) ∧
      t.idBuf = (latch pm s).idBuf := by
  obtain ⟨pm, -, hpm, rfl⟩ := startOperation_eq_next.1 h
  obtain ⟨-, -, hcode, -⟩ := admittedMode_eq_ok.1 hpm
  refine ⟨pm, pmCode_of_pmOfCode hcode, ?_⟩
  have hwl : (latch pm s).lat.wl = s.opnd.wl := rfl
  rw [enterFirstPhase, hwl]
  cases s.opnd.wl <;> exact ⟨rfl, rfl, ⟨rfl, rfl⟩, rfl⟩

/-- Settles O41: the start from what it latches, the run by induction on the moves from the rows. -/
theorem hostWritesDoNotReachARunningOperation : Obligations.HostWritesDoNotReachARunningOperation := by
  refine ⟨fun s t h => ?_, fun ms s r l d => drive_hostWrites ms r l d s⟩
  obtain ⟨pm, hcode, hlat, hbusy, hphase, hid⟩ := startOperation_copies h
  have hdrain : pm = .drain ↔ s.opnd.pm = 2 := by
    rw [← hcode]
    cases pm <;> decide
  rw [hlat]
  refine ⟨rfl, rfl, rfl, rfl, rfl, hcode, rfl, rfl, rfl, hbusy, hphase, ?_⟩
  simp only [hid, latch_idBuf, hdrain]

end Sys2Proof.Machine
end

section
/-! Reset, the host's registers and buffers, and the codes (R16 to R18, R21, R24, R33). -/

namespace Sys2Proof.Machine

/-- An idle machine whose host waits for no return issues the host's next operation (R47). -/
theorem step_issue {s : State} {op : HostOp} {hs : List HostOp} (hb : s.busy = false) (hc : s.call = none)
    (hh : s.host = op :: hs) : step s = hostIssue op (setHost hs s) := by
  rw [step, if_neg (by simp [hb]), hostTurn, hc, hh]

/-- Settles O7: what the host's reset writes is what the reset state holds, and it writes nothing of the environment. -/
theorem resetLeavesTheStatedValues : Obligations.ResetLeavesTheStatedValues := by
  refine ⟨rfl, rfl, rfl, rfl, rfl, rfl, rfl, rfl, rfl, rfl, fun s hs hb hc hh => ?_⟩
  refine ⟨resetFramer (setHost hs s), step_issue hb hc hh, ?_⟩
  exact ⟨rfl, rfl, rfl, rfl, rfl, rfl, rfl, rfl, rfl, rfl, rfl, rfl, rfl, rfl, rfl, rfl, rfl, rfl⟩

/-- Settles O48: the step issues the write, which is its own next state. -/
theorem hostRegistersAreWritable : Obligations.HostRegistersAreWritable :=
  ⟨fun _ _ _ _ hb hc hh => step_issue hb hc hh, fun _ _ _ hb hc hh => step_issue hb hc hh⟩

theorem length_hostData (s : State) : (hostData s).length = 4 := by
  simp [hostData, dataList]
  omega

/-- The defined part of `DATA` is handed to the host as it is (R16, R146). -/
theorem take_hostData (s : State) : (hostData s).take s.dataValid = (dataList s.data).take s.dataValid := by
  rcases Nat.le_total s.dataValid 4 with h | h
  · exact List.take_left' (by simp [dataList, h])
  · simp [hostData, dataList, List.drop_eq_nil_of_le, h]

/-- Handing over a result while no call is outstanding only lengthens the results. -/
theorem deliver_of_call_none {s : State} (r : HostResult) (hc : s.call = none) :
    deliver r s = { s with results := s.results ++ [r] } := by
  rw [deliver, ← hc]

/-- Settles O49: a read hands over the defined bytes, and free ones in the place of the others. -/
theorem hostReadsDefinedBuffers : Obligations.HostReadsDefinedBuffers := by
  refine ⟨fun s hs hb hc hh => ?_, fun s hs hb hc hh hid => ?_⟩
  · refine ⟨hostData (setHost hs s), ?_, length_hostData _, take_hostData (setHost hs s)⟩
    rw [step_issue hb hc hh, hostIssue, deliver_of_call_none (s := draw 1 (setHost hs s)) _ hc]
    rfl
  · have hout : hostIdent (setHost hs s) = s.idBuf := if_pos hid
    rw [step_issue hb hc hh, hostIssue, deliver_of_call_none (s := draw 1 (setHost hs s)) _ hc, hout]
    rfl

/-- Settles O60: the table of codes read off, and for the codes that name nothing every code looked at. -/
theorem codesAreAsTabulated : Obligations.CodesAreAsTabulated := by
  have hphase : ∀ p : Phase, phaseOfCode (phaseCode p) = some p := by
    intro p
    cases p <;> rfl
  have hmode : ∀ m : PayloadMode, pmOfCode (pmCode m) = some m := by
    intro m
    cases m <;> rfl
  refine ⟨by decide, hphase, by decide, by decide, by decide, by decide, by decide, hmode, rfl⟩

end Sys2Proof.Machine
end

section
/-! The receive queue and the ready line (R27, R49, R50): a byte that is queued before the start is taken as the acknowledgment,
and only phase WL samples the line. -/

namespace Sys2Proof.Machine

/-! ### A byte queued before the start -/

/-- What an ended command is known to have done where byte `r` was at the head of the queue at its start (R50, R140). -/
def TookStale (r : Byte) (s : State) : Prop :=
  (s.ok = false ∧ s.cause = .notListening) ∨ (s.lastAck = r ∧ (s.ok = true → ackAccepted r s.lat.mask = true))

/-- How far a command with an acknowledgment has come, where byte `r` was at the head of the queue at its start: no phase before
RA takes a byte, and no phase after it writes `LAST_ACK`. -/
inductive StaleAt (r : Byte) (s : State) : Prop where
  /-- Up to phase RA the byte is still at the head of the queue. -/
  | queued (hb : s.busy = true) (hp : s.phase = .wl ∨ s.phase = .tx ∨ s.phase = .wa ∨ s.phase = .sa ∨ s.phase = .ra)
      (hq : ∃ q, s.rx = r :: q)
  /-- In phase CK it is in `LAST_ACK`. -/
  | acknowledged (hb : s.busy = true) (hp : s.phase = .ck) (ha : s.lastAck = r)
  /-- While the payload is read it stays there, and has passed the mask. -/
  | payload (hb : s.busy = true) (hp : s.phase = .wp ∨ s.phase = .sp ∨ s.phase = .rp) (ha : s.lastAck = r)
      (hc : ackAccepted r s.lat.mask = true)
  /-- The command has ended. -/
  | ended (hb : s.busy = false) (ht : TookStale r s)

section
variable {r : Byte} {s t : State}

/-- No row writes the private copy (R15). -/
theorem RowStep.lat (h : RowStep s t) : t.lat = s.lat := by
  cases h <;> rfl

/-- Row TX of a command with an acknowledgment sends one byte, and then the next or the wait for the acknowledgment is due. -/
theorem rowTX_of_ae (hae : s.lat.ae = true) (h : rowTX s = .next t) :
    ∃ b, t = sentByte b s ∨ t = toWait .wa (sentByte b s) := by
  rw [rowTX] at h
  split at h
  · split at h
    · cases h
    · rename_i b _
      rw [afterFrame_ack (s := sentByte b s) hae] at h
      split_ifs at h <;> cases h
      · exact ⟨b, .inl rfl⟩
      · exact ⟨b, .inr rfl⟩
  · cases h

/-- While the line is polled the byte stays queued; without a LOW in time the command fails with NotListening (R112). -/
theorem StaleAt.rowWL (hb : s.busy = true) (hp : s.phase = .wl) (hw : s.lat.waitOnly = false) (hq : ∃ q, s.rx = r :: q)
    (h : rowWL s = .next t) : StaleAt r t := by
  obtain ⟨n, hn⟩ := readyLevel_snd s
  rw [Machine.rowWL, hn, hw] at h
  cases h
  rcases poll_cases ((readyLevel s).1 == .low) s.lat.tmoListen .listen toTransmit (fail .notListening) (draw n s) with
    ⟨-, h⟩ | ⟨-, -, -, h⟩ | ⟨-, -, h⟩ <;> simp only [Bool.false_eq_true, if_false] <;> rw [h]
  · exact .queued hb (.inr (.inl rfl)) hq
  · exact .ended rfl (.inl ⟨rfl, rfl⟩)
  · exact .queued hb (.inl hp) hq

/-- Any row of a command whose byte is still queued: the wait for the acknowledgment ends at its first poll, and row RA takes
the byte. -/
theorem StaleAt.row_queued (hb : s.busy = true)
    (hp : s.phase = .wl ∨ s.phase = .tx ∨ s.phase = .wa ∨ s.phase = .sa ∨ s.phase = .ra) (hw : s.lat.waitOnly = false)
    (hae : s.lat.ae = true) (hq : ∃ q, s.rx = r :: q) (h : row s = .next t) : StaleAt r t := by
  rcases hp with hp | hp | hp | hp | hp
  · exact .rowWL hb hp hw hq (row_wl hp ▸ h)
  · obtain ⟨b, rfl | rfl⟩ := rowTX_of_ae hae (row_tx hp ▸ h)
    · exact .queued hb (.inr (.inl hp)) hq
    · exact .queued hb (.inr (.inr (.inl rfl))) hq
  · have ha : rxAvail s = true := by
      obtain ⟨q, hq⟩ := hq
      simp [rxAvail_iff, hq]
    rw [row_wa hp, rowWA, ha, hw] at h
    cases h
    exact .queued hb (.inr (.inr (.inr (.inl rfl)))) hq
  · rw [row_sa hp] at h
    cases h
    exact .queued hb (.inr (.inr (.inr (.inr rfl)))) hq
  · obtain ⟨q, hq⟩ := hq
    rw [row_ra hp, rowRA_cons hq] at h
    cases h
    exact .acknowledged hb rfl rfl

/-- Row CK: the byte passes the mask, or the command ends in a failure. -/
theorem StaleAt.row_acknowledged (hb : s.busy = true) (hp : s.phase = .ck) (ha : s.lastAck = r) (h : row s = .next t) :
    StaleAt r t := by
  cases hc : ackAccepted r s.lat.mask with
  | false =>
    rw [row_ck hp, rowCK_mismatch (ha ▸ hc)] at h
    cases h
    exact .ended rfl (.inr ⟨ha, nofun⟩)
  | true =>
    cases hpm : s.lat.pm with
    | none =>
      rw [row_ck hp, rowCK_end (ha ▸ hc) hpm] at h
      cases h
      exact .ended rfl (.inr ⟨ha, fun _ => hc⟩)
    | fixed =>
      rw [row_ck hp, rowCK_payload (ha ▸ hc) hpm] at h
      cases h
      exact .payload hb (.inl rfl) ha hc
    | drain =>
      rw [row_ck hp, rowCK, if_pos (ha ▸ hc), hpm] at h
      cases h

/-- Rows WP, SP and RP: the payload goes to `DATA` and leaves `LAST_ACK` (R82). -/
theorem StaleAt.row_payload (hb : s.busy = true) (hp : s.phase = .wp ∨ s.phase = .sp ∨ s.phase = .rp) (ha : s.lastAck = r)
    (hc : ackAccepted r s.lat.mask = true) (h : row s = .next t) : StaleAt r t := by
  rcases hp with hp | hp | hp
  · rw [row_wp hp, rowWP] at h
    cases h
    rcases poll_cases (rxAvail s) s.lat.tmoData .data (toPhase .sp) (fail .payloadTimeout) s with
      ⟨-, h⟩ | ⟨-, -, -, h⟩ | ⟨-, -, h⟩ <;> rw [h]
    · exact .payload hb (.inr (.inl rfl)) ha hc
    · exact .ended rfl (.inr ⟨ha, nofun⟩)
    · exact .payload hb (.inl hp) ha hc
  · rw [row_sp hp] at h
    cases h
    exact .payload hb (.inr (.inr rfl)) ha hc
  · cases hq : s.rx with
    | nil => rw [row_rp hp, rowRP_nil hq] at h; cases h
    | cons b q =>
      cases hd : dataSet s.data s.rxi b with
      | none => rw [row_rp hp, rowRP, rxPop_cons hq] at h; dsimp only at h; rw [hd] at h; cases h
      | some d =>
        rw [row_rp hp, rowRP_cons hq hd] at h
        cases h
        split_ifs
        · exact .payload hb (.inl rfl) ha hc
        · exact .ended rfl (.inr ⟨ha, fun _ => hc⟩)

/-- Every row of a command with an acknowledgment. -/
theorem StaleAt.row (hs : StaleAt r s) (hb : s.busy = true) (hw : s.lat.waitOnly = false) (hae : s.lat.ae = true)
    (h : row s = .next t) : StaleAt r t := by
  cases hs with
  | queued _ hp hq => exact row_queued hb hp hw hae hq h
  | acknowledged _ hp ha => exact row_acknowledged hb hp ha h
  | payload _ hp ha hc => exact row_payload hb hp ha hc h
  | ended hb' _ => simp [hb] at hb'

/-- Arrivals go to the tail of the queue, so the byte stays at its head (R8). -/
theorem StaleAt.moved (hs : StaleAt r s) (m : EnvMove) (ms : List EnvMove) : StaleAt r (applyMove m (setEnv ms s)) := by
  cases hs with
  | queued hb hp hq =>
    obtain ⟨q, hq⟩ := hq
    exact .queued hb hp ⟨q ++ m.arrivals, by simp [hq]⟩
  | acknowledged hb hp ha => exact .acknowledged hb hp ha
  | payload hb hp ha hc => exact .payload hb hp ha hc
  | ended hb ht => exact .ended hb ht

theorem StaleAt.setEnv (hs : StaleAt r s) (ms : List EnvMove) : StaleAt r (setEnv ms s) := by
  cases hs with
  | queued hb hp hq => exact .queued hb hp hq
  | acknowledged hb hp ha => exact .acknowledged hb hp ha
  | payload hb hp ha hc => exact .payload hb hp ha hc
  | ended hb ht => exact .ended hb ht

/-- A run of a command with an acknowledgment: it keeps the private copy it started with. -/
theorem StaleAt.drive {ms : List EnvMove} (hs : StaleAt r s) (hw : s.lat.waitOnly = false) (hae : s.lat.ae = true)
    (h : drive ms s = .next t) : StaleAt r t ∧ t.lat = s.lat := by
  induction ms generalizing s with
  | nil =>
    cases h
    exact ⟨hs.setEnv [], rfl⟩
  | cons m ms ih =>
    cases hb : s.busy with
    | true =>
      rw [drive_busy m ms hb] at h
      obtain ⟨u, hu, h⟩ := andThen_eq_next.1 h
      have hlat : u.lat = s.lat := (row_step hu).lat
      obtain ⟨ht, hl⟩ := ih ((hs.moved m ms).row hb hw hae hu) (hlat ▸ hw) (hlat ▸ hae) h
      exact ⟨ht, hl.trans hlat⟩
    | false =>
      rw [drive_idle _ hb] at h
      cases h
      exact ⟨hs.setEnv _, rfl⟩

end

/-- All commands but IDENT have an acknowledgment and a mask (R55). -/
theorem ae_and_mask_of_ne_ident {i : Instr} (h : i ≠ .ident) :
    (descriptorOf i).ae = true ∧ ∃ m, (descriptorOf i).mask = some m := by
  cases i with
  | ident => exact absurd rfl h
  | rdpage | wrpage | status | uid | progee => exact ⟨rfl, _, rfl⟩

/-- Settles O38: the byte is followed from the head of the queue into `LAST_ACK`, by induction on the moves. -/
theorem staleByteIsTakenAsTheAcknowledgment : Obligations.StaleByteIsTakenAsTheAcknowledgment := by
  intro i r q s t hne hb hq h htb
  obtain ⟨hae, m, hm⟩ := ae_and_mask_of_ne_ident hne
  rw [exec_eq i hb] at h
  have hstart : StaleAt r (toWait .wl (started i s)) := .queued rfl (.inl rfl) ⟨q, hq⟩
  obtain ⟨ht, hlat⟩ := hstart.drive (started_waitOnly i s) ((started_ae i s).trans hae) h
  have hmask : t.lat.mask = (descriptorOf i).mask.getD 0 := by
    rw [hlat, toWait_lat, started_mask, hm]
    rfl
  cases ht with
  | ended _ ht => exact ht.imp_right (And.imp_right fun hok htrue => by simpa [ackAccepted, okay, hmask] using hok htrue)
  | queued hb' | acknowledged hb' | payload hb' => simp [htb] at hb'

/-! ### The level of the ready line -/

/-- The ready line has level `l`. -/
def withReady (l : Level) (s : State) : State := { s with ready := l }

section
variable {l : Level} {s : State}

/-- Before `begin` a sample of the line is a free value, whatever its level (R27, D26). -/
theorem readyLevel_withReady (hi : s.init = false) :
    readyLevel (withReady l s) = ((readyLevel s).1, withReady l (readyLevel s).2) := by
  have hi' : (withReady l s).init = false := hi
  simp only [readyLevel, hi, hi', Bool.false_eq_true, if_false]
  rfl

/-- A poll does the same at any level of the line, where the predicate's value is given and its two ends do the same. -/
theorem poll_withReady {b : Bool} {T : Millis} {k : WaitKind} {f g : State → State}
    (hf : ∀ u, f (withReady l u) = withReady l (f u)) (hg : ∀ u, g (withReady l u) = withReady l (g u)) :
    poll b T k f g (withReady l s) = withReady l (poll b T k f g s) := by
  have helapsed : (withReady l s).elapsed = s.elapsed := rfl
  simp only [poll, helapsed]
  split_ifs
  · exact hf s
  · exact hg (logTimeout k s)
  · rfl

theorem rowWL_withReady (hi : s.init = false) : rowWL (withReady l s) = mapNext (withReady l) (rowWL s) := by
  have hlat : (withReady l s).lat = s.lat := rfl
  rw [rowWL, rowWL, readyLevel_withReady hi, hlat]
  cases s.lat.waitOnly <;> exact congrArg _ (poll_withReady (fun _ => rfl) fun _ => rfl)

theorem afterFrame_withReady : afterFrame (withReady l s) = mapNext (withReady l) (afterFrame s) := by
  have hlat : (withReady l s).lat = s.lat := rfl
  have hcfg : (withReady l s).cfg = s.cfg := rfl
  rw [afterFrame, afterFrame, hlat, hcfg]
  cases s.lat.ae with
  | true => rfl
  | false =>
    cases s.lat.pm with
    | drain => cases s.cfg.identWaitData <;> rfl
    | none | fixed => rfl

theorem rowTX_withReady : rowTX (withReady l s) = mapNext (withReady l) (rowTX s) := by
  have hlat : (withReady l s).lat = s.lat := rfl
  have htxi : (withReady l s).txi = s.txi := rfl
  rw [rowTX, rowTX, hlat, htxi]
  split_ifs
  · cases frameGet s.lat.x s.txi <;> rfl
  · cases frameGet s.lat.x s.txi with
    | none => rfl
    | some b => exact afterFrame_withReady (s := sentByte b s)
  · rfl

theorem rowWA_withReady : rowWA (withReady l s) = mapNext (withReady l) (rowWA s) := by
  have hlat : (withReady l s).lat = s.lat := rfl
  rw [rowWA, rowWA, hlat]
  cases s.lat.waitOnly <;> exact congrArg _ (poll_withReady (fun _ => rfl) fun _ => rfl)

theorem rowRA_withReady : rowRA (withReady l s) = mapNext (withReady l) (rowRA s) := by
  cases hq : s.rx with
  | nil => rw [rowRA_nil hq, rowRA_nil (u := withReady l s) hq]; rfl
  | cons r q => rw [rowRA_cons hq, rowRA_cons (s := withReady l s) hq]; rfl

theorem rowCK_withReady : rowCK (withReady l s) = mapNext (withReady l) (rowCK s) := by
  have hlat : (withReady l s).lat = s.lat := rfl
  have hack : (withReady l s).lastAck = s.lastAck := rfl
  rw [rowCK, rowCK, hlat, hack]
  split_ifs
  · cases s.lat.pm <;> rfl
  · rfl

theorem rowWP_withReady : rowWP (withReady l s) = mapNext (withReady l) (rowWP s) :=
  congrArg Host.Outcome.next (poll_withReady (f := toPhase .sp) (g := fail .payloadTimeout) (fun _ => rfl) fun _ => rfl)

theorem rowWD_withReady : rowWD (withReady l s) = mapNext (withReady l) (rowWD s) :=
  congrArg Host.Outcome.next (poll_withReady (f := toPhase .dc) (g := fail .noResponse) (fun _ => rfl) fun _ => rfl)

theorem rowRP_withReady : rowRP (withReady l s) = mapNext (withReady l) (rowRP s) := by
  cases hq : s.rx with
  | nil => rw [rowRP_nil hq, rowRP_nil (u := withReady l s) hq]; rfl
  | cons r q =>
    have hq' : (withReady l s).rx = r :: q := hq
    have hdata : dataSet (withReady l s).data (withReady l s).rxi r = dataSet s.data s.rxi r := rfl
    cases hd : dataSet s.data s.rxi r with
    | none =>
      rw [rowRP, rowRP, rxPop_cons hq, rxPop_cons hq']
      dsimp only
      rw [hdata, hd]
      rfl
    | some d =>
      rw [rowRP_cons hq hd, rowRP_cons hq' (hdata.trans hd), mapNext_next, apply_ite (withReady l)]
      rfl

theorem rowDC_withReady : rowDC (withReady l s) = mapNext (withReady l) (rowDC s) := by
  rw [rowDC, rowDC, mapNext_next, apply_ite (withReady l)]
  rfl

theorem rowRD_withReady : rowRD (withReady l s) = mapNext (withReady l) (rowRD s) := by
  cases hq : s.rx with
  | nil => rw [rowRD_nil hq, rowRD_nil (u := withReady l s) hq]; rfl
  | cons r q =>
    rcases Nat.lt_or_ge s.idBuf.length s.cfg.identCap with hc | hc
    · rw [rowRD_cons hq hc, rowRD_cons (s := withReady l s) hq hc]; rfl
    · rw [rowRD_full hq hc, rowRD_full (s := withReady l s) hq hc]; rfl

/-- Every row but WL, and WL before `begin`, does the same at any level of the line. -/
theorem row_withReady (h : s.phase ≠ .wl ∨ s.init = false) : row (withReady l s) = mapNext (withReady l) (row s) := by
  have hphase : (withReady l s).phase = s.phase := rfl
  rw [row, row, hphase]
  cases hp : s.phase with
  | wl => exact rowWL_withReady (h.resolve_left (absurd hp))
  | idle | sa | sp | sd => rfl
  | tx => exact rowTX_withReady
  | wa => exact rowWA_withReady
  | ra => exact rowRA_withReady
  | ck => exact rowCK_withReady
  | wp => exact rowWP_withReady
  | wd => exact rowWD_withReady
  | rp => exact rowRP_withReady
  | dc => exact rowDC_withReady
  | rd => exact rowRD_withReady

end

/-- Settles O42: no row but WL reads the line, and WL reads a free value in its place before `begin`. -/
theorem onlyPhaseWLSamplesTheLine : Obligations.OnlyPhaseWLSamplesTheLine :=
  fun _ _ h => row_withReady h

end Sys2Proof.Machine
end

section
/-! Frames and commands (R53 to R60): the decoder inverts the encoder at the head of a stream, and the cut inverts the
concatenation of frames. -/

namespace Sys2Proof.Machine

/-! ### The decoder -/

/-- A frame begins with its opcode (R53). -/
theorem encode_eq_opcodeOf_cons (i : Instr) : encode i = opcodeOf i :: (encode i).tail := by cases i <;> rfl

/-- The opcode fixes how many operand bytes are taken (R59), so the bytes after the frame have no part in it. -/
@[simp] theorem decode_encode_append (i : Instr) (rest : List Byte) : decode (encode i ++ rest) = .ok (i, rest) := by
  cases i <;> rfl

/-- A frame alone is its command, with nothing left over. -/
@[simp] theorem decodeFrame_encode (i : Instr) : decodeFrame (encode i) = some i := by
  have h := decode_encode_append i []
  rw [List.append_nil] at h
  rw [decodeFrame, h]

/-- What the decoder accepts begins with the frame of its answer: it takes no byte that is not in the frame. -/
theorem eq_encode_append_of_decode {bytes rest : List Byte} {i : Instr} (h : decode bytes = .ok (i, rest)) :
    bytes = encode i ++ rest := by
  unfold decode at h
  split at h
  · cases h
  · rename_i op tail
    split_ifs at h with hr hw hs hu hi hp
    · subst hr
      split at h <;> cases h
      rfl
    · subst hw
      split at h <;> cases h
      rfl
    · subst hs
      cases h
      rfl
    · subst hu
      cases h
      rfl
    · subst hi
      cases h
      rfl
    · subst hp
      split at h <;> cases h
      rfl

/-- A first byte that is none of the six opcodes (R60). -/
theorem decode_of_not_opcode {op : Byte} (rest : List Byte) (h : op ∉ [0x52, 0x57, 0x53, 0x55, 0x7A, 0x50]) :
    decode (op :: rest) = .error (.unknownOpcode op) := by
  simp only [List.mem_cons, List.not_mem_nil, or_false, not_or] at h
  obtain ⟨hr, hw, hs, hu, hi, hp⟩ := h
  unfold decode
  exact (if_neg hr).trans <| (if_neg hw).trans <| (if_neg hs).trans <| (if_neg hu).trans <| (if_neg hi).trans (if_neg hp)

/-- WRPAGE has five operand bytes (R54, F5). -/
theorem decode_wrpage_short (rest : List Byte) (h : rest.length < 5) :
    decode (opWrpage :: rest) = .error (.truncated opWrpage) := by
  match rest, h with
  | [], _ | [_], _ | [_, _], _ | [_, _, _], _ | [_, _, _, _], _ => rfl

/-- PROGEE has two operand bytes (R54, F2). -/
theorem decode_progee_short (rest : List Byte) (h : rest.length < 2) :
    decode (opProgee :: rest) = .error (.truncated opProgee) := by
  match rest, h with
  | [], _ | [_], _ => rfl

/-! ### The cut -/

/-- The frames of a list of commands are the first one's frame and then the others'. -/
@[simp] theorem framesOf_cons (i : Instr) (is : List Instr) : framesOf (i :: is) = encode i ++ framesOf is := rfl

/-- No frame is empty, so a stream has no more commands than bytes. -/
theorem length_le_length_framesOf (is : List Instr) : is.length ≤ (framesOf is).length := by
  induction is with
  | nil => exact Nat.le_refl 0
  | cons i is ih =>
    rw [framesOf_cons, encode_eq_opcodeOf_cons]
    simp only [List.cons_append, List.length_cons, List.length_append]
    omega

/-- The cut takes the frame at the head off and goes on with the bytes after it. -/
theorem cutFuel_encode_append (fuel : Nat) (i : Instr) (rest : List Byte) :
    cutFuel (fuel + 1) (encode i ++ rest) = (cutFuel fuel rest).map (i :: ·) := by
  have hd := decode_encode_append i rest
  rw [encode_eq_opcodeOf_cons, List.cons_append] at hd ⊢
  rw [cutFuel, hd]
  dsimp only
  cases cutFuel fuel rest <;> rfl

/-- The cut gives back a list of commands wherever it has fuel for each of them. -/
theorem cutFuel_framesOf (fuel : Nat) (is : List Instr) (h : is.length ≤ fuel) : cutFuel fuel (framesOf is) = .ok is := by
  induction is generalizing fuel with
  | nil => cases fuel <;> rfl
  | cons i is ih =>
    cases fuel with
    | zero => cases h
    | succ fuel =>
      rw [framesOf_cons, cutFuel_encode_append, ih fuel (Nat.le_of_succ_le_succ h)]
      rfl

/-- A cut that ends with no error has taken the stream apart into the frames of its answer. -/
theorem framesOf_of_cutFuel {fuel : Nat} {bytes : List Byte} {is : List Instr} (h : cutFuel fuel bytes = .ok is) :
    framesOf is = bytes := by
  induction fuel generalizing bytes is with
  | zero =>
    cases bytes with
    | nil => cases h; rfl
    | cons op tail => cases h
  | succ fuel ih =>
    cases bytes with
    | nil => cases h; rfl
    | cons op tail =>
      cases hd : decode (op :: tail) with
      | error e =>
        rw [cutFuel, hd] at h
        cases h
      | ok head =>
        obtain ⟨i, rest⟩ := head
        have hbytes : op :: tail = encode i ++ rest := eq_encode_append_of_decode hd
        rw [hbytes, cutFuel_encode_append] at h
        cases hc : cutFuel fuel rest with
        | error e =>
          rw [hc] at h
          cases h
        | ok js =>
          rw [hc] at h
          cases h
          rw [hbytes, framesOf_cons, ih hc]

/-! ### The obligations -/

/-- Settles O2, by induction on the commands: a stream has a byte, and so the cut has fuel, for each of them. -/
theorem cutRecoversEveryCommandList : Obligations.CutRecoversEveryCommandList :=
  fun is => cutFuel_framesOf _ is (length_le_length_framesOf is)

/-- Settles O3, by induction on the fuel of the cut. -/
theorem cutStreamIsItsFrames : Obligations.CutStreamIsItsFrames :=
  fun _ _ h => framesOf_of_cutFuel h

/-- Settles O1: each command's frame is read off by its opcode. -/
theorem encodedCommandDecodesToItself : Obligations.EncodedCommandDecodesToItself :=
  decode_encode_append

/-- Settles O4: the empty stream, a first byte that is no opcode, and the three opcodes that have operands. -/
theorem otherStreamsAreRefusedByName : Obligations.OtherStreamsAreRefusedByName :=
  ⟨rfl, fun _ rest h => decode_of_not_opcode rest h, rfl, decode_wrpage_short, decode_progee_short⟩

/-- Settles O5: each word is the frame of its command, and the stream is the frames of its two. -/
theorem wordsOfTheEncodingDecode : Obligations.WordsOfTheEncodingDecode :=
  ⟨decodeFrame_encode (.rdpage 7), decodeFrame_encode (.wrpage 3 0xDE 0xAD 0xBE 0xEF), decodeFrame_encode .status,
    decodeFrame_encode .uid, decodeFrame_encode .ident, decodeFrame_encode (.progee 0x0C 0xFF),
    decodeFrame_encode (.wrpage 3 0xDE 0xAD 0xBE 0xEF), cutRecoversEveryCommandList [.progee 0x52 0x53, .uid]⟩

end Sys2Proof.Machine
end

section
/-! The Timeout Poller (R65 to R73): a wait over its samples, and the polls of phases WL and WA as such waits. -/

namespace Sys2Proof.Machine

/-! ### The sleeps of a wait -/

/-- A failed sample at which the deadline has passed (R65). -/
theorem waitFor_deadline {T e : Millis} (rest : List Bool) (hT : T ≠ 0) (h : T.toNat ≤ e.toNat) :
    waitFor T e (false :: rest) = .timedOut e rest := by
  rw [waitFor, if_pos (deadlinePassed_iff.2 ⟨hT, h⟩)]

/-- A failed sample before the deadline, or without one (R65, R66). -/
theorem waitFor_sleep {T e : Millis} (rest : List Bool) (h : T = 0 ∨ e.toNat < T.toNat) :
    waitFor T e (false :: rest) = waitFor T (afterSleep e) rest := by
  rw [waitFor, if_neg]
  rw [deadlinePassed_iff, not_and, Nat.not_le]
  exact or_iff_not_imp_left.1 h

/-- `elapsed` after `n` sleeps. -/
def afterSleeps (n : Nat) (e : Millis) : Millis := afterSleep^[n] e

/-- `elapsed` counts the sleeps that fit its 16 bits (R73). -/
theorem afterSleeps_toNat {n : Nat} {e : Millis} (h : e.toNat + 5 * n ≤ 65535) : (afterSleeps n e).toNat = e.toNat + 5 * n := by
  induction n with
  | zero => rfl
  | succ n ih =>
    have hn : (afterSleeps n e).toNat = e.toNat + 5 * n := ih (by omega)
    have hs : (afterSleeps n e).toNat + pollInc < 2 ^ 16 := by rw [hn, pollInc]; omega
    rw [afterSleeps, Function.iterate_succ_apply', ← afterSleeps, afterSleep_toNat hs, hn, pollInc]
    omega

/-- Failed samples up to the deadline are sleeps (R65). -/
theorem waitFor_falses {T e : Millis} {n : Nat} (l : List Bool) (h : T = 0 ∨ e.toNat + 5 * n < T.toNat + 5) :
    waitFor T e (List.replicate n false ++ l) = waitFor T (afterSleeps n e) l := by
  induction n generalizing l with
  | zero => rfl
  | succ n ih =>
    have hT := T.isLt
    have hlt : T = 0 ∨ (afterSleeps n e).toNat < T.toNat :=
      h.imp_right fun h => by rw [afterSleeps_toNat (by omega)]; omega
    rw [List.replicate_succ', List.append_assoc, ih _ (h.imp_right (by omega)), List.singleton_append, waitFor_sleep l hlt,
      afterSleeps, afterSleeps, Function.iterate_succ_apply']

/-- The sleeps a wait may take from `elapsed` 0 (R67). -/
theorem le_failingSleeps_iff {n T : Nat} : n ≤ failingSleeps T ↔ 5 * n < T + 5 := by
  simp only [failingSleeps, pollInc]
  omega

theorem five_mul_failingSleeps_le (T : Millis) : 5 * failingSleeps T.toNat ≤ 65535 := by
  have hT := T.isLt
  have h := le_failingSleeps_iff.1 (Nat.le_refl (failingSleeps T.toNat))
  omega

/-- From 0 `elapsed` is 5 for each sleep, as long as that fits its 16 bits (R73). -/
theorem afterSleeps_zero_toNat {n : Nat} (h : 5 * n ≤ 65535) : (afterSleeps n 0).toNat = 5 * n := by
  simpa using afterSleeps_toNat (e := 0) (by simpa using h)

/-! ### The three ends of a wait from `elapsed` 0 -/

theorem waitFor_zero_falses {T : Millis} {n : Nat} (l : List Bool) (h : T = 0 ∨ n ≤ failingSleeps T.toNat) :
    waitFor T 0 (List.replicate n false ++ l) = waitFor T (afterSleeps n 0) l :=
  waitFor_falses l (h.imp_right fun h => by simpa using le_failingSleeps_iff.1 h)

/-- The least true sample comes no later than the deadline. -/
theorem waitFor_zero_holds {T : Millis} {k : Nat} (rest : List Bool) (h : T = 0 ∨ k ≤ failingSleeps T.toNat) :
    waitFor T 0 (List.replicate k false ++ true :: rest) = .holds (afterSleeps k 0) rest :=
  waitFor_zero_falses _ h

/-- Every sample up to the deadline is false (R67). -/
theorem waitFor_zero_timedOut {T : Millis} (rest : List Bool) (hT : T ≠ 0) :
    waitFor T 0 (List.replicate (failingPolls T.toNat) false ++ rest) = .timedOut (afterSleeps (failingSleeps T.toNat) 0) rest := by
  have hle : T.toNat ≤ (afterSleeps (failingSleeps T.toNat) 0).toNat := by
    rw [afterSleeps_zero_toNat (five_mul_failingSleeps_le T), failingSleeps, pollInc]
    omega
  rw [failingPolls, List.replicate_succ', List.append_assoc, waitFor_zero_falses _ (.inr le_rfl)]
  exact waitFor_deadline rest hT hle

/-- There are only false samples, and none at the deadline. -/
theorem waitFor_zero_waiting {T : Millis} {n : Nat} (h : T = 0 ∨ n ≤ failingSleeps T.toNat) :
    waitFor T 0 (List.replicate n false) = .waiting (afterSleeps n 0) := by
  rw [← List.append_nil (List.replicate n false)]
  exact waitFor_zero_falses [] h

/-- Settles O14: the sleeps up to the deadline, then the poll that holds or fails there. -/
theorem waitCountsItsPolls : Obligations.WaitCountsItsPolls := by
  refine ⟨fun T rest hT => ?_, fun T k rest hk => ?_, fun T => rfl, rfl, rfl, rfl, rfl⟩
  · exact ⟨_, waitFor_zero_timedOut rest hT, afterSleeps_zero_toNat (five_mul_failingSleeps_le T)⟩
  · have := five_mul_failingSleeps_le T
    exact ⟨_, waitFor_zero_holds rest (.inr hk), afterSleeps_zero_toNat (by omega)⟩

/-- A list with `n` false samples at its head. -/
theorem eq_replicate_false_append {n : Nat} {l : List Bool} (hl : n ≤ l.length) (h : ∀ k < n, l[k]? = some false) :
    l = List.replicate n false ++ l.drop n := by
  have htake : l.take n = List.replicate n false := by
    refine List.ext_getElem (by simpa using hl) fun k hk _ => ?_
    have hkn : k < n := by simp at hk; omega
    simpa [List.getElem?_eq_getElem (hkn.trans_le hl)] using h k hkn
  rw [← htake, List.take_append_drop]

/-- Settles O15: each of the three kinds of sample lists is false samples and what ends or does not end the wait after them. -/
theorem waitIsAFunctionOfItsSamples : Obligations.WaitIsAFunctionOfItsSamples := by
  refine ⟨fun T k rest h => ⟨_, waitFor_zero_holds rest h, afterSleeps_zero_toNat⟩, fun T samples hT hl h => ?_,
    fun n => ⟨_, waitFor_zero_waiting (.inl rfl), afterSleeps_zero_toNat⟩⟩
  have hs := eq_replicate_false_append (n := failingPolls T.toNat) hl fun k hk => h k (Nat.le_of_lt_succ hk)
  rw [hs]
  exact ⟨_, _, waitFor_zero_timedOut _ hT, afterSleeps_zero_toNat (five_mul_failingSleeps_le T)⟩

/-! ### Every list of samples -/

theorem eq_replicate_false {l : List Bool} (h : true ∉ l) : l = List.replicate l.length false :=
  List.eq_replicate_iff.2 ⟨rfl, fun b hb => by cases b with | false => rfl | true => exact absurd hb h⟩

/-- A list of samples has none that is true, or a least one. -/
theorem falses_or_first_true (l : List Bool) :
    (∃ n, l = List.replicate n false) ∨ ∃ k rest, l = List.replicate k false ++ true :: rest := by
  by_cases h : true ∈ l
  · obtain ⟨as, rest, hl, has⟩ := List.eq_append_cons_of_mem h
    exact .inr ⟨as.length, rest, by rw [hl, ← eq_replicate_false has]⟩
  · exact .inl ⟨l.length, eq_replicate_false h⟩

/-- Without a deadline a wait with no true sample goes on (R66). -/
theorem waitFor_endless_waiting {l : List Bool} (e : Millis) (h : true ∉ l) :
    waitFor 0 e l = .waiting (afterSleeps l.length e) := by
  rw [eq_replicate_false h, ← List.append_nil (List.replicate _ _), waitFor_falses [] (.inl rfl)]
  simp [waitFor]

/-- Without a deadline a wait with a true sample holds (R66). -/
theorem waitFor_endless_holds {l : List Bool} (e : Millis) (h : true ∈ l) : ∃ e' rest, waitFor 0 e l = .holds e' rest := by
  obtain ⟨n, rfl⟩ | ⟨k, rest, rfl⟩ := falses_or_first_true l
  · simp at h
  · exact ⟨_, rest, waitFor_falses (true :: rest) (.inl rfl)⟩

/-- Settles O16: some sample is true or none is. -/
theorem waitWithoutDeadlineNeverTimesOut : Obligations.WaitWithoutDeadlineNeverTimesOut := by
  refine ⟨fun samples e e' rest => ?_, fun samples e => ⟨fun ⟨e', rest, hh⟩ => ?_, waitFor_endless_holds e⟩,
    fun samples e h => ⟨_, waitFor_endless_waiting e h, afterSleeps_toNat⟩⟩
  · by_cases h : true ∈ samples
    · obtain ⟨e₁, rest₁, hh⟩ := waitFor_endless_holds e h
      rw [hh]
      exact nofun
    · rw [waitFor_endless_waiting e h]
      exact nofun
  · by_contra h
    rw [waitFor_endless_waiting e h] at hh
    cases hh

/-- A list of samples has its least true one at `m` or before, or is false up to `m`, or is false and ends there or before. -/
theorem samples_cases (m : Nat) (l : List Bool) :
    (∃ k rest, k ≤ m ∧ l = List.replicate k false ++ true :: rest) ∨ (∃ rest, l = List.replicate (m + 1) false ++ rest) ∨
      ∃ n, n ≤ m ∧ l = List.replicate n false := by
  have hlong : ∀ n rest, m < n → ∃ rest', List.replicate n false ++ rest = List.replicate (m + 1) false ++ rest' := by
    intro n rest hn
    refine ⟨List.replicate (n - (m + 1)) false ++ rest, ?_⟩
    rw [← List.append_assoc, ← List.replicate_add, Nat.add_sub_of_le hn]
  obtain ⟨n, rfl⟩ | ⟨k, rest, rfl⟩ := falses_or_first_true l
  · rcases Nat.lt_or_ge m n with hn | hn
    · exact .inr (.inl (by simpa using hlong n [] hn))
    · exact .inr (.inr ⟨n, hn, rfl⟩)
  · rcases Nat.lt_or_ge m k with hk | hk
    · exact .inr (.inl (hlong k (true :: rest) hk))
    · exact .inl ⟨k, rest, hk, rfl⟩

/-- Settles O17: the wait holds by the deadline, or has every sample up to it false, or runs out of samples before it. -/
theorem elapsedFitsSixteenBits : Obligations.ElapsedFitsSixteenBits := by
  intro T samples hT
  have hmax := five_mul_failingSleeps_le T
  refine ⟨hmax, ?_⟩
  obtain ⟨k, rest, hk, rfl⟩ | ⟨rest, rfl⟩ | ⟨n, hn, rfl⟩ := samples_cases (failingSleeps T.toNat) samples
  · have he : (afterSleeps k 0).toNat = 5 * k := afterSleeps_zero_toNat (by omega)
    simp only [waitFor_zero_holds rest (.inr hk), he, List.length_append, List.length_replicate, List.length_cons]
    omega
  · have he := afterSleeps_zero_toNat hmax
    have hwait := waitFor_zero_timedOut rest hT
    rw [failingPolls] at hwait
    simp only [hwait, he, List.length_append, List.length_replicate, and_true]
    omega
  · have he : (afterSleeps n 0).toNat = 5 * n := afterSleeps_zero_toNat (by omega)
    simp only [waitFor_zero_waiting (.inr hn), he, List.length_replicate, true_and]
    omega

/-! ### The polls of phases WL and WA -/

/-- A wait that goes on polls through all the moves there are. -/
theorem AtWait.drive_waiting {sample : State → Bool} {T n : Millis} {k : WaitKind} {f g : State → State} {s : State}
    {ms : List EnvMove} (hw : AtWait sample T k f g s) (hs : Steady sample)
    (h : waitFor T s.elapsed (pollSamples sample ms s) = .waiting n) : drive ms s = .next (waited n [] (afterMoves ms s)) := by
  have := (drive_polls hs hw ms []).2.2 n h
  rwa [List.append_nil, drive_nil] at this

/-- Settles O18: phase WL is at the listen wait, and the samples of that wait are the line's. -/
theorem listenPollsAreTheWait : Obligations.ListenPollsAreTheWait := by
  intro s ms rest hb hp hi hw
  have hwait := atWait_wl hb hp hi
  rw [hw] at hwait
  obtain ⟨hholds, htimes, -⟩ := drive_polls steady_listening hwait ms rest
  rw [← pollSamples_listening ms s]
  split
  · next e h => exact hholds e h
  · next e h => exact (htimes e h).trans (drive_idle rest rfl)
  · next e h => exact hwait.drive_waiting steady_listening h
  · trivial

/-- Settles O19: phase WA is at the acknowledgment's wait, and the samples of that wait are the queue's. -/
theorem dataPollsAreTheWait : Obligations.DataPollsAreTheWait := by
  intro s ms rest hb hp hw
  have hwait := atWait_wa hb hp
  rw [hw] at hwait
  obtain ⟨hholds, htimes, -⟩ := drive_polls steady_rxAvail hwait ms rest
  rw [← pollSamples_rxAvail ms s]
  split
  · next e h => exact hholds e h
  · next e h => exact (htimes e h).trans (drive_idle rest rfl)
  · next e h => exact hwait.drive_waiting steady_rxAvail h
  · trivial

/-! ### The bare WAIT -/

/-- The predicate of a wait of either kind, once `INIT` is 1 (R69, R70). -/
def predicateOf : WaitKind → State → Bool
  | .listen => listening
  | .data => rxAvail

/-- The phase in which a bare WAIT polls (log 12). -/
def waitPhase : WaitKind → Phase
  | .listen => .wl
  | .data => .wa

/-- An idle machine in which a bare WAIT has been started (R65, R71). -/
def waitStarted (k : WaitKind) (T : Millis) (s : State) : State :=
  { s with lat := { latchOperands s.opnd .none T T with waitOnly := true }, busy := true, elapsed := 0, phase := waitPhase k }

theorem runWait_eq (k : WaitKind) (T : Millis) {s : State} (hb : s.busy = false) :
    runWait k T s = driveListed (waitStarted k T s) := by
  rw [runWait, if_neg (by simp [hb])]
  cases k <;> rfl

theorem steady_predicateOf (k : WaitKind) : Steady (predicateOf k) := by
  cases k with
  | listen => exact steady_listening
  | data => exact steady_rxAvail

/-- A bare WAIT is at its wait, both ends of which end it (R65). -/
theorem atWait_waitStarted (k : WaitKind) (T : Millis) {s : State} (hi : s.init = true) :
    AtWait (predicateOf k) T k (endWait true) (endWait false) (waitStarted k T s) := by
  cases k with
  | listen => exact atWait_wl rfl rfl hi
  | data => exact atWait_wa rfl rfl

/-- Settles O20: the step issues the WAIT, whose polls are the wait, and either end hands over its boolean. -/
theorem bareWaitReturnsItsBoolean : Obligations.BareWaitReturnsItsBoolean := by
  intro s k T hs ms rest v e hready hc hh he hwait
  obtain ⟨hb, hi⟩ := hready
  have hstep : step s = drive (ms ++ rest) (waitStarted k T (setCall (some (singleCall .nothing)) (setHost hs s))) := by
    rw [step_issue hb hc hh, hostIssue, runWait_eq k T (by simpa using hb), driveListed, ← he]
    rfl
  generalize hu : waitStarted k T (setCall (some (singleCall .nothing)) (setHost hs s)) = u at hstep
  have hat : AtWait (predicateOf k) T k (endWait true) (endWait false) u := hu ▸ atWait_waitStarted k T hi
  have hsamples : waitFor T u.elapsed (pollSamples (predicateOf k) ms u) = if v then .holds e [] else .timedOut e [] := by
    rw [← hwait, ← hu]
    cases k with
    | listen => exact congrArg (waitFor T 0) (pollSamples_listening ms _)
    | data => exact congrArg (waitFor T 0) (pollSamples_rxAvail ms _)
  obtain ⟨hholds, htimes, -⟩ := drive_polls (steady_predicateOf k) hat ms rest
  cases v with
  | true =>
    refine ⟨_, hstep.trans ((hholds e hsamples).trans (drive_idle rest rfl)), ?_⟩
    simp [← hu, waitStarted]
  | false =>
    refine ⟨_, hstep.trans ((htimes e hsamples).trans (drive_idle rest rfl)), ?_⟩
    simp [← hu, waitStarted]

/-! ### A wait without a deadline polls on -/

/-- A wait without a deadline whose samples are all false polls through all the moves there are (R66). -/
theorem AtWait.drive_endless {sample : State → Bool} {k : WaitKind} {f g : State → State} {s : State} {ms : List EnvMove}
    (hw : AtWait sample 0 k f g s) (hs : Steady sample) (hfalse : true ∉ pollSamples sample ms s) :
    drive ms s = .next (waited (afterSleeps (pollSamples sample ms s).length s.elapsed) [] (afterMoves ms s)) :=
  hw.drive_waiting hs (waitFor_endless_waiting s.elapsed hfalse)

theorem not_mem_listenSamples {ms : List EnvMove} (h : ∀ m ∈ ms, m.ready = .high) : true ∉ listenSamples ms := by
  simp only [listenSamples, List.mem_map, not_exists, not_and]
  intro m hm
  simp [h m hm]

theorem not_mem_dataSamples {ms : List EnvMove} (h : arrived ms = []) : true ∉ dataSamples [] ms := by
  induction ms with
  | nil => simp [dataSamples]
  | cons m ms ih =>
    rw [arrived_cons, List.append_eq_nil_iff] at h
    obtain ⟨hm, hms⟩ := h
    simp [dataSamples, hm, ih hms]

/-- Settles O33: the command is at its listen wait, which has no deadline and no true sample. -/
theorem listenWithoutDeadlinePollsOn : Obligations.ListenWithoutDeadlinePollsOn := by
  intro i s hready hT hhigh
  obtain ⟨hb, hi⟩ := hready
  have hwait := atWait_wl (s := toWait .wl (started i s)) rfl rfl hi
  have htmo : (toWait .wl (started i s)).lat.tmoListen = 0 := (started_tmoListen i s).trans hT
  rw [htmo] at hwait
  have hrun := hwait.drive_endless steady_listening (ms := s.env)
    (by rw [pollSamples_listening]; exact not_mem_listenSamples hhigh)
  refine ⟨_, (exec_eq i hb).trans hrun, ?_⟩
  simp [started]

/-- Settles O34: the frame is sent, and the command is at its wait for the acknowledgment, which has no deadline and no true
sample. -/
theorem answerWithoutDeadlinePollsOn : Obligations.AnswerWithoutDeadlinePollsOn := by
  intro i s lm tm ms hne hready hT he hl htm hrx harr
  obtain ⟨hb, hi⟩ := hready
  obtain ⟨hae, -⟩ := ae_and_mask_of_ne_ident hne
  obtain ⟨n, hframe⟩ := drive_frame (s := started i s) (encode i) ms rfl hi (started_waitOnly i s) (started_len i s)
    (by cases i <;> simp [encode]) (started_frame i s) (by rw [started_tmoListen]; exact hl) htm
  generalize hu : transmitted (encode i) ms (toTransmit (waited n ms (afterMoves (lm ++ tm) (started i s)))) = u at hframe
  have hulat : u.lat = (started i s).lat := by simp [← hu, transmitted]
  have hutmo : (toWait .wa u).lat.tmoData = 0 := by rw [toWait_lat, hulat, started_tmoData, hT]
  rw [he, arrived_append, List.append_eq_nil_iff] at harr
  obtain ⟨harr, hms⟩ := harr
  have hurx : u.rx = [] := by simpa [← hu, transmitted, started, hrx] using harr
  have hub : u.busy = true := by simp [← hu, transmitted, started]
  rw [afterFrame_ack (by rw [hulat, started_ae, hae]), andThen_next] at hframe
  have hwait := atWait_wa (s := toWait .wa u) hub rfl
  rw [hutmo] at hwait
  have hrun := hwait.drive_endless steady_rxAvail (ms := ms)
    (by rw [pollSamples_rxAvail, toWait_rx, hurx]; exact not_mem_dataSamples hms)
  refine ⟨_, (exec_eq i hb).trans (he ▸ hframe.trans hrun), ?_⟩
  simp [← hu, transmitted, started]

end Sys2Proof.Machine
end

section
/-! The log (R21, R68): what it holds changes no run. -/

namespace Sys2Proof.Machine

/-- The log begins with the entries `l`. -/
def withEarlier (l : List WaitKind) (s : State) : State := { s with log := l ++ s.log }

section
variable {l : List WaitKind} {s : State}

@[simp] theorem withEarlier_phase : (withEarlier l s).phase = s.phase := rfl
@[simp] theorem withEarlier_lat : (withEarlier l s).lat = s.lat := rfl
@[simp] theorem withEarlier_cfg : (withEarlier l s).cfg = s.cfg := rfl
@[simp] theorem withEarlier_txi : (withEarlier l s).txi = s.txi := rfl
@[simp] theorem withEarlier_lastAck : (withEarlier l s).lastAck = s.lastAck := rfl
@[simp] theorem withEarlier_rxi : (withEarlier l s).rxi = s.rxi := rfl
@[simp] theorem withEarlier_data : (withEarlier l s).data = s.data := rfl
@[simp] theorem withEarlier_rx : (withEarlier l s).rx = s.rx := rfl
@[simp] theorem withEarlier_elapsed : (withEarlier l s).elapsed = s.elapsed := rfl

/-- A timeout is logged after the earlier entries (R68). -/
theorem logTimeout_withEarlier (k : WaitKind) : logTimeout k (withEarlier l s) = withEarlier l (logTimeout k s) := by
  simp [logTimeout, withEarlier]

theorem readyLevel_withEarlier : readyLevel (withEarlier l s) = ((readyLevel s).1, withEarlier l (readyLevel s).2) := by
  cases hi : s.init <;> simp [readyLevel, withEarlier, draw, hi]

/-- A poll does not read the log, where its two ends do not. -/
theorem poll_withEarlier {b : Bool} {T : Millis} {k : WaitKind} {f g : State → State}
    (hf : ∀ u, f (withEarlier l u) = withEarlier l (f u)) (hg : ∀ u, g (withEarlier l u) = withEarlier l (g u)) :
    poll b T k f g (withEarlier l s) = withEarlier l (poll b T k f g s) := by
  simp only [poll, withEarlier_elapsed, logTimeout_withEarlier, hg]
  split_ifs
  · exact hf s
  · rfl
  · rfl

theorem rowWL_withEarlier : rowWL (withEarlier l s) = mapNext (withEarlier l) (rowWL s) := by
  rw [rowWL, rowWL, readyLevel_withEarlier, withEarlier_lat]
  cases s.lat.waitOnly <;> exact congrArg _ (poll_withEarlier (fun _ => rfl) fun _ => rfl)

theorem afterFrame_withEarlier : afterFrame (withEarlier l s) = mapNext (withEarlier l) (afterFrame s) := by
  rw [afterFrame, afterFrame, withEarlier_lat, withEarlier_cfg]
  cases s.lat.ae with
  | true => rfl
  | false =>
    cases s.lat.pm with
    | drain => cases s.cfg.identWaitData <;> rfl
    | none | fixed => rfl

theorem rowTX_withEarlier : rowTX (withEarlier l s) = mapNext (withEarlier l) (rowTX s) := by
  rw [rowTX, rowTX, withEarlier_lat, withEarlier_txi]
  cases frameGet s.lat.x s.txi with
  | none => split_ifs <;> rfl
  | some b =>
    dsimp only
    split_ifs
    · rfl
    · exact afterFrame_withEarlier (s := sentByte b s)
    · rfl

theorem rowWA_withEarlier : rowWA (withEarlier l s) = mapNext (withEarlier l) (rowWA s) := by
  rw [rowWA, rowWA, withEarlier_lat]
  cases s.lat.waitOnly <;> exact congrArg _ (poll_withEarlier (fun _ => rfl) fun _ => rfl)

theorem rowRA_withEarlier : rowRA (withEarlier l s) = mapNext (withEarlier l) (rowRA s) := by
  cases hq : s.rx with
  | nil => rw [rowRA_nil hq, rowRA_nil (u := withEarlier l s) hq]; rfl
  | cons r q => rw [rowRA_cons hq, rowRA_cons (s := withEarlier l s) hq]; rfl

theorem rowCK_withEarlier : rowCK (withEarlier l s) = mapNext (withEarlier l) (rowCK s) := by
  rw [rowCK, rowCK, withEarlier_lat, withEarlier_lastAck]
  split_ifs
  · cases s.lat.pm <;> rfl
  · rfl

theorem rowWP_withEarlier : rowWP (withEarlier l s) = mapNext (withEarlier l) (rowWP s) :=
  congrArg Host.Outcome.next (poll_withEarlier (f := toPhase .sp) (g := fail .payloadTimeout) (fun _ => rfl) fun _ => rfl)

theorem rowWD_withEarlier : rowWD (withEarlier l s) = mapNext (withEarlier l) (rowWD s) :=
  congrArg Host.Outcome.next (poll_withEarlier (f := toPhase .dc) (g := fail .noResponse) (fun _ => rfl) fun _ => rfl)

theorem rowRP_withEarlier : rowRP (withEarlier l s) = mapNext (withEarlier l) (rowRP s) := by
  cases hq : s.rx with
  | nil => rw [rowRP_nil hq, rowRP_nil (u := withEarlier l s) hq]; rfl
  | cons r q =>
    cases hd : dataSet s.data s.rxi r with
    | none => simp [rowRP, rxPop, hq, hd]
    | some d =>
      rw [rowRP_cons hq hd, rowRP_cons (s := withEarlier l s) hq hd, mapNext_next, apply_ite (withEarlier l)]
      rfl

theorem rowDC_withEarlier : rowDC (withEarlier l s) = mapNext (withEarlier l) (rowDC s) := by
  rw [rowDC, rowDC, mapNext_next, apply_ite (withEarlier l)]
  rfl

theorem rowRD_withEarlier : rowRD (withEarlier l s) = mapNext (withEarlier l) (rowRD s) := by
  cases hq : s.rx with
  | nil => rw [rowRD_nil hq, rowRD_nil (u := withEarlier l s) hq]; rfl
  | cons r q =>
    rcases Nat.lt_or_ge s.idBuf.length s.cfg.identCap with hc | hc
    · rw [rowRD_cons hq hc, rowRD_cons (s := withEarlier l s) hq hc]; rfl
    · rw [rowRD_full hq hc, rowRD_full (s := withEarlier l s) hq hc]; rfl

/-- No row reads the log (R68). -/
theorem row_withEarlier : row (withEarlier l s) = mapNext (withEarlier l) (row s) := by
  rw [row, row, withEarlier_phase]
  cases s.phase with
  | idle | sa | sp | sd => rfl
  | wl => exact rowWL_withEarlier
  | tx => exact rowTX_withEarlier
  | wa => exact rowWA_withEarlier
  | ra => exact rowRA_withEarlier
  | ck => exact rowCK_withEarlier
  | wp => exact rowWP_withEarlier
  | wd => exact rowWD_withEarlier
  | rp => exact rowRP_withEarlier
  | dc => exact rowDC_withEarlier
  | rd => exact rowRD_withEarlier

end

/-- No run reads the log (R68). -/
theorem drive_withEarlier (ms : List EnvMove) (l : List WaitKind) (s : State) :
    drive ms (withEarlier l s) = mapNext (withEarlier l) (drive ms s) := by
  induction ms generalizing s with
  | nil => rfl
  | cons m ms ih =>
    cases hb : s.busy with
    | true =>
      have hrow := row_withEarlier (l := l) (s := applyMove m (setEnv ms s))
      rw [drive_busy (s := withEarlier l s) m ms hb, drive_busy m ms hb, ← andThen_mapNext fun u _ => ih u, ← hrow]
      rfl
    | false =>
      rw [drive_idle (s := withEarlier l s) _ hb, drive_idle _ hb]
      rfl

/-- Settles O43, by induction on the moves: no row reads the log, and a timeout is added at its end. -/
theorem theLogChangesNoRun : Obligations.TheLogChangesNoRun :=
  fun ms s l => drive_withEarlier ms l s

end Sys2Proof.Machine
end

section
/-! The masked comparison (R80, R85): what each mask accepts, and what row CK makes of it. -/

namespace Sys2Proof.Machine

theorem ackAccepted_iff {r mask : Byte} : ackAccepted r mask = true ↔ r &&& mask = 0xD6 &&& mask := by
  simp [ackAccepted, okay]

theorem ackAccepted_eq_false_iff {r mask : Byte} : ackAccepted r mask = false ↔ r &&& mask ≠ 0xD6 &&& mask := by
  rw [← Bool.not_eq_true, ackAccepted_iff]

/-- Mask 0x01 leaves the lowest bit, and that is the parity. -/
theorem and_one_eq_zero_iff (r : Byte) : r &&& 0x01 = 0 ↔ r.toNat % 2 = 0 := by
  rw [← BitVec.toNat_inj, BitVec.toNat_and]
  exact Nat.and_one_is_mod r.toNat ▸ Iff.rfl

/-- Row CK of an operation without a payload ends it (R85). -/
theorem rowCK_none {s : State} (hpm : s.lat.pm = .none) :
    rowCK s = .next (if s.lastAck &&& s.lat.mask = 0xD6 &&& s.lat.mask then succeed s else fail .ackMismatch s) := by
  split_ifs with h
  · exact rowCK_end (ackAccepted_iff.2 h) hpm
  · exact rowCK_mismatch (ackAccepted_eq_false_iff.2 h)

/-- Row CK of an operation with a fixed payload ends it or goes on to the payload (R85). -/
theorem rowCK_fixed {s : State} (hpm : s.lat.pm = .fixed) :
    rowCK s = .next (if s.lastAck &&& s.lat.mask = 0xD6 &&& s.lat.mask then toPayload s else fail .ackMismatch s) := by
  split_ifs with h
  · exact rowCK_payload (ackAccepted_iff.2 h) hpm
  · exact rowCK_mismatch (ackAccepted_eq_false_iff.2 h)

/-- Settles O13: the comparison is equality of the masked bytes, and row CK follows it; the eight bytes of mask 0x3E and the two
counts are found by looking at every byte. -/
theorem maskedComparisonDecidesSuccess : Obligations.MaskedComparisonDecidesSuccess := by
  have hmask : ∀ r1 r2 mask : Byte, r1 &&& mask = r2 &&& mask → ackAccepted r1 mask = ackAccepted r2 mask :=
    fun r1 r2 mask h => by rw [ackAccepted, ackAccepted, h]
  have hall : ∀ r : Byte, ackAccepted r 0xFF = true ↔ r = 0xD6 := fun r => by
    have hr : r &&& 0xFF = r := BitVec.and_allOnes
    rw [ackAccepted_iff, hr]
    rfl
  exact ⟨fun _ _ => ackAccepted_iff, hmask, by decide, fun _ => ackAccepted_iff,
    fun r => ackAccepted_iff.trans (and_one_eq_zero_iff r), fun r => ackAccepted_iff.2 (by simp), hall, rfl, rfl,
    fun _ hp hpm => (row_ck hp).trans (rowCK_none hpm), fun _ hp hpm => (row_ck hp).trans (rowCK_fixed hpm)⟩

end Sys2Proof.Machine
end

section
/-! The starts (R81, R87): the four shapes an idle framer starts, and SENDB, which cannot fail. -/

namespace Sys2Proof.Machine

/-! ### The four shapes -/

theorem startOperation_busy {s : State} (hb : s.busy = true) : startOperation s = .refused .startWhileBusy := by
  rw [startOperation, if_pos hb]

/-- An idle machine refuses operand registers that are not admitted, with the reason they are not (R87). -/
theorem startOperation_error {s : State} {e : Refusal} (hb : s.busy = false) (h : admittedMode s.opnd = .error e) :
    startOperation s = .refused e := by
  rw [startOperation, if_neg (by simp [hb]), h]

/-- R87's table. -/
theorem shapeAdmitted_iff {wl ae : Bool} {pm : PayloadMode} {pcnt len : Nat} :
    shapeAdmitted wl ae pm pcnt len = true ↔
      (wl = true ∧ ae = true ∧ pm = .none ∧ pcnt = 0) ∨ (wl = true ∧ ae = true ∧ pm = .fixed ∧ 1 ≤ pcnt) ∨
      (wl = true ∧ ae = false ∧ pm = .drain ∧ pcnt = 0 ∧ len = 1) ∨
      (wl = false ∧ ae = false ∧ pm = .none ∧ pcnt = 0 ∧ len = 1) := by
  cases wl <;> cases ae <;> cases pm <;> simp [shapeAdmitted]

theorem pmOfCode_eq_some_iff {c : BitVec 2} {pm : PayloadMode} : pmOfCode c = some pm ↔ c = pmCode pm := by
  refine ⟨fun h => (pmCode_of_pmOfCode h).symm, ?_⟩
  rintro rfl
  cases pm <;> rfl

theorem lengthAdmitted_iff {len : Nat} : lengthAdmitted len = true ↔ 1 ≤ len ∧ len ≤ 6 := by
  simp [lengthAdmitted]

/-- The operand registers that are admitted in some payload mode are those of the four rows of R87's table. -/
theorem exists_admittedMode_iff {r : OperandRegs} :
    (∃ pm, admittedMode r = .ok pm) ↔
      (r.wl = true ∧ r.ae = true ∧ r.pm = 0 ∧ r.pcnt = 0 ∧ 1 ≤ r.len.toNat ∧ r.len.toNat ≤ 6) ∨
      (r.wl = true ∧ r.ae = true ∧ r.pm = 1 ∧ 1 ≤ r.pcnt.toNat ∧ r.pcnt.toNat ≤ 4 ∧ 1 ≤ r.len.toNat ∧ r.len.toNat ≤ 6) ∨
      (r.wl = true ∧ r.ae = false ∧ r.pm = 2 ∧ r.pcnt = 0 ∧ r.len = 1) ∨
      (r.wl = false ∧ r.ae = false ∧ r.pm = 0 ∧ r.pcnt = 0 ∧ r.len = 1) := by
  have hlen : r.len = 1 ↔ r.len.toNat = 1 := BitVec.toNat_inj.symm
  have hcnt : r.pcnt = 0 ↔ r.pcnt.toNat = 0 := BitVec.toNat_inj.symm
  simp only [admittedMode_eq_ok, pmOfCode_eq_some_iff, lengthAdmitted_iff, shapeAdmitted_iff, hlen, hcnt]
  constructor
  · rintro ⟨pm, ⟨h1, h6⟩, h4, hm, ⟨hw, ha, rfl, hc⟩ | ⟨hw, ha, rfl, hc⟩ | ⟨hw, ha, rfl, hc, hl⟩ | ⟨hw, ha, rfl, hc, hl⟩⟩
    · exact .inl ⟨hw, ha, hm, hc, h1, h6⟩
    · exact .inr (.inl ⟨hw, ha, hm, hc, h4, h1, h6⟩)
    · exact .inr (.inr (.inl ⟨hw, ha, hm, hc, hl⟩))
    · exact .inr (.inr (.inr ⟨hw, ha, hm, hc, hl⟩))
  · rintro (⟨hw, ha, hm, hc, hl⟩ | ⟨hw, ha, hm, hc, h4, hl⟩ | ⟨hw, ha, hm, hc, hl⟩ | ⟨hw, ha, hm, hc, hl⟩)
    · exact ⟨.none, hl, by omega, hm, .inl ⟨hw, ha, rfl, hc⟩⟩
    · exact ⟨.fixed, hl, h4, hm, .inr (.inl ⟨hw, ha, rfl, hc⟩)⟩
    · exact ⟨.drain, by omega, by omega, hm, .inr (.inr (.inl ⟨hw, ha, rfl, hc, hl⟩))⟩
    · exact ⟨.none, by omega, by omega, hm, .inr (.inr (.inr ⟨hw, ha, rfl, hc, hl⟩))⟩

/-- Settles O44: a start is answered just where the operand registers are admitted, and else refused with the reason. -/
theorem onlyTheFourShapesStart : Obligations.OnlyTheFourShapesStart := by
  refine ⟨fun _ => startOperation_busy, fun i _ => exec_busy i, fun s hb => ?_, fun s hb hno => ?_, fun s hb hlen => ?_⟩
  · rw [← exists_admittedMode_iff]
    simp only [startOperation_eq_next, hb, true_and]
    exact ⟨fun ⟨_, pm, hpm, _⟩ => ⟨pm, hpm⟩, fun ⟨pm, hpm⟩ => ⟨_, pm, hpm, rfl⟩⟩
  · cases hm : admittedMode s.opnd with
    | error e => exact ⟨e, startOperation_error hb hm⟩
    | ok pm => exact absurd (startOperation_ok hb hm) (hno _)
  · refine startOperation_error hb ?_
    have hl : lengthAdmitted s.opnd.len.toNat = false := by
      rcases hlen with h | h <;> rw [h] <;> rfl
    rw [admittedMode, hl]
    rfl

/-! ### SENDB -/

/-- What a SENDB does from an idle machine: it runs from phase TX, with no wait for the line (R81). -/
theorem issue_sendByte (b : Byte) {s : State} (hb : s.busy = false) :
    issue (sendByteDescriptor b) s =
      drive s.env (toTransmit (latch .none (writeOperands (loadDescriptor s.opnd (sendByteDescriptor b)) s))) := by
  rw [issue, runOperation, startOperation_ok (pm := .none) (by simpa using hb) rfl, andThen_next]
  rfl

/-- Phase TX at the only byte of a frame after which nothing is to come: the byte is sent and the operation ends (R76, R81). -/
theorem drive_onlyByte {u : State} {b : Byte} (m : EnvMove) (rest : List EnvMove) (hb : u.busy = true) (hp : u.phase = .tx)
    (hx : frameGet u.lat.x u.txi = some b) (hlen : u.txi + 1 = u.lat.len) (hae : u.lat.ae = false) (hpm : u.lat.pm = .none) :
    drive (m :: rest) u = .next (setEnv rest (succeed (sentByte b (applyMove m (setEnv rest u))))) := by
  rw [drive_busy m rest hb, row_tx (by simpa using hp), rowTX_last (b := b) (by simpa using hx) (by simpa using hlen),
    afterFrame_end (by simpa using hae) (by simpa using hpm), andThen_next, drive_idle rest rfl]

/-- Settles O46: the one row of SENDB is phase TX at its last byte, which reads neither the line nor the queue. -/
theorem sendByteCannotFail : Obligations.SendByteCannotFail := by
  intro b hs s m rest hb hc hh he
  have hstep : step s = drive (m :: rest) (toTransmit (latch .none (writeOperands (loadDescriptor s.opnd (sendByteDescriptor b))
      (setCall (some (singleCall .nothing)) (setHost hs s))))) := by
    rw [step_issue hb hc hh, hostIssue, issue_sendByte b (by simpa using hb), ← he]
    rfl
  have hrun := hstep.trans (drive_onlyByte (b := b) m rest rfl rfl rfl rfl rfl rfl)
  refine ⟨_, hrun, ?_⟩
  simp

end Sys2Proof.Machine
end

section
/-! Operations that wait for the line, send a frame and read what is answered (R74, R82, R84, R86): their ends, for the wire
commands and the generic operations alike. -/

namespace Sys2Proof.Machine

/-! ### What has been latched -/

/-- An operation has been latched that is no bare WAIT and sends `bytes`, the ready line being configured (R15, R27). -/
structure Latches (bytes : List Byte) (u : State) : Prop where
  busy     : u.busy = true
  init     : u.init = true
  waitOnly : u.lat.waitOnly = false
  len      : u.lat.len = bytes.length
  nonempty : bytes ≠ []
  frame    : ∀ k (h : k < bytes.length), frameGet u.lat.x k = some bytes[k]

theorem latches_started (i : Instr) {s : State} (hi : s.init = true) : Latches (encode i) (started i s) where
  busy := rfl
  init := hi
  waitOnly := started_waitOnly i s
  len := started_len i s
  nonempty := by rw [encode_eq_opcodeOf_cons]; exact List.cons_ne_nil _ _
  frame := started_frame i s

theorem frameGet_eq_getElem? (x : FrameRegs) (k : Nat) : frameGet x k = (frameList x)[k]? := by
  match k with
  | 0 | 1 | 2 | 3 | 4 | 5 | _ + 6 => rfl

/-- The registers hold the frame that has been loaded (R12). -/
theorem frameGet_frameLoad (x : FrameRegs) {f : List Byte} (hf : f.length ≤ 6) {k : Nat} (hk : k < f.length) :
    frameGet (frameLoad x f) k = some f[k] := by
  have hk6 : k < 6 := by omega
  interval_cases k <;> simp [frameGet, frameLoad, hk]

/-- An idle machine that has loaded and latched a generic SENDCMD (R61). -/
def sendStarted (bytes : List Byte) (mask : Byte) (s : State) : State :=
  latch .none (writeOperands (loadDescriptor s.opnd (sendCommandDescriptor bytes mask)) s)

theorem latches_sendStarted {bytes : List Byte} (mask : Byte) {s : State} (hi : s.init = true) (h1 : 1 ≤ bytes.length)
    (h6 : bytes.length ≤ 6) : Latches bytes (sendStarted bytes mask s) where
  busy := rfl
  init := hi
  waitOnly := rfl
  len := by
    simp only [sendStarted, latch_lat, latchOperands, writeOperands_opnd, loadDescriptor, sendCommandDescriptor,
      BitVec.toNat_ofNat]
    exact Nat.mod_eq_of_lt (by omega)
  nonempty := List.ne_nil_of_length_pos h1
  frame _ hk := frameGet_frameLoad s.opnd.x h6 hk

/-- The step in which the host issues a SENDCMD runs it from phase WL (R74). -/
theorem step_sendCommand {s : State} {bytes : List Byte} {mask : Byte} {hs : List HostOp} (hb : s.busy = false)
    (hc : s.call = none) (hh : s.host = .sendCommand bytes mask :: hs) (h1 : 1 ≤ bytes.length) (h6 : bytes.length ≤ 6) :
    step s = drive s.env (toWait .wl (sendStarted bytes mask (setCall (some (singleCall .nothing)) (setHost hs s)))) := by
  rw [step_issue hb hc hh, hostIssue, if_pos (lengthAdmitted_iff.2 ⟨h1, h6⟩),
    issue_sendCommand bytes mask (by simpa using hb) h1 h6]
  rfl

theorem length_frameTake (x : FrameRegs) {len : Nat} (h : len ≤ 6) : (frameTake x len).length = len := by
  simpa [frameTake, frameList] using h

/-- An admitted start latches the frame that stands in the operand registers (R12, R15). -/
theorem latches_latch (pm : PayloadMode) {s : State} (hi : s.init = true) (h1 : 1 ≤ s.opnd.len.toNat)
    (h6 : s.opnd.len.toNat ≤ 6) : Latches (frameTake s.opnd.x s.opnd.len.toNat) (latch pm s) where
  busy := rfl
  init := hi
  waitOnly := rfl
  len := (length_frameTake s.opnd.x h6).symm
  nonempty := List.ne_nil_of_length_pos (by rwa [length_frameTake s.opnd.x h6])
  frame k hk := by
    rw [latch_lat]
    simp only [latchOperands, frameGet_eq_getElem?, frameTake, List.getElem_take]
    rw [length_frameTake s.opnd.x h6] at hk
    exact List.getElem?_eq_getElem _

/-- What a start with a payload read in the operand registers does from an idle machine (R82, R87). -/
theorem runOperation_fixed {s : State} (hb : s.busy = false) (hwl : s.opnd.wl = true) (hae : s.opnd.ae = true)
    (hpm : s.opnd.pm = 1) (hp1 : 1 ≤ s.opnd.pcnt.toNat) (hp4 : s.opnd.pcnt.toNat ≤ 4) (h1 : 1 ≤ s.opnd.len.toNat)
    (h6 : s.opnd.len.toNat ≤ 6) : runOperation s = drive s.env (toWait .wl (latch .fixed s)) := by
  have hmode : admittedMode s.opnd = .ok .fixed := admittedMode_eq_ok.2
    ⟨lengthAdmitted_iff.2 ⟨h1, h6⟩, hp4, pmOfCode_eq_some_iff.2 hpm, shapeAdmitted_iff.2 (.inr (.inl ⟨hwl, hae, rfl, hp1⟩))⟩
  rw [runOperation, startOperation_ok hb hmode, andThen_next, enterFirstPhase]
  exact congrArg driveListed (if_pos hwl)

/-! ### The line is never LOW -/

/-- A wait whose every sample is false fails at its last poll (R67). -/
theorem waitFor_zero_false_timedOut {T : Millis} {l : List Bool} (hT : T ≠ 0) (hl : l.length = failingPolls T.toNat)
    (h : true ∉ l) : ∃ n, waitFor T 0 l = .timedOut n [] := by
  rw [eq_replicate_false h, hl, ← List.append_nil (List.replicate _ _)]
  exact ⟨_, waitFor_zero_timedOut [] hT⟩

/-- An operation whose line is HIGH at every poll fails with nothing sent (R75, R112). -/
theorem Latches.drive_neverListening {bytes : List Byte} {u : State} {ms : List EnvMove} (h : Latches bytes u)
    (rest : List EnvMove) (hT : u.lat.tmoListen ≠ 0) (hl : ms.length = failingPolls u.lat.tmoListen.toNat)
    (hhigh : ∀ m ∈ ms, m.ready = .high) :
    ∃ t, drive (ms ++ rest) (toWait .wl u) = .next t ∧ FailEnd u t .notListening [] [.listen] rest ∧
      t.rx = u.rx ++ arrived ms ∧ t.removed = u.removed ∧ t.lastAck = u.lastAck ∧ t.data = u.data ∧ t.idBuf = u.idBuf := by
  have hwait := atWait_wl (s := toWait .wl u) h.busy rfl h.init
  rw [toWait_lat, h.waitOnly] at hwait
  obtain ⟨n, hn⟩ := waitFor_zero_false_timedOut hT (by simpa [listenSamples] using hl) (not_mem_listenSamples hhigh)
  have hrun := (drive_polls steady_listening hwait ms rest).2.1 n (by rw [pollSamples_listening]; exact hn)
  refine ⟨_, hrun.trans (drive_idle rest rfl), ?_⟩
  simp [FailEnd]

/-- Settles O27: the command is at its listen wait, whose every sample is false. -/
theorem neverListeningFailsUnsent : Obligations.NeverListeningFailsUnsent := by
  intro i s ms rest hready hT he hl hhigh
  obtain ⟨hb, hi⟩ := hready
  have htmo := started_tmoListen i s
  obtain ⟨t, hrun, hfail, hrx, hrem, hack, hdata, hid⟩ := (latches_started i hi).drive_neverListening rest (htmo ▸ hT)
    (htmo ▸ hl) hhigh
  have hident : (started i s).idBuf = if i = .ident then [] else s.idBuf := by cases i <;> simp [started, descriptorOf]
  exact ⟨t, (exec_eq i hb).trans (he ▸ hrun), hfail, hrx, hrem, hack, hdata, hid.trans hident⟩

/-- Settles O28: the SENDCMD the step issues is at its listen wait, whose every sample is false. -/
theorem genericSendFailsWhenNotListening : Obligations.GenericSendFailsWhenNotListening := by
  intro bytes mask hs s ms rest hready hc hh h1 h6 hT he hl hhigh
  obtain ⟨hb, hi⟩ := hready
  have hlat := latches_sendStarted mask (s := setCall (some (singleCall .nothing)) (setHost hs s)) hi h1 h6
  obtain ⟨t, hrun, hfail, -, hrem, -⟩ := hlat.drive_neverListening rest hT hl hhigh
  exact ⟨t, (step_sendCommand hb hc hh h1 h6).trans (he ▸ hrun), hfail, hrem⟩

/-! ### The acknowledgment -/

/-- An operation latched in `u` has come to phase CK: its frame `bytes` is sent, byte `r` of the queue is taken and is in
`LAST_ACK`, and `q` is left in the queue (R77 to R80). -/
structure AtComparison (bytes : List Byte) (r : Byte) (q : List Byte) (u v : State) : Prop where
  busy      : v.busy = true
  lat       : v.lat = u.lat
  tx        : v.tx = u.tx ++ bytes
  lastAck   : v.lastAck = r
  rx        : v.rx = q
  removed   : v.removed = u.removed ++ [r]
  log       : v.log = u.log
  data      : v.data = u.data
  idBuf     : v.idBuf = u.idBuf
  call      : v.call = u.call

/-- Moves of the environment under which an operation latched in `u`, whose frame has `n` bytes, reads an acknowledgment: the
polls of the line, the bytes of the frame, the polls of the queue, and the settle, the read and the comparison (R74). -/
structure AckMoves (n : Nat) (u : State) (lm tm dm em : List EnvMove) : Prop where
  listens : Listens u.lat.tmoListen lm
  frame   : tm.length = n
  answers : Answers u.lat.tmoData (u.rx ++ arrived (lm ++ tm)) dm
  reads   : em.length = 3

section
variable {bytes : List Byte} {u : State} {lm tm dm em : List EnvMove} {r : Byte} {q : List Byte}

/-- By the read there is a byte in the queue (R131). -/
theorem AckMoves.exists_byte {n : Nat} (h : AckMoves n u lm tm dm em) : ∃ r q, u.rx ++ arrived (lm ++ tm ++ dm ++ em) = r :: q := by
  refine List.exists_cons_of_ne_nil ?_
  rw [arrived_append, arrived_append _ dm, ← List.append_assoc, ← List.append_assoc]
  exact List.append_ne_nil_of_left_ne_nil (answers_ne_nil h.answers) _

/-- An operation whose two waits succeed in time comes to phase CK with the oldest byte of the queue. -/
theorem Latches.drive_atComparison (h : Latches bytes u) (rest : List EnvMove) (hae : u.lat.ae = true)
    (hm : AckMoves bytes.length u lm tm dm em) (hq : u.rx ++ arrived (lm ++ tm ++ dm ++ em) = r :: q) :
    ∃ v, drive (lm ++ tm ++ dm ++ em ++ rest) (toWait .wl u) = andThen (rowCK v) (drive rest) ∧
      AtComparison bytes r q u v := by
  obtain ⟨hl, ht, ha, hem⟩ := hm
  obtain ⟨m1, m2, m3, rfl⟩ := List.length_eq_three.1 hem
  obtain ⟨n, hrun⟩ := drive_answer bytes m1 m2 m3 rest h.busy h.init h.waitOnly h.len h.nonempty h.frame hae hl ht ha hq
  refine ⟨_, hrun, ?_⟩
  constructor <;> simp [acknowledged, transmitted, h.busy]

/-- A mismatch ends the operation, whatever was to come (R86, R114). -/
theorem AtComparison.drive_mismatch {v : State} (h : AtComparison bytes r q u v) (rest : List EnvMove)
    (hr : r &&& u.lat.mask ≠ 0xD6 &&& u.lat.mask) :
    ∃ t, andThen (rowCK v) (drive rest) = .next t ∧ FailEnd u t .ackMismatch bytes [] rest ∧ t.lastAck = r ∧ t.rx = q ∧
      t.removed = u.removed ++ [r] ∧ t.data = u.data ∧ t.idBuf = u.idBuf := by
  have hck : rowCK v = .next (fail .ackMismatch v) :=
    rowCK_mismatch (ackAccepted_eq_false_iff.2 (by rw [h.lastAck, h.lat]; exact hr))
  rw [hck, andThen_next, drive_idle rest rfl]
  refine ⟨_, rfl, ?_⟩
  simp [FailEnd, h.tx, h.log, h.lastAck, h.rx, h.removed, h.data, h.idBuf]

/-- The comparison ends an operation without a payload (R74). -/
theorem AtComparison.drive_ackEnd {v : State} {used : List EnvMove} (h : AtComparison bytes r q u v) (rest : List EnvMove)
    (hpm : u.lat.pm = .none) (hq : u.rx ++ arrived used = r :: q) :
    ∃ t, andThen (rowCK v) (drive rest) = .next t ∧ AckEnd u t bytes u.lat.mask used rest := by
  by_cases hr : r &&& u.lat.mask = 0xD6 &&& u.lat.mask
  · have hck : rowCK v = .next (succeed v) :=
      rowCK_end (ackAccepted_iff.2 (by rw [h.lastAck, h.lat]; exact hr)) (h.lat ▸ hpm)
    rw [hck, andThen_next, drive_idle rest rfl]
    refine ⟨_, rfl, ?_⟩
    simp [AckEnd, h.tx, h.log, h.lastAck, h.rx, h.removed, h.data, h.idBuf, hq, hr]
  · obtain ⟨t, hrun, ⟨hb, hp, hok, hv, hcause, htx, hlog, henv⟩, hack, hrx, hrem, hdata, hid⟩ := h.drive_mismatch rest hr
    refine ⟨t, hrun, ?_⟩
    simpa [AckEnd, hb, hp, hok, hv, hcause, htx, hlog, henv, hack, hrx, hrem, hdata, hid, hq] using hr

/-- An operation without a payload whose two waits succeed in time ends by the comparison (R74). -/
theorem Latches.drive_ackEnd (h : Latches bytes u) (rest : List EnvMove) (hae : u.lat.ae = true) (hpm : u.lat.pm = .none)
    (hm : AckMoves bytes.length u lm tm dm em) :
    ∃ t, drive (lm ++ tm ++ dm ++ em ++ rest) (toWait .wl u) = .next t ∧
      AckEnd u t bytes u.lat.mask (lm ++ tm ++ dm ++ em) rest := by
  obtain ⟨r, q, hq⟩ := hm.exists_byte
  obtain ⟨v, hrun, hv⟩ := h.drive_atComparison rest hae hm hq
  rw [hrun]
  exact hv.drive_ackEnd rest hpm hq

end

/-- The commands with a fixed payload are RDPAGE and UID, which have an acknowledgment and mask 0x3E (R55). -/
theorem ae_and_mask_of_fixed {i : Instr} (h : (descriptorOf i).pm = .fixed) :
    (descriptorOf i).ae = true ∧ (descriptorOf i).mask = some 0x3E := by
  cases i with
  | rdpage | uid => exact ⟨rfl, rfl⟩
  | wrpage | status | ident | progee => cases h

/-- Settles O31: the command comes to its comparison, which fails and ends it. -/
theorem badAcknowledgmentLeavesThePayload : Obligations.BadAcknowledgmentLeavesThePayload := by
  intro i r q s lm tm dm em rest hpm hready he hl ht ha hem hq hr
  obtain ⟨hb, hi⟩ := hready
  obtain ⟨hae, hm⟩ := ae_and_mask_of_fixed hpm
  have hmask : (started i s).lat.mask = 0x3E := by rw [started_mask, hm]; rfl
  have hmoves : AckMoves (encode i).length (started i s) lm tm dm em :=
    ⟨started_tmoListen i s ▸ hl, ht, started_tmoData i s ▸ ha, hem⟩
  obtain ⟨v, hrun, hv⟩ := (latches_started i hi).drive_atComparison rest ((started_ae i s).trans hae) hmoves hq
  obtain ⟨t, hend, hfail, hack, hrx, hrem, -⟩ := hv.drive_mismatch rest (by rw [hmask]; exact hr)
  exact ⟨t, (exec_eq i hb).trans (he ▸ hrun.trans hend), hfail, hack, hrx, hrem⟩

end Sys2Proof.Machine
end

section
/-! The payload of a fixed read (R82) and the drain (R83) over a whole run. -/

namespace Sys2Proof.Machine

/-! ### The payload -/

/-- Writing `DATA[j]` puts the byte after the first `j` registers and leaves those after it (R82). -/
theorem dataList_dataSet {d d' : DataRegs} {j : Nat} {r : Byte} (h : dataSet d j r = some d') :
    (dataList d').take (j + 1) = (dataList d).take j ++ [r] ∧ (dataList d').drop (j + 1) = (dataList d).drop (j + 1) := by
  match j with
  | 0 | 1 | 2 | 3 => cases h; exact ⟨rfl, rfl⟩
  | _ + 4 => cases h

/-- A payload read that stood in `u` before byte `rxi` has ended with success, having taken the bytes `ps` into the registers from
`rxi` on; `rest` are the moves left (R82). -/
structure PayloadTaken (ps : List Byte) (rest : List EnvMove) (u t : State) : Prop where
  busy    : t.busy = false
  phase   : t.phase = .idle
  ok      : t.ok = true
  okValid : t.okValid = true
  tx      : t.tx = u.tx
  lastAck : t.lastAck = u.lastAck
  log     : t.log = u.log
  idBuf   : t.idBuf = u.idBuf
  lat     : t.lat = u.lat
  call    : t.call = u.call
  env     : t.env = rest
  removed : t.removed = u.removed ++ ps
  data    : dataList t.data = (dataList u.data).take u.rxi ++ ps ++ (dataList u.data).drop (u.rxi + ps.length)
  valid   : u.lat.pm = .fixed → u.lat.pcnt ≤ t.dataValid

section
variable {u t : State} {r : Byte} {q ps : List Byte} {d : DataRegs} {ms e rest : List EnvMove} {n : Millis}

/-- The last payload byte ends the read. -/
theorem payloadTaken_last (hd : dataSet u.data u.rxi r = some d) :
    PayloadTaken [r] rest u (setEnv rest (succeed (payloadRead d r q n rest (afterMoves ms u)))) := by
  have hdata : dataList d = (dataList u.data).take u.rxi ++ [r] ++ (dataList u.data).drop (u.rxi + 1) := by
    obtain ⟨htake, hdrop⟩ := dataList_dataSet hd
    rw [← htake, ← hdrop, List.take_append_drop]
  constructor <;> simp +contextual [payloadRead]
  simpa using hdata

/-- One payload byte before a payload read is a payload read of one byte more. -/
theorem PayloadTaken.cons (hd : dataSet u.data u.rxi r = some d)
    (h : PayloadTaken ps rest (toWait .wp (payloadRead d r q n e (afterMoves ms u))) t) :
    PayloadTaken (r :: ps) rest u t where
  busy := h.busy
  phase := h.phase
  ok := h.ok
  okValid := h.okValid
  tx := by simpa [payloadRead] using h.tx
  lastAck := by simpa [payloadRead] using h.lastAck
  log := by simpa [payloadRead] using h.log
  idBuf := by simpa [payloadRead] using h.idBuf
  lat := by simpa [payloadRead] using h.lat
  call := by simpa [payloadRead] using h.call
  env := h.env
  removed := by simpa [payloadRead] using h.removed
  data := by
    obtain ⟨htake, hdrop⟩ := dataList_dataSet hd
    have hdata : dataList t.data =
        (dataList d).take (u.rxi + 1) ++ ps ++ (dataList d).drop (u.rxi + 1 + ps.length) := by
      simpa [payloadRead] using h.data
    rw [hdata, htake, ← List.drop_drop, hdrop, List.drop_drop, List.length_cons]
    simp [Nat.add_assoc, Nat.add_comm 1]
  valid := by simpa [payloadRead] using h.valid

end

/-- A payload read takes one byte for each of its waits (R82, D6). -/
theorem drive_payload {bs : List ByteMoves} (rest : List EnvMove) {u : State} (hb : u.busy = true) (hp : u.phase = .wp)
    (he : u.elapsed = 0) (hpc : u.lat.pcnt ≤ 4) (hbs : u.rxi + bs.length = u.lat.pcnt) (hne : bs ≠ [])
    (ha : PayloadArrives u.lat.tmoData u.rx bs) :
    ∃ ps t, drive (bs.flatMap ByteMoves.moves ++ rest) u = .next t ∧ ps.length = bs.length ∧
      u.rx ++ arrived (bs.flatMap ByteMoves.moves) = ps ++ t.rx ∧ PayloadTaken ps rest u t := by
  induction bs generalizing u with
  | nil => exact absurd rfl hne
  | cons b bs ih =>
    obtain ⟨hans, ha⟩ := ha
    rw [List.length_cons] at hbs
    have hnil : u.rx ++ arrived b.moves ≠ [] := by
      rw [ByteMoves.moves, arrived_append, ← List.append_assoc]
      exact List.append_ne_nil_of_left_ne_nil (answers_ne_nil hans) _
    obtain ⟨r, q, hq⟩ := List.exists_cons_of_ne_nil hnil
    obtain ⟨d, hd⟩ := dataSet_of_lt u.data (b := u.rxi) r (by omega)
    obtain ⟨n, hrun⟩ := drive_payload_byte b (bs.flatMap ByteMoves.moves ++ rest) hb hp he hans hq hd
    rw [hq, List.tail_cons] at ha
    rw [List.flatMap_cons, List.append_assoc, hrun, arrived_append, ← List.append_assoc, hq]
    cases bs with
    | nil =>
      rw [List.length_nil] at hbs
      rw [if_neg (by omega), drive_idle _ rfl]
      exact ⟨[r], _, rfl, rfl, by simp [payloadRead], payloadTaken_last hd⟩
    | cons b' bs =>
      rw [List.length_cons] at hbs
      rw [if_pos (by omega)]
      generalize hv : toWait .wp (payloadRead d r q n ((b' :: bs).flatMap ByteMoves.moves ++ rest) (afterMoves b.moves u)) = v
      have hvlat : v.lat = u.lat := by simp [← hv, payloadRead]
      have hvrx : v.rx = q := by simp [← hv, payloadRead]
      have hvrxi : v.rxi = u.rxi + 1 := by simp [← hv, payloadRead]
      obtain ⟨ps, t, hrun', hps, hrx, ht⟩ := ih (u := v) (by simp [← hv, payloadRead, hb]) (by rw [← hv]; rfl)
        (by rw [← hv]; rfl) (hvlat ▸ hpc) (by rw [hvrxi, hvlat, List.length_cons]; omega) (by simp) (by rw [hvlat, hvrx]; exact ha)
      refine ⟨r :: ps, t, hrun', congrArg (· + 1) hps, ?_, PayloadTaken.cons hd (hv ▸ ht)⟩
      rw [← hvrx, List.cons_append, hrx, List.cons_append]

/-- An accepted acknowledgment and a payload of `PCNT` bytes, each in time, end the operation with success (R82). -/
theorem Latches.drive_payloadEnd {bytes : List Byte} {u : State} {lm tm dm em : List EnvMove} {r : Byte} {q : List Byte}
    {bs : List ByteMoves} (h : Latches bytes u) (rest : List EnvMove) (hae : u.lat.ae = true) (hpm : u.lat.pm = .fixed)
    (hp1 : 1 ≤ u.lat.pcnt) (hp4 : u.lat.pcnt ≤ 4) (hm : AckMoves bytes.length u lm tm dm em)
    (hq : u.rx ++ arrived (lm ++ tm ++ dm ++ em) = r :: q) (hr : r &&& u.lat.mask = 0xD6 &&& u.lat.mask)
    (hbs : bs.length = u.lat.pcnt) (hpay : PayloadArrives u.lat.tmoData q bs) :
    ∃ t, drive (lm ++ tm ++ dm ++ em ++ bs.flatMap ByteMoves.moves ++ rest) (toWait .wl u) = .next t ∧
      PayloadEnd u t bytes r u.lat.pcnt (lm ++ tm ++ dm ++ em ++ bs.flatMap ByteMoves.moves) rest ∧ t.lat = u.lat ∧
      t.call = u.call := by
  obtain ⟨v, hrun, hv⟩ := h.drive_atComparison (bs.flatMap ByteMoves.moves ++ rest) hae hm hq
  have hck : rowCK v = .next (toPayload v) :=
    rowCK_payload (ackAccepted_iff.2 (by rw [hv.lastAck, hv.lat]; exact hr)) (hv.lat ▸ hpm)
  obtain ⟨ps, t, hdrive, hps, hrx, hend⟩ := drive_payload (bs := bs) (u := toPayload v) rest hv.busy rfl rfl (hv.lat ▸ hp4)
    (by simp [hv.lat, hbs]) (List.ne_nil_of_length_pos (by omega)) (by simpa [hv.lat, hv.rx] using hpay)
  have hdata : dataList t.data = ps ++ (dataList u.data).drop u.lat.pcnt := by
    simpa [hps, hbs, hv.data] using hend.data
  have hpsn : ps.length = u.lat.pcnt := hps.trans hbs
  have hrxq : q ++ arrived (bs.flatMap ByteMoves.moves) = ps ++ t.rx := hv.rx ▸ hrx
  refine ⟨t, ?_, ?_, hend.lat.trans hv.lat, hend.call.trans hv.call⟩
  · rw [List.append_assoc, hrun, hck, andThen_next, hdrive]
  · refine ⟨hend.busy, hend.phase, hend.ok, hend.tx.trans hv.tx, hend.lastAck.trans hv.lastAck, ?_, ?_, ?_, hend.okValid, ?_,
      hend.log.trans hv.log, hend.idBuf.trans hv.idBuf, hend.env⟩
    · rw [arrived_append, ← List.append_assoc, hq, List.cons_append, hrxq, hdata, List.take_left' hpsn]
    · rw [hdata, List.drop_left' hpsn]
    · rw [hend.removed, toPayload_removed, hv.removed, hdata, List.take_left' hpsn, List.append_assoc, List.singleton_append]
    · simpa [hv.lat, hpm] using hend.valid

/-- Settles O45: the SENDCMD the step issues ends by its comparison, and the payload read the start pulse begins ends after its
last byte. -/
theorem genericSendCompletes : Obligations.GenericSendCompletes := by
  constructor
  · intro bytes mask hs s lm tm dm em rest hready hc hh h1 h6 he hl ht ha hem
    obtain ⟨hb, hi⟩ := hready
    have hlat := latches_sendStarted mask (s := setCall (some (singleCall .nothing)) (setHost hs s)) hi h1 h6
    obtain ⟨t, hrun, hend⟩ := hlat.drive_ackEnd rest rfl rfl ⟨hl, ht, ha, hem⟩
    exact ⟨t, (step_sendCommand hb hc hh h1 h6).trans (he ▸ hrun), hend⟩
  · intro r q bs hs s lm tm dm em rest hready hc hh hwl hae hpm hp1 hp4 h1 h6 he hl ht ha hem hq hr hbs hpay
    obtain ⟨hb, hi⟩ := hready
    have hout : modeOut s.opnd.pm = .payload := by rw [hpm]; rfl
    have hlat := latches_latch .fixed (s := setCall (some (singleCall .payload)) (setHost hs s)) hi h1 h6
    obtain ⟨t, hrun, hend, htlat, htcall⟩ := hlat.drive_payloadEnd rest hae rfl hp1 hp4
      ⟨hl, ht.trans (length_frameTake s.opnd.x h6).symm, ha, hem⟩ hq hr hbs hpay
    have hstep : step s = drive s.env (toWait .wl (latch .fixed (setCall (some (singleCall .payload)) (setHost hs s)))) := by
      rw [step_issue hb hc hh, hostIssue, setHost_opnd, hout]
      exact runOperation_fixed hb hwl hae hpm hp1 hp4 h1 h6
    exact ⟨t, hstep.trans (he ▸ hrun), hend, congrArg Latched.pcnt htlat, htcall⟩

/-! ### The drain -/

/-- A drain that finds the queue non-empty at one check more than its buffer has room for is refused (R83, D8). -/
theorem drive_drain_overflow {ds : List DrainMoves} (rest : List EnvMove) {u : State} (hb : u.busy = true) (hp : u.phase = .dc)
    (hle : u.idBuf.length ≤ u.cfg.identCap) (hlen : u.idBuf.length + ds.length = u.cfg.identCap + 1) (hfed : Fed u.rx ds) :
    drive (ds.flatMap DrainMoves.moves ++ rest) u = .refused .identOverflow := by
  induction ds generalizing u with
  | nil =>
    rw [List.length_nil] at hlen
    omega
  | cons d ds ih =>
    obtain ⟨hne, hfed⟩ := hfed
    rw [List.length_cons] at hlen
    have hnil : u.rx ++ arrived d.moves ≠ [] := by
      rw [DrainMoves.moves, arrived_cons, ← List.append_assoc]
      exact List.append_ne_nil_of_left_ne_nil hne _
    obtain ⟨r, q, hq⟩ := List.exists_cons_of_ne_nil hnil
    rw [hq, List.tail_cons] at hfed
    rw [List.flatMap_cons, List.append_assoc, drive_drain_byte d _ hb hp hne hq]
    split_ifs with hc
    · refine ih ?_ ?_ ?_ ?_ ?_
      · simp [drained, hb]
      · simp [drained, hp]
      · simpa [drained] using hc
      · simp only [drained, afterMoves_idBuf, List.length_append, List.length_singleton, afterMoves_cfg]
        omega
      · exact hfed
    · rfl

/-- From the end of its frame an operation with a drain comes to the first check, after its wait or at once (R83, D7). -/
theorem drive_to_drain {u : State} {dm : List EnvMove} (rest : List EnvMove) (hb : u.busy = true) (hae : u.lat.ae = false)
    (hpm : u.lat.pm = .drain) (hd : if u.cfg.identWaitData then Answers u.lat.tmoData u.rx dm else dm = []) :
    ∃ n, andThen (afterFrame u) (drive (dm ++ rest)) = drive rest (toPhase .dc (waited n rest (afterMoves dm u))) := by
  cases hw : u.cfg.identWaitData with
  | true =>
    rw [hw, if_pos rfl] at hd
    obtain ⟨n, hn⟩ := hd
    refine ⟨n, ?_⟩
    rw [afterFrame_wait hae hpm hw, andThen_next, (drive_polls steady_rxAvail (atWait_wd (s := toWait .wd u) hb rfl) dm rest).1 n
      (by rw [pollSamples_rxAvail]; exact hn), afterMoves_comm (toWait .wd) fun _ _ => rfl]
    rfl
  | false =>
    rw [hw, if_neg (by simp)] at hd
    subst hd
    refine ⟨u.elapsed, ?_⟩
    rw [afterFrame_drain hae hpm hw, andThen_next, List.nil_append]
    exact (drive_setEnv rest rest (toPhase .dc u)).symm

/-- Settles O35: IDENT comes to its first check with an empty buffer, and is then fed one byte too many. -/
theorem identBeyondItsCapacityIsRefused : Obligations.IdentBeyondItsCapacityIsRefused := by
  intro s lm dm rest m ds hready he hl hd hds hfed
  obtain ⟨hb, hi⟩ := hready
  have hlat := latches_started .ident hi
  obtain ⟨n, hframe⟩ := drive_frame (encode .ident) (tm := [m]) (dm ++ (ds.flatMap DrainMoves.moves ++ rest)) hlat.busy hlat.init
    hlat.waitOnly hlat.len hlat.nonempty hlat.frame hl rfl
  generalize hu : transmitted (encode .ident) (dm ++ (ds.flatMap DrainMoves.moves ++ rest)) (toTransmit (waited n
    (dm ++ (ds.flatMap DrainMoves.moves ++ rest)) (afterMoves (lm ++ [m]) (started .ident s)))) = u at hframe
  have hulat : u.lat = (started .ident s).lat := by simp [← hu, transmitted]
  have hucfg : u.cfg = s.cfg := by simp [← hu, transmitted, started]
  have hurx : u.rx = s.rx ++ arrived (lm ++ [m]) := by simp [← hu, transmitted, started]
  have huid : u.idBuf = [] := by simp [← hu, transmitted, started, descriptorOf]
  have hub : u.busy = true := by simp [← hu, transmitted, started]
  obtain ⟨n', hdrain⟩ := drive_to_drain (u := u) (dm := dm) (ds.flatMap DrainMoves.moves ++ rest) hub (by rw [hulat]; rfl)
    (by rw [hulat]; rfl) (by rw [hucfg, hulat, hurx]; exact hd)
  have hover : drive (ds.flatMap DrainMoves.moves ++ rest)
      (toPhase .dc (waited n' (ds.flatMap DrainMoves.moves ++ rest) (afterMoves dm u))) = .refused .identOverflow :=
    drive_drain_overflow rest (by simpa using hub) rfl (by simp [huid]) (by simpa [huid, hucfg] using hds)
      (by simpa [hurx] using hfed)
  rw [exec_eq .ident hb, he, List.append_assoc, List.append_assoc]
  exact hframe.trans (hdrain.trans hover)

end Sys2Proof.Machine
end

section
/-! The six wire commands to their end (R88 to R94): the operation each of them latches ends by its comparison, after its payload,
or when its drain finds the queue empty. -/

namespace Sys2Proof.Machine

/-! ### The acknowledgment -/

/-- A command that expects an acknowledgment is compared under its own mask, whatever the register held (R55). -/
theorem started_mask_eq {i : Instr} {mask : Byte} (hm : (descriptorOf i).mask = some mask) (s : State) :
    (started i s).lat.mask = mask := by
  rw [started_mask, hm]
  rfl

section
variable {i : Instr} {mask : Byte} {s : State} {lm tm dm em rest : List EnvMove}

/-- The moves of an acknowledgment, read for the operation that the command latches. -/
theorem ackMoves_started (hl : Listens s.tmoListen lm) (ht : tm.length = (encode i).length)
    (ha : Answers s.tmoData (s.rx ++ arrived (lm ++ tm)) dm) (hem : em.length = 3) :
    AckMoves (encode i).length (started i s) lm tm dm em where
  listens := started_tmoListen i s ▸ hl
  frame := ht
  answers := started_tmoData i s ▸ ha
  reads := hem

/-! ### The commands without a payload -/

/-- A command with an acknowledgment and no payload ends by its comparison when its two waits succeed in time (R74). -/
theorem exec_ackEnd (hae : (descriptorOf i).ae = true) (hm : (descriptorOf i).mask = some mask)
    (hpm : (descriptorOf i).pm = .none) (hready : Ready s) (he : s.env = lm ++ tm ++ dm ++ em ++ rest)
    (hl : Listens s.tmoListen lm) (ht : tm.length = (encode i).length)
    (ha : Answers s.tmoData (s.rx ++ arrived (lm ++ tm)) dm) (hem : em.length = 3) :
    ∃ t, exec i s = .next t ∧ AckEnd s t (encode i) mask (lm ++ tm ++ dm ++ em) rest := by
  obtain ⟨hb, hi⟩ := hready
  obtain ⟨t, hrun, hend⟩ := (latches_started i hi).drive_ackEnd rest ((started_ae i s).trans hae) ((started_pm i s).trans hpm)
    (ackMoves_started hl ht ha hem)
  refine ⟨t, (exec_eq i hb).trans (he ▸ hrun), ?_⟩
  rw [started_mask_eq hm] at hend
  simpa [AckEnd, started, hpm] using hend

/-- Settles O21: WRPAGE is a command without a payload, with a frame of six bytes and mask 0x3E. -/
theorem wrpageCompletes : Obligations.WrpageCompletes :=
  fun page d0 d1 d2 d3 _ _ _ _ _ _ => exec_ackEnd (i := .wrpage page d0 d1 d2 d3) rfl rfl rfl

/-- Settles O22: STATUS is a command without a payload, with a frame of one byte and mask 0x28. -/
theorem statusCompletes : Obligations.StatusCompletes :=
  fun _ _ _ _ _ _ => exec_ackEnd (i := .status) rfl rfl rfl

/-- Settles O23: PROGEE is a command without a payload, with a frame of three bytes and mask 0x01. -/
theorem progeeCompletes : Obligations.ProgeeCompletes :=
  fun address value _ _ _ _ _ _ => exec_ackEnd (i := .progee address value) rfl rfl rfl

/-! ### The commands with a payload -/

/-- A command with a fixed payload ends with success when its acknowledgment passes the mask and each of its six waits succeeds in
time (R82). -/
theorem exec_payloadEnd {r : Byte} {q : List Byte} {bs : List ByteMoves} (hpm : (descriptorOf i).pm = .fixed) (hready : Ready s)
    (he : s.env = lm ++ tm ++ dm ++ em ++ bs.flatMap ByteMoves.moves ++ rest) (hl : Listens s.tmoListen lm)
    (ht : tm.length = (encode i).length) (ha : Answers s.tmoData (s.rx ++ arrived (lm ++ tm)) dm) (hem : em.length = 3)
    (hq : s.rx ++ arrived (lm ++ tm ++ dm ++ em) = r :: q) (hr : r &&& 0x3E = 0x16) (hbs : bs.length = 4)
    (hpay : PayloadArrives s.tmoData q bs) :
    ∃ t, exec i s = .next t ∧
      PayloadEnd s t (encode i) r 4 (lm ++ tm ++ dm ++ em ++ bs.flatMap ByteMoves.moves) rest := by
  obtain ⟨hb, hi⟩ := hready
  obtain ⟨hae, hm⟩ := ae_and_mask_of_fixed hpm
  have hpcnt : (started i s).lat.pcnt = 4 := started_pcnt_fixed hpm
  obtain ⟨t, hrun, hend, -⟩ := (latches_started i hi).drive_payloadEnd rest ((started_ae i s).trans hae)
    ((started_pm i s).trans hpm) (by omega) (by omega) (ackMoves_started hl ht ha hem) hq
    (by rw [started_mask_eq hm]; exact hr) (hbs.trans hpcnt.symm) (started_tmoData i s ▸ hpay)
  refine ⟨t, (exec_eq i hb).trans (he ▸ hrun), ?_⟩
  rw [hpcnt] at hend
  simpa [PayloadEnd, started, hpm] using hend

/-- Settles O24: RDPAGE is a command with a payload and a frame of two bytes. -/
theorem rdpageCompletes : Obligations.RdpageCompletes :=
  fun page _ _ _ _ _ _ _ _ _ => exec_payloadEnd (i := .rdpage page) rfl

/-- Settles O25: UID is a command with a payload and a frame of one byte. -/
theorem uidCompletes : Obligations.UidCompletes :=
  fun _ _ _ _ _ _ _ _ _ => exec_payloadEnd (i := .uid) rfl

end

/-! ### IDENT -/

/-- A drain that stood in `u` before a check has ended with success, having taken `bytes` and emptied the queue; `rest` are the
moves left (R83). -/
structure DrainEnded (bytes : List Byte) (rest : List EnvMove) (u t : State) : Prop where
  busy    : t.busy = false
  phase   : t.phase = .idle
  ok      : t.ok = true
  okValid : t.okValid = true
  tx      : t.tx = u.tx
  lastAck : t.lastAck = u.lastAck
  data    : t.data = u.data
  log     : t.log = u.log
  idBuf   : t.idBuf = u.idBuf ++ bytes
  rx      : t.rx = []
  removed : t.removed = u.removed ++ bytes
  idValid : u.lat.pm = .drain → t.idValid = true
  env     : t.env = rest

/-- One drained byte before a drain is a drain of one byte more. -/
theorem DrainEnded.cons {u t : State} {r : Byte} {q bytes : List Byte} {ms e rest : List EnvMove}
    (h : DrainEnded bytes rest (drained r q e (afterMoves ms u)) t) : DrainEnded (r :: bytes) rest u t where
  busy := h.busy
  phase := h.phase
  ok := h.ok
  okValid := h.okValid
  tx := by simpa [drained] using h.tx
  lastAck := by simpa [drained] using h.lastAck
  data := by simpa [drained] using h.data
  log := by simpa [drained] using h.log
  idBuf := by simpa [drained] using h.idBuf
  rx := h.rx
  removed := by simpa [drained] using h.removed
  idValid := by simpa [drained] using h.idValid
  env := h.env

/-- A drain whose bytes fit the buffer takes everything up to the check that finds the queue empty (R83). -/
theorem drive_drain {ds : List DrainMoves} {last : EnvMove} (rest : List EnvMove) {u : State} (hb : u.busy = true)
    (hp : u.phase = .dc) (hcap : u.idBuf.length + ds.length ≤ u.cfg.identCap) (hd : Drains u.rx ds last) :
    ∃ t, drive (ds.flatMap DrainMoves.moves ++ [last] ++ rest) u = .next t ∧
      DrainEnded (u.rx ++ arrived (ds.flatMap DrainMoves.moves ++ [last])) rest u t := by
  induction ds generalizing u with
  | nil =>
    have hempty : u.rx ++ last.arrivals = [] := hd
    refine ⟨_, (drive_drain_end last rest hb hp hempty).trans (drive_idle rest rfl), ?_⟩
    rw [List.flatMap_nil, List.nil_append, arrived_cons, arrived_nil, List.append_nil, hempty]
    constructor <;> simp +contextual [hempty]
  | cons d ds ih =>
    obtain ⟨hne, hd⟩ := hd
    rw [List.length_cons] at hcap
    have hnil : u.rx ++ arrived d.moves ≠ [] := by
      rw [DrainMoves.moves, arrived_cons, ← List.append_assoc]
      exact List.append_ne_nil_of_left_ne_nil hne _
    obtain ⟨r, q, hq⟩ := List.exists_cons_of_ne_nil hnil
    rw [hq, List.tail_cons] at hd
    obtain ⟨t, hrun, ht⟩ := ih
      (u := drained r q (ds.flatMap DrainMoves.moves ++ [last] ++ rest) (afterMoves d.moves u))
      (by simpa [drained] using hb) (by simpa [drained] using hp) (by simp [drained]; omega) hd
    refine ⟨t, ?_, ?_⟩
    · rw [List.flatMap_cons, List.append_assoc, List.append_assoc, ← List.append_assoc _ [last],
        drive_drain_byte d _ hb hp hne hq, if_pos (by omega), hrun]
    · rw [List.flatMap_cons, List.append_assoc, arrived_append, ← List.append_assoc, hq]
      exact ht.cons

/-- IDENT, begun in `s`, has come to its first check: its byte is sent, its buffer is empty and nothing is taken yet; `queue` is
what has been in the queue since (R83, R93). -/
structure AtDrain (queue : List Byte) (s v : State) : Prop where
  busy    : v.busy = true
  phase   : v.phase = .dc
  pm      : v.lat.pm = .drain
  cfg     : v.cfg = s.cfg
  tx      : v.tx = s.tx ++ encode .ident
  rx      : v.rx = queue
  removed : v.removed = s.removed
  idBuf   : v.idBuf = []
  lastAck : v.lastAck = s.lastAck
  data    : v.data = s.data
  log     : v.log = s.log

/-- IDENT whose waits succeed in time comes to its first check (R75, R76, R83). -/
theorem exec_ident_atDrain {s : State} {lm dm rest : List EnvMove} {m : EnvMove} (hready : Ready s)
    (he : s.env = lm ++ [m] ++ (dm ++ rest)) (hl : Listens s.tmoListen lm)
    (hd : if s.cfg.identWaitData then Answers s.tmoData (s.rx ++ arrived (lm ++ [m])) dm else dm = []) :
    ∃ v, exec .ident s = drive rest v ∧ AtDrain (s.rx ++ arrived (lm ++ [m] ++ dm)) s v := by
  obtain ⟨hb, hi⟩ := hready
  have hlat := latches_started .ident hi
  obtain ⟨n, hframe⟩ := drive_frame (encode .ident) (tm := [m]) (dm ++ rest) hlat.busy hlat.init hlat.waitOnly hlat.len
    hlat.nonempty hlat.frame hl rfl
  obtain ⟨n', hdrain⟩ := drive_to_drain (dm := dm) (u := transmitted (encode .ident) (dm ++ rest)
      (toTransmit (waited n (dm ++ rest) (afterMoves (lm ++ [m]) (started .ident s))))) rest
    (by simp [transmitted, started]) (by simp [transmitted, started_ae, descriptorOf])
    (by simp [transmitted, started_pm, descriptorOf]) (by simpa [transmitted, started, latchOperands] using hd)
  refine ⟨_, (exec_eq .ident hb).trans (he ▸ hframe.trans hdrain), ?_⟩
  constructor <;> simp [transmitted, started, descriptorOf, latchOperands]

/-- Settles O26: IDENT comes to its first check with an empty buffer, and the drain takes the whole queue. -/
theorem identCompletes : Obligations.IdentCompletes := by
  intro s lm dm rest m last ds hready he hl hd hdrains hcap
  obtain ⟨v, hexec, hv⟩ := exec_ident_atDrain (rest := ds.flatMap DrainMoves.moves ++ [last] ++ rest) hready
    (by simpa using he) hl hd
  obtain ⟨t, hrun, ht⟩ := drive_drain (ds := ds) (last := last) rest hv.busy hv.phase
    (by rw [hv.idBuf, hv.cfg]; simpa using hcap) (hv.rx ▸ hdrains)
  have hid : t.idBuf = s.rx ++ arrived (lm ++ [m] ++ dm ++ ds.flatMap DrainMoves.moves ++ [last]) := by
    rw [ht.idBuf, hv.idBuf, hv.rx]
    simp
  have hremoved : t.removed = s.removed ++ t.idBuf := by rw [ht.removed, ht.idBuf, hv.removed, hv.idBuf, List.nil_append]
  exact ⟨t, hexec.trans hrun, ht.busy, ht.phase, ht.ok, ht.okValid, ht.tx.trans hv.tx, hid, ht.rx, hremoved,
    ht.lastAck.trans hv.lastAck, ht.data.trans hv.data, ht.log.trans hv.log, ht.idValid hv.pm, ht.env⟩

end Sys2Proof.Machine
end

section
/-! The host's frames and GETACK (R88, R95). -/

namespace Sys2Proof.Machine

/-- Settles O6: the step issues the wire operation, whose frame the host decodes. -/
theorem stepRunsTheDecodedCommand : Obligations.StepRunsTheDecodedCommand := by
  intro s frame rest i hb hc hh hdec _
  rw [step_issue hb hc hh, hostIssue, hdec]
  rfl

/-- Settles O47: the step hands over `LAST_ACK` while no call is outstanding, so only the results grow. -/
theorem getAckReturnsLastAck : Obligations.GetAckReturnsLastAck := by
  refine ⟨fun s hs hb hc hh => ?_, rfl⟩
  rw [step_issue hb hc hh, hostIssue, deliver_of_call_none (s := setHost hs s) _ hc]
  rfl

end Sys2Proof.Machine
end

section
/-! What a command leaves of the registers, the streams and the log (R20 to R27, R79, R82, R83), for every next state, ended or not:
an invariant of the run, which each row of R85 and each move of the environment keeps. -/

namespace Sys2Proof.Machine

/-! ### A property that the rows and the moves keep -/

/-- What the environment's moves and the rows of a busy machine keep holds after a run. -/
theorem drive_induction {P : State → Prop} (hmove : ∀ m e v, P v → P (applyMove m (setEnv e v)))
    (henv : ∀ e v, P v → P (setEnv e v)) (hrow : ∀ v w, v.busy = true → P v → RowStep v w → P w)
    {ms : List EnvMove} {s t : State} (h : drive ms s = .next t) (hs : P s) : P t := by
  induction ms generalizing s with
  | nil =>
    cases h
    exact henv [] s hs
  | cons m ms ih =>
    cases hb : s.busy with
    | true =>
      rw [drive_busy m ms hb] at h
      obtain ⟨u, hu, h⟩ := andThen_eq_next.1 h
      exact ih h (hrow (applyMove m (setEnv ms s)) u hb (hmove m ms s hs) (row_step hu))
    | false =>
      rw [drive_idle _ hb] at h
      cases h
      exact henv _ s hs

/-! ### Which phases an operation comes to -/

/-- The phases an operation may come to by what it has latched: those of the acknowledgment, of the payload and of the drain only
where it has one (R85). -/
def phaseOwned (l : Latched) : Phase → Prop
  | .wa | .sa | .ra | .ck => l.ae = true
  | .wp | .sp | .rp => l.pm = .fixed
  | .wd | .dc | .sd | .rd => l.pm = .drain
  | .idle | .wl | .tx => True

section
variable {s t u v w : State} {bytes : List Byte}

theorem RowStep.phaseOwned (h : RowStep s t) (hs : phaseOwned s.lat s.phase) : phaseOwned t.lat t.phase := by
  cases h with
  | sleeps | sends => exact hs
  | timesOut | bareHolds | bareTimesOut | listens | sent | accepts | mismatches | readsLastByte | drained => trivial
  | awaitsAck _ _ _ hae => exact hae
  | awaitsDrain _ _ _ hpm | beginsDrain _ _ _ hpm | beginsPayload _ _ hpm => exact hpm
  | answered hp | settlesAck hp | readsAck hp | findsByte hp | settlesByte hp | readsByte hp | findsDrain hp | drains hp
  | settlesDrain hp | readsDrain hp =>
    rw [hp] at hs
    exact hs

/-! ### What is left alone -/

/-- From `u` to `v` a command has left alone what is not its own to write: the host's registers and lists, the latched copy, and
the outputs that it does not have; of the queue only a head has been taken. -/
structure CommandKeeps (u v : State) : Prop where
  tmoListen : v.tmoListen = u.tmoListen
  tmoData   : v.tmoData = u.tmoData
  init      : v.init = u.init
  cfg       : v.cfg = u.cfg
  host      : v.host = u.host
  opnd      : v.opnd = u.opnd
  lat       : v.lat = u.lat
  call      : v.call = u.call
  results   : v.results = u.results
  removed   : ∃ popped, v.removed = u.removed ++ popped
  lastAck   : u.lat.ae = false → v.lastAck = u.lastAck
  data      : u.lat.pm ≠ .fixed → v.data = u.data ∧ v.dataValid = u.dataValid
  idBuf     : u.lat.pm ≠ .drain → v.idBuf = u.idBuf ∧ v.idValid = u.idValid

theorem CommandKeeps.refl (u : State) : CommandKeeps u u :=
  ⟨rfl, rfl, rfl, rfl, rfl, rfl, rfl, rfl, rfl, ⟨[], (List.append_nil _).symm⟩, fun _ => rfl,
    fun _ => ⟨rfl, rfl⟩, fun _ => ⟨rfl, rfl⟩⟩

theorem CommandKeeps.trans (h : CommandKeeps u v) (k : CommandKeeps v w) : CommandKeeps u w where
  tmoListen := k.tmoListen.trans h.tmoListen
  tmoData := k.tmoData.trans h.tmoData
  init := k.init.trans h.init
  cfg := k.cfg.trans h.cfg
  host := k.host.trans h.host
  opnd := k.opnd.trans h.opnd
  lat := k.lat.trans h.lat
  call := k.call.trans h.call
  results := k.results.trans h.results
  removed := by
    obtain ⟨popped, hv⟩ := h.removed
    obtain ⟨more, hw⟩ := k.removed
    exact ⟨popped ++ more, by rw [hw, hv, List.append_assoc]⟩
  lastAck hae := (k.lastAck (h.lat ▸ hae)).trans (h.lastAck hae)
  data hpm := (k.data (h.lat ▸ hpm)).imp (·.trans (h.data hpm).1) (·.trans (h.data hpm).2)
  idBuf hpm := (k.idBuf (h.lat ▸ hpm)).imp (·.trans (h.idBuf hpm).1) (·.trans (h.idBuf hpm).2)

/-- No row writes the host's registers, the line's configuration or the parameters (R15, R27). -/
theorem RowStep.hostRegisters (h : RowStep s t) :
    t.tmoListen = s.tmoListen ∧ t.tmoData = s.tmoData ∧ t.init = s.init ∧ t.cfg = s.cfg ∧
      t.host = s.host ∧ t.opnd = s.opnd := by
  cases h <;> exact ⟨rfl, rfl, rfl, rfl, rfl, rfl⟩

/-- Only the end of a bare WAIT hands the host its result (R65). -/
theorem RowStep.call (h : RowStep s t) (hw : s.lat.waitOnly = false) : t.call = s.call ∧ t.results = s.results := by
  cases h with
  | bareHolds _ hw' | bareTimesOut _ _ hw' => simp [hw] at hw'
  | _ => exact ⟨rfl, rfl⟩

/-- What a row takes off the queue is added to the record (R10). -/
theorem RowStep.removed (h : RowStep s t) : ∃ popped, t.removed = s.removed ++ popped := by
  cases h with
  | readsAck | readsByte | readsLastByte | readsDrain => exact ⟨_, rfl⟩
  | _ => exact ⟨[], (List.append_nil _).symm⟩

/-- Only row RA writes `LAST_ACK` (R79, D32). -/
theorem RowStep.lastAck (h : RowStep s t) (hp : s.phase ≠ .ra) : t.lastAck = s.lastAck := by
  cases h with
  | readsAck hra => exact absurd hra hp
  | _ => rfl

/-- Only an operation with a fixed payload writes `DATA` or its mark (R16, R82). -/
theorem RowStep.data (h : RowStep s t) (hp : s.phase ≠ .rp) (hpm : s.lat.pm ≠ .fixed) :
    t.data = s.data ∧ t.dataValid = s.dataValid := by
  cases h with
  | readsByte hrp | readsLastByte hrp => exact absurd hrp hp
  | timesOut | sent | accepts | mismatches | drained => exact ⟨rfl, if_neg hpm⟩
  | _ => exact ⟨rfl, rfl⟩

/-- Only an operation with a drain writes `IDBUF` or its mark (R17, R83). -/
theorem RowStep.idBuf (h : RowStep s t) (hp : s.phase ≠ .rd) (hpm : s.lat.pm ≠ .drain) :
    t.idBuf = s.idBuf ∧ t.idValid = s.idValid := by
  cases h with
  | readsDrain hrd => exact absurd hrd hp
  | timesOut | sent | accepts | mismatches | readsLastByte | drained => exact ⟨rfl, if_neg hpm⟩
  | _ => exact ⟨rfl, rfl⟩

theorem RowStep.commandKeeps (h : RowStep s t) (hw : s.lat.waitOnly = false) (hs : Machine.phaseOwned s.lat s.phase) :
    CommandKeeps s t := by
  obtain ⟨htl, htd, hi, hcfg, hhost, hopnd⟩ := h.hostRegisters
  obtain ⟨hcall, hres⟩ := h.call hw
  refine ⟨htl, htd, hi, hcfg, hhost, hopnd, h.lat, hcall, hres, h.removed, fun hae => ?_, fun hpm => ?_, fun hpm => ?_⟩
  · refine h.lastAck fun hp => ?_
    rw [hp] at hs
    exact Bool.false_ne_true (hae.symm.trans hs)
  · refine h.data (fun hp => ?_) hpm
    rw [hp] at hs
    exact hpm hs
  · refine h.idBuf (fun hp => ?_) hpm
    rw [hp] at hs
    exact hpm hs

/-! ### What is sent and logged -/

/-- From `u` to `v` a leading part of the frame `bytes` has been sent: none in phase WL, the first `txi` bytes in phase TX, which
are not all (R19, R76). -/
def SentPart (bytes : List Byte) (u v : State) : Prop :=
  ∃ n, v.tx = u.tx ++ bytes.take n ∧ (v.phase = .wl → n = 0) ∧ (v.phase = .tx → n = v.txi ∧ v.txi < bytes.length)

theorem SentPart.past (h : SentPart bytes u v) (htx : w.tx = v.tx) (hwl : w.phase ≠ .wl) (hp : w.phase ≠ .tx) :
    SentPart bytes u w := by
  obtain ⟨n, hn, -⟩ := h
  exact ⟨n, htx.trans hn, fun hc => absurd hc hwl, fun hc => absurd hc hp⟩

/-- Row TX sends the next byte of the frame. -/
theorem SentPart.next (h : SentPart bytes u v) (hx : ∀ k (h : k < bytes.length), frameGet v.lat.x k = some bytes[k])
    {b : Byte} (hp : v.phase = .tx) (hb : frameGet v.lat.x v.txi = some b) :
    (sentByte b v).tx = u.tx ++ bytes.take (v.txi + 1) := by
  obtain ⟨n, hn, -, htx⟩ := h
  obtain ⟨rfl, hlt⟩ := htx hp
  have hbyte : b = bytes[v.txi] := Option.some.inj (hb.symm.trans (hx v.txi hlt))
  rw [sentByte_tx, hn, hbyte, List.take_add_one, List.getElem?_eq_getElem hlt, List.append_assoc]
  rfl

theorem RowStep.sentPart (h : RowStep v w) (hx : ∀ k (h : k < bytes.length), frameGet v.lat.x k = some bytes[k])
    (hlen : v.lat.len = bytes.length) (hne : bytes ≠ []) (hs : SentPart bytes u v) : SentPart bytes u w := by
  cases h with
  | sleeps => exact hs
  | listens n hp =>
    obtain ⟨k, hk, hwl, -⟩ := hs
    obtain rfl := hwl hp
    exact ⟨0, hk, fun _ => rfl, fun _ => ⟨rfl, List.length_pos_of_ne_nil hne⟩⟩
  | sends b hp hb hl =>
    exact ⟨v.txi + 1, hs.next hx hp hb, fun hc => by simp [hp] at hc, fun _ => ⟨rfl, hlen ▸ hl⟩⟩
  | awaitsAck b hp hb | awaitsDrain b hp hb | beginsDrain b hp hb | sent b hp hb =>
    exact ⟨v.txi + 1, hs.next hx hp hb, nofun, nofun⟩
  | _ => exact hs.past rfl nofun nofun

/-- A row adds nothing to the log, or one entry at a time-out, which ends the operation (R21, R68). -/
theorem RowStep.log (h : RowStep s t) : t.log = s.log ∨ t.busy = false ∧ ∃ kind, t.log = s.log ++ [kind] := by
  cases h with
  | timesOut _ k | bareTimesOut _ k => exact .inr ⟨rfl, k, rfl⟩
  | _ => exact .inl rfl

/-! ### The run of a command -/

/-- What holds of every state `v` of an operation that sends `bytes` and was latched in `u`; the log has gained nothing while it
runs, and at most one entry once it has ended (R117). -/
structure CommandRun (bytes : List Byte) (u v : State) : Prop where
  keeps : CommandKeeps u v
  owned : phaseOwned v.lat v.phase
  sent  : SentPart bytes u v
  quiet : v.busy = true → v.log = u.log
  log   : v.log = u.log ∨ ∃ kind, v.log = u.log ++ [kind]

theorem CommandRun.setEnv (h : CommandRun bytes u v) (e : List EnvMove) : CommandRun bytes u (setEnv e v) :=
  ⟨{ h.keeps with }, h.owned, h.sent, h.quiet, h.log⟩

theorem CommandRun.moved (h : CommandRun bytes u v) (m : EnvMove) (e : List EnvMove) :
    CommandRun bytes u (applyMove m (Machine.setEnv e v)) :=
  ⟨{ h.keeps with }, h.owned, h.sent, h.quiet, h.log⟩

theorem CommandRun.rowStep (hv : CommandRun bytes u v) (hw : u.lat.waitOnly = false)
    (hx : ∀ k (h : k < bytes.length), frameGet u.lat.x k = some bytes[k]) (hlen : u.lat.len = bytes.length) (hne : bytes ≠ [])
    (hb : v.busy = true) (h : RowStep v w) : CommandRun bytes u w := by
  have hlat := hv.keeps.lat
  have hlog := hv.quiet hb
  refine ⟨hv.keeps.trans (h.commandKeeps (hlat ▸ hw) hv.owned), h.phaseOwned hv.owned,
    h.sentPart (hlat ▸ hx) (hlat ▸ hlen) hne hv.sent, fun hbusy => ?_, ?_⟩
  · obtain hl | ⟨hended, -⟩ := h.log
    · exact hl.trans hlog
    · exact absurd (hbusy.symm.trans hended) (by decide)
  · rw [← hlog]
    exact h.log.imp_right And.right

end

/-- A command has just been latched. -/
theorem commandRun_started (i : Instr) (s : State) : CommandRun (encode i) (started i s) (toWait .wl (started i s)) where
  keeps := { CommandKeeps.refl (started i s) with }
  owned := trivial
  sent := ⟨0, (List.append_nil _).symm, fun _ => rfl, nofun⟩
  quiet _ := rfl
  log := .inl rfl

/-- A command that answers a next state began in an idle machine (R87). -/
theorem idle_of_exec {i : Instr} {s t : State} (h : exec i s = .next t) : s.busy = false := by
  rw [← Bool.not_eq_true]
  intro hb
  rw [exec_busy i hb] at h
  cases h

/-- Every next state of a command is one of its run. -/
theorem exec_commandRun {i : Instr} {s t : State} (h : exec i s = .next t) : CommandRun (encode i) (started i s) t := by
  rw [exec_eq i (idle_of_exec h)] at h
  have hne : encode i ≠ [] := by rw [encode_eq_opcodeOf_cons]; exact List.cons_ne_nil _ _
  exact drive_induction (fun m e _ hv => hv.moved m e) (fun e _ hv => hv.setEnv e)
    (fun _ _ hb hv hrow => hv.rowStep (started_waitOnly i s) (started_frame i s) (started_len i s) hne hb hrow)
    h (commandRun_started i s)

/-- A command writes `ok` when it ends and not before (R20). -/
theorem exec_verdict {i : Instr} {s t : State} (h : exec i s = .next t) :
    if t.busy then t.ok = s.ok ∧ t.okValid = s.okValid else t.okValid = true := by
  rw [exec_eq i (idle_of_exec h)] at h
  exact drive_verdict (s := toWait .wl (started i s)) rfl (started_waitOnly i s) h

/-- The bytes a command takes are a head of what has been in the queue, and they are recorded (R10, R28). -/
theorem exec_takesHead {i : Instr} {s t : State} (h : exec i s = .next t) :
    ∃ used popped, s.env = used ++ t.env ∧ s.rx ++ arrived used = popped ++ t.rx ∧ t.removed = s.removed ++ popped := by
  obtain ⟨used, henv, hq⟩ := exec_removed h
  obtain ⟨popped, hpop⟩ := (exec_commandRun h).keeps.removed
  have hpop : t.removed = s.removed ++ popped := hpop
  rw [hpop, List.append_assoc] at hq
  exact ⟨used, popped, henv, (List.append_cancel_left hq).symm, hpop⟩

/-- The only command with a drain is IDENT (R55). -/
theorem pm_ne_drain_of_ne_ident {i : Instr} (h : i ≠ .ident) : (descriptorOf i).pm ≠ .drain := by
  cases i with
  | ident => exact absurd rfl h
  | rdpage | wrpage | status | uid | progee => nofun

/-- Settles O39: what holds along the run of a command, read off for its next state. -/
theorem commandFrameOfRegisters : Obligations.CommandFrameOfRegisters := by
  intro i s t h
  obtain ⟨hkeeps, -, ⟨n, htx, -⟩, -, hlog⟩ := exec_commandRun h
  refine ⟨hkeeps.tmoListen, hkeeps.tmoData, hkeeps.init, hkeeps.cfg, hkeeps.host, hkeeps.call, hkeeps.results, hkeeps.opnd,
    ⟨n, htx⟩, exec_takesHead h, fun hi => ?_, fun hpm => ?_, fun hi => ?_, hlog, exec_verdict h⟩
  · subst hi
    exact hkeeps.lastAck (started_ae .ident s)
  · exact hkeeps.data (started_pm i s ▸ hpm)
  · have hpm := pm_ne_drain_of_ne_ident hi
    have hid : (started i s).idBuf = s.idBuf := if_neg hpm
    exact hid ▸ hkeeps.idBuf (started_pm i s ▸ hpm)

end Sys2Proof.Machine
end

section
/-! The expansions of the sequences (R97 to R105): range writes as PROGEE at ascending addresses, user data as WRPAGE at ascending
pages, and the bytes they come to. -/

namespace Sys2Proof.Machine

/-! ### Which expansions are refused -/

theorem expand_ok {q : Sequence} (hl : sequenceLengthsRight q = true) (hr : sequenceRangesRight q = true) :
    expand q = .ok (commandsOf q) := by
  rw [expand, hl, hr]
  rfl

theorem expand_error {q : Sequence} (hl : sequenceLengthsRight q = true) (hr : sequenceRangesRight q = false) :
    expand q = .error (rangeRefusal q) := by
  rw [expand, hl, hr]
  rfl

/-! ### Range writes -/

theorem rangeWrites_append (a : Nat) (vs ws : List Byte) :
    rangeWrites a (vs ++ ws) = rangeWrites a vs ++ rangeWrites (a + vs.length) ws := by
  induction vs generalizing a with
  | nil => rfl
  | cons v vs ih =>
    rw [List.cons_append, rangeWrites, rangeWrites, ih, List.length_cons, Nat.add_right_comm, Nat.add_assoc, List.cons_append]

/-- The command at position `k` writes byte `k`, `k` addresses after the start (R97). -/
theorem rangeWrites_eq_map (a : Nat) (vs : List Byte) :
    rangeWrites a vs = (List.range vs.length).map fun k => Instr.progee (BitVec.ofNat 8 (a + k)) (vs.getD k 0) := by
  induction vs generalizing a with
  | nil => rfl
  | cons v vs ih =>
    rw [rangeWrites, ih, List.length_cons, List.range_succ_eq_map, List.map_cons, List.map_map]
    simp [Function.comp_def, Nat.add_right_comm, Nat.add_assoc]

/-- Each byte of a range write is one frame of three bytes (R57, F2). -/
theorem length_framesOf_rangeWrites (a : Nat) (vs : List Byte) : (framesOf (rangeWrites a vs)).length = 3 * vs.length := by
  induction vs generalizing a with
  | nil => rfl
  | cons v vs ih =>
    rw [rangeWrites, framesOf_cons, List.length_append, ih, List.length_cons, Nat.mul_succ, Nat.add_comm]
    rfl

theorem rangeInside_iff {start length : Nat} : rangeInside start length = true ↔ length = 0 ∨ start + length - 1 ≤ 255 := by
  simp only [rangeInside, Bool.or_eq_true, beq_iff_eq, decide_eq_true_eq]
  omega

/-- Settles O54: of a range inside the EEPROM the expansion reads the bytes below `length`; any other range is refused. -/
theorem rangeWriteExpands : Obligations.RangeWriteExpands := by
  refine ⟨fun start data length hlen hin => ?_, fun start data length hlen hpos hpast => ?_⟩
  · rw [expand_ok (q := .writeEEPROMRange start data length) (decide_eq_true hlen) (rangeInside_iff.2 hin), commandsOf,
      rangeWrites_eq_map, List.length_take_of_le hlen]
    refine congrArg Except.ok (List.map_congr_left fun k hk => ?_)
    rw [List.getD_eq_getElem?_getD, List.getElem?_take_of_lt (List.mem_range.1 hk), ← List.getD_eq_getElem?_getD]
  · refine expand_error (decide_eq_true hlen) (Bool.eq_false_iff.2 fun hin => ?_)
    have := rangeInside_iff.1 hin
    omega

/-- Settles O55: a slot is a range of four addresses; the frames of slot 59 are read off. -/
theorem authorizeTagExpands : Obligations.AuthorizeTagExpands :=
  ⟨fun _ _ _ _ _ h => expand_ok rfl (decide_eq_true h),
    fun _ _ _ _ _ h => expand_error rfl (decide_eq_false (Nat.not_le_of_lt h)), rfl⟩

/-- Slots one after the other are one range from address 12 on (R58a). -/
theorem rangeWrites_slots (n : Nat) :
    ((List.range n).flatMap fun slot => rangeWrites (slotAddress slot) [0, 0, 0, 0]) =
      rangeWrites 12 (List.replicate (4 * n) 0) := by
  induction n with
  | zero => rfl
  | succ n ih =>
    rw [List.range_succ, List.flatMap_append, ih, List.flatMap_singleton, Nat.mul_succ, List.replicate_add, rangeWrites_append,
      List.length_replicate]
    rfl

theorem commandsOf_deauthorizeAllTags : commandsOf .deauthorizeAllTags = rangeWrites 12 (List.replicate 240 0) :=
  rangeWrites_slots 60

/-- Settles O56: the sixty slots are one range of 240 zero bytes. -/
theorem deauthorizeAllExpands : Obligations.DeauthorizeAllExpands := by
  refine ⟨?_, ?_⟩
  · rw [expand_ok rfl rfl, commandsOf_deauthorizeAllTags, rangeWrites_eq_map, List.length_replicate]
    refine congrArg Except.ok (List.map_congr_left fun k hk => ?_)
    rw [List.getD_replicate (h := List.mem_range.1 hk)]
  · rw [commandsOf_deauthorizeAllTags, length_framesOf_rangeWrites, List.length_replicate]

/-! ### The passwords and the UID query -/

theorem expand_setReaderPassword (p0 p1 p2 p3 : Byte) :
    expand (.setReaderPassword [p0, p1, p2, p3]) = expand (.writeEEPROMRange 4 [p0, p1, p2, p3] 4) :=
  (expand_ok rfl rfl).trans (expand_ok (q := .writeEEPROMRange 4 [p0, p1, p2, p3] 4) rfl rfl).symm

theorem expand_setTagPasswordInEEPROM (p0 p1 p2 : Byte) :
    expand (.setTagPasswordInEEPROM [p0, p1, p2]) = expand (.writeEEPROMRange 9 [p0, p1, p2] 3) :=
  (expand_ok rfl rfl).trans (expand_ok (q := .writeEEPROMRange 9 [p0, p1, p2] 3) rfl rfl).symm

/-- What a sequence does when it is begun is settled by its expansion and its buffer. -/
theorem beginSequence_congr {q r : Sequence} (he : expand q = expand r) (ho : sequenceOut q = sequenceOut r) (s : State) :
    beginSequence q s = beginSequence r s := by
  rw [beginSequence, beginSequence, he, ho]

/-- Settles O57: both range writes expand as `writeEEPROMRange` does and have no output buffer, as it has none. -/
theorem passwordFramesAreAsGiven : Obligations.PasswordFramesAreAsGiven := by
  refine ⟨fun p0 p1 p2 p3 => ?_, fun _ _ _ => ⟨expand_ok rfl rfl, rfl⟩, fun p0 p1 p2 => ?_⟩
  · have he := expand_setReaderPassword p0 p1 p2 p3
    exact ⟨he, rfl, beginSequence_congr he rfl⟩
  · have he := expand_setTagPasswordInEEPROM p0 p1 p2
    exact ⟨he, rfl, beginSequence_congr he rfl⟩

theorem expand_enableUIDQuery :
    expand .enableUIDQuery = .ok [.progee 0x0C 0xFF, .progee 0x0D 0xFF, .progee 0x0E 0xFF, .progee 0x0F 0xFF] :=
  expand_ok rfl rfl

/-- Settles O59: both sequences are the range write of four bytes at address 12, whose frames are read off. -/
theorem enableUidQueryFrames : Obligations.EnableUidQueryFrames :=
  ⟨expand_enableUIDQuery.trans (expand_ok (q := .writeEEPROMRange 0x0C [0xFF, 0xFF, 0xFF, 0xFF] 4) rfl rfl).symm,
    expand_enableUIDQuery, rfl, rfl⟩

/-! ### User data -/

/-- The command at position `j` writes bytes `4j` to `4j + 3`, `j` pages after the first (R103). -/
theorem userWrites_eq_map (n k : Nat) (d : List Byte) (h : d.length = 4 * n) :
    userWrites k d = (List.range n).map fun j =>
      Instr.wrpage (userPage (k + j)) (d.getD (4 * j) 0) (d.getD (4 * j + 1) 0) (d.getD (4 * j + 2) 0)
        (d.getD (4 * j + 3) 0) := by
  induction n generalizing k d with
  | zero =>
    obtain rfl := List.length_eq_zero_iff.1 h
    rfl
  | succ n ih =>
    match d, h with
    | d0 :: d1 :: d2 :: d3 :: rest, h =>
      have hrest : rest.length = 4 * n := by simpa [Nat.mul_succ] using h
      rw [userWrites, ih (k + 1) rest hrest, List.range_succ_eq_map, List.map_cons, List.map_map]
      refine congrArg _ (List.map_congr_left fun j _ => ?_)
      rw [Function.comp_apply, Nat.mul_succ, Nat.add_right_comm k 1 j]
      rfl

/-- Settles O58: sixteen bytes are four blocks, in the pages from 4 on. -/
theorem userDataMapsOntoPagesFourToSeven : Obligations.UserDataMapsOntoPagesFourToSeven := by
  have hok : ∀ d : List Byte, d.length = 16 → expand (.writeUserData d) = .ok (userWrites 0 d) :=
    fun d hd => expand_ok (beq_iff_eq.2 hd) rfl
  refine ⟨fun d is hd he => ?_, fun d hd => ⟨_, hok d hd⟩, expand_ok rfl rfl⟩
  obtain rfl := Except.ok.inj ((hok d hd).symm.trans he)
  rw [userWrites_eq_map 4 0 d hd]
  simp only [userPage, Nat.zero_add]

end Sys2Proof.Machine
end

section
/-! The host's calls (R96, R104, R107 to R109): how a sequence is begun, how the return of a command is taken, and what is handed
over. -/

namespace Sys2Proof.Machine

/-! ### The start of a sequence -/

theorem beginSequence_error {q : Sequence} {x : Refusal} (he : expand q = .error x) (s : State) :
    beginSequence q s = .refused x := by
  rw [beginSequence, he]

theorem beginSequence_nil {q : Sequence} {s : State} (he : expand q = .ok []) (hc : s.call = none) :
    beginSequence q s = .next { s with results := s.results ++ [{ value := true, out := [] }] } := by
  rw [beginSequence, he, ← deliver_of_call_none _ hc]

theorem beginSequence_cons {q : Sequence} {i : Instr} {is : List Instr} (he : expand q = .ok (i :: is)) (s : State) :
    beginSequence q s = exec i { s with call := some { todo := is, out := sequenceOut q, got := [] } } := by
  rw [beginSequence, he]
  rfl

/-- A sequence at the head of the host's operations is begun in an idle machine (R47, R96). -/
theorem step_sequence {s : State} {q : Sequence} {hs : List HostOp} (hb : s.busy = false) (hc : s.call = none)
    (hh : s.host = .sequence q :: hs) : step s = beginSequence q (setHost hs s) :=
  step_issue hb hc hh

/-- Settles O51: `begin` sets `INIT` and hands over `true`, or begins the UID query. -/
theorem beginSetsInit : Obligations.BeginSetsInit := by
  refine ⟨fun s hs hb hc hh => ?_, fun s hs hb hc hh => ?_⟩
  · rw [step_issue hb hc hh, hostIssue, if_neg Bool.false_ne_true, deliver_of_call_none (s := setInit (setHost hs s)) _ hc]
    rfl
  · rw [step_issue hb hc hh, hostIssue, if_pos rfl, beginSequence_cons expand_enableUIDQuery]
    rfl

/-! ### The return of a command -/

/-- An idle machine whose host waits for a return hands it over (R96). -/
theorem step_return {s : State} {c : Call} (hb : s.busy = false) (hc : s.call = some c) : step s = hostReturn c s := by
  rw [step, if_neg (by simp [hb]), hostTurn, hc]

theorem hostReturn_failed {s : State} (c : Call) (hok : s.ok = false) :
    hostReturn c s = .next (deliver { value := false, out := undefinedOut c s } (draw 4 s)) := by
  rw [hostReturn, if_neg (by simp [hok])]

theorem hostReturn_next {s : State} {c : Call} {i : Instr} {is : List Instr} (hok : s.ok = true) (htodo : c.todo = i :: is) :
    hostReturn c s = exec i { s with call := some { c with todo := is, got := collect c s } } := by
  rw [hostReturn, if_pos hok, htodo]
  rfl

theorem hostReturn_last {s : State} {c : Call} (hok : s.ok = true) (htodo : c.todo = []) :
    hostReturn c s = .next { s with call := none, results := s.results ++ [{ value := true, out := collect c s }] } := by
  rw [hostReturn, if_pos hok, htodo]
  rfl

/-- Settles O52: the start of a sequence by its expansion, the return of a command by `ok` and by what is to come. -/
theorem sequencesFailFast : Obligations.SequencesFailFast := by
  refine ⟨fun s q i is hs hb hc hh he => ?first, fun s c hb hc hok => ?failed, fun s c i is hb hc hok htodo => ?next,
    fun s c hb hc hok htodo => ?last, fun s q hs hb hc hh he => ?empty, fun s start data hs hb hc hh => ?noBytes,
    fun s q x hs hb hc hh he => ?refused⟩
  case first =>
    rw [step_sequence hb hc hh, beginSequence_cons he]
    rfl
  case failed =>
    refine ⟨_, _, (step_return hb hc).trans (hostReturn_failed c hok), rfl, ?_⟩
    exact ⟨rfl, rfl, rfl, rfl, rfl, hb, rfl, rfl, rfl, hok, rfl, rfl⟩
  case next => rw [step_return hb hc, hostReturn_next hok htodo]
  case last => rw [step_return hb hc, hostReturn_last hok htodo]
  case empty =>
    rw [step_sequence hb hc hh, beginSequence_nil (s := setHost hs s) he hc]
    rfl
  case noBytes =>
    have he : expand (.writeEEPROMRange start data 0) = .ok [] :=
      rangeWriteExpands.1 start data 0 (Nat.zero_le _) (.inl rfl)
    rw [step_sequence hb hc hh, beginSequence_nil (s := setHost hs s) he hc]
    rfl
  case refused => rw [step_sequence hb hc hh, beginSequence_error he]

/-! ### What a call hands over -/

theorem collect_payload {c : Call} (h : c.out = .payload) (s : State) : collect c s = (dataList s.data).take s.lat.pcnt := by
  rw [collect, h]

/-- Settles O53: one clause for each buffer a call may fill, and the whole of `DATA` where four bytes were read. -/
theorem callsCollectTheirBytes : Obligations.CallsCollectTheirBytes := by
  refine ⟨fun c s h => ?userData, fun c s h => collect_payload h s, fun c s h h4 => ?four, fun c s h => ?identifier,
    fun c s h => ?nothing⟩
  case userData => rw [collect, h, dataList]
  case four => rw [collect_payload h, h4, dataList, List.take_of_length_le (Nat.le_refl 4)]
  case identifier => rw [collect, h]
  case nothing => rw [collect, h]

end Sys2Proof.Machine
end

section
/-! Safety (R52, R85, R131): from a state that meets the invariant no step faults, pops an empty queue or starts an operation
while another runs. -/

namespace Sys2Proof.Machine

/-- A part of a step ends in a next state, or is refused neither for a pop of an empty queue nor for a start while busy. -/
def Permitted : Result → Prop
  | .next _ => True
  | .fault _ => False
  | .refused x => x ≠ .rxEmpty ∧ x ≠ .startWhileBusy

theorem permitted_andThen {r : Result} {k : State → Result} (hr : Permitted r) (hk : ∀ u, r = .next u → Permitted (k u)) :
    Permitted (andThen r k) := by
  cases r with
  | next u => exact hk u rfl
  | fault x => exact hr
  | refused x => exact hr

/-! ### The rows -/

section
variable {s : State}

theorem exists_frameGet_of_lt (x : FrameRegs) {k : Nat} (h : k < 6) : ∃ b, frameGet x k = some b := by
  rw [frameGet_eq_getElem?]
  exact ⟨_, List.getElem?_eq_getElem h⟩

/-- An admitted operation with a payload of fixed length has an acknowledgment (R87). -/
theorem InProgress.ae_of_fixed (h : InProgress s) (hw : s.lat.waitOnly = false) (hpm : s.lat.pm = .fixed) :
    s.lat.ae = true := by
  obtain ⟨-, -, hshape⟩ := (latchedAdmitted_iff hw).1 h.admitted
  rw [hpm] at hshape
  simp only [shapeAdmitted_iff, reduceCtorEq, false_and, and_false, false_or, or_false] at hshape
  obtain ⟨-, hae, -⟩ := hshape
  exact hae

/-- An admitted operation with an acknowledgment has no drain (R87). -/
theorem InProgress.pm_ne_drain_of_ae (h : InProgress s) (hw : s.lat.waitOnly = false) (hae : s.lat.ae = true) :
    s.lat.pm ≠ .drain := by
  intro hpm
  obtain ⟨-, -, hshape⟩ := (latchedAdmitted_iff hw).1 h.admitted
  simp [hpm, hae, shapeAdmitted_iff] at hshape

/-- Once the frame is sent an admitted operation has a phase to go to (R85 row TX). -/
theorem permitted_afterFrame (hfixed : s.lat.pm = .fixed → s.lat.ae = true) : Permitted (afterFrame s) := by
  rw [afterFrame]
  cases hae : s.lat.ae with
  | true => trivial
  | false =>
    cases hpm : s.lat.pm with
    | none | drain => trivial
    | fixed => exact absurd (hae.symm.trans (hfixed hpm)) Bool.false_ne_true

theorem InProgress.permitted_rowTX (h : InProgress s) (hp : s.phase = .tx) : Permitted (rowTX s) := by
  obtain ⟨hw, hlt⟩ : s.lat.waitOnly = false ∧ s.txi < s.lat.len := h.positionAt hp
  have hlen := lengthAdmitted_iff.1 ((latchedAdmitted_iff hw).1 h.admitted).1
  obtain ⟨b, hx⟩ := exists_frameGet_of_lt s.lat.x (k := s.txi) (by omega)
  rcases Nat.lt_or_eq_of_le hlt with hmore | hlast
  · rw [rowTX_more hx hmore]
    trivial
  · rw [rowTX_last hx hlast]
    exact permitted_afterFrame (s := sentByte b s) (h.ae_of_fixed hw)

theorem permitted_rowRA (hq : s.rx ≠ []) : Permitted (rowRA s) := by
  obtain ⟨r, q, hq⟩ := List.exists_cons_of_ne_nil hq
  rw [rowRA_cons hq]
  trivial

theorem permitted_rowCK (hpm : s.lat.pm ≠ .drain) : Permitted (rowCK s) := by
  cases hm : s.lat.pm with
  | none => rw [rowCK_none hm]; trivial
  | fixed => rw [rowCK_fixed hm]; trivial
  | drain => exact absurd hm hpm

theorem permitted_rowRP (hq : s.rx ≠ []) (hlt : s.rxi < 4) : Permitted (rowRP s) := by
  obtain ⟨r, q, hq⟩ := List.exists_cons_of_ne_nil hq
  obtain ⟨d, hd⟩ := dataSet_of_lt s.data r hlt
  rw [rowRP_cons hq hd]
  trivial

/-- A drained byte beyond the buffer is refused by a name of its own (R83, D8). -/
theorem permitted_rowRD (hq : s.rx ≠ []) : Permitted (rowRD s) := by
  obtain ⟨r, q, hq⟩ := List.exists_cons_of_ne_nil hq
  rcases Nat.lt_or_ge s.idBuf.length s.cfg.identCap with hc | hc
  · rw [rowRD_cons hq hc]
    trivial
  · rw [rowRD_full hq hc]
    exact ⟨nofun, nofun⟩

/-- The position of a running operation holds what its row needs (R85, R131). -/
theorem InProgress.permitted_row (h : InProgress s) : Permitted (row s) := by
  cases hp : s.phase with
  | idle => exact (h.positionAt hp).elim
  | wl => rw [row_wl hp]; trivial
  | tx => rw [row_tx hp]; exact h.permitted_rowTX hp
  | wa => rw [row_wa hp]; trivial
  | sa => rw [row_sa hp]; trivial
  | ra =>
    obtain ⟨-, -, hq⟩ := h.positionAt hp
    rw [row_ra hp]
    exact permitted_rowRA hq
  | ck =>
    obtain ⟨hw, hae⟩ := h.positionAt hp
    rw [row_ck hp]
    exact permitted_rowCK (h.pm_ne_drain_of_ae hw hae)
  | wp => rw [row_wp hp]; trivial
  | sp => rw [row_sp hp]; trivial
  | rp =>
    obtain ⟨hw, -, hlt, hq⟩ := h.positionAt hp
    rw [row_rp hp]
    exact permitted_rowRP hq (Nat.lt_of_lt_of_le hlt (h.pcnt_le hw))
  | wd => rw [row_wd hp]; trivial
  | dc => rw [row_dc hp]; trivial
  | sd => rw [row_sd hp]; trivial
  | rd =>
    obtain ⟨-, -, hq⟩ := h.positionAt hp
    rw [row_rd hp]
    exact permitted_rowRD hq

/-! ### The runs -/

theorem Invariant.permitted_drive {ms : List EnvMove} (h : Invariant s) : Permitted (Machine.drive ms s) := by
  induction ms generalizing s with
  | nil => trivial
  | cons m ms ih =>
    cases hb : s.busy with
    | true =>
      have hm : InProgress (applyMove m (setEnv ms s)) := Invariant.inProgress ({ h with : Invariant (setEnv ms s) }.moved m) hb
      rw [drive_busy m ms hb]
      exact permitted_andThen hm.permitted_row fun u hu => ih (hm.rowStep (row_step hu))
    | false => rw [drive_idle _ hb]; trivial

theorem Invariant.permitted_driveListed (h : Invariant s) : Permitted (Machine.driveListed s) := h.permitted_drive

theorem Invariant.permitted_resume (h : Invariant s) (hb : s.busy = true) : Permitted (Machine.resume s) := by
  have hb' : (Machine.envTurn s).busy = true := by
    obtain ⟨m, e, d, hm⟩ := envTurn_cases s
    rw [hm]
    exact hb
  have hm := h.envTurn.inProgress hb'
  exact permitted_andThen hm.permitted_row fun u hu => (hm.rowStep (row_step hu)).permitted_driveListed

/-! ### The starts of an idle machine -/

/-- Operand registers are refused for what they hold (R87). -/
theorem admittedMode_eq_error {r : OperandRegs} {e : Refusal} (h : admittedMode r = .error e) :
    e = .frameLength ∨ e = .payloadCount ∨ e = .payloadMode ∨ e = .descriptorShape := by
  rw [admittedMode] at h
  split at h
  · cases h; simp
  · split at h
    · cases h; simp
    · split at h
      · cases h; simp
      · split at h <;> cases h
        simp

theorem Stored.permitted_runOperation (h : Stored s) (hb : s.busy = false) : Permitted (Machine.runOperation s) := by
  refine permitted_andThen ?_ fun u hu => (h.startOperation hu).invariant.permitted_driveListed
  cases hm : admittedMode s.opnd with
  | ok pm => rw [startOperation_ok hb hm]; trivial
  | error e =>
    rw [startOperation_error hb hm]
    rcases admittedMode_eq_error hm with rfl | rfl | rfl | rfl <;> exact ⟨nofun, nofun⟩

theorem Stored.permitted_issue (h : Stored s) (hb : s.busy = false) (d : Descriptor) : Permitted (Machine.issue d s) :=
  Stored.permitted_runOperation { h with : Stored (writeOperands (loadDescriptor s.opnd d) s) } hb

theorem Stored.permitted_exec (h : Stored s) (hb : s.busy = false) (i : Instr) : Permitted (Machine.exec i s) := by
  cases i <;> exact h.permitted_issue hb _

theorem Stored.permitted_runWait (h : Stored s) (hb : s.busy = false) (k : WaitKind) (T : Millis) :
    Permitted (Machine.runWait k T s) := by
  have hw : InProgress (waitStarted k T s) := { h with
    busy := rfl
    admitted := rfl
    position := by cases k <;> exact ⟨.inl rfl, elapsedRight_zero _⟩ }
  rw [runWait_eq k T hb]
  exact hw.invariant.permitted_driveListed

/-! ### The host's turns -/

/-- A sequence is refused for its operands (R39, R98, R145). -/
theorem expand_eq_error {q : Sequence} {e : Refusal} (h : expand q = .error e) :
    e = .operandLength ∨ e = .slotPastEnd ∨ e = .rangePastEnd := by
  rw [expand] at h
  split at h
  · cases h; simp
  · split at h <;> cases h
    cases q <;> simp [rangeRefusal]

theorem Invariant.permitted_beginSequence (h : Invariant s) (hb : s.busy = false) (q : Sequence) :
    Permitted (Machine.beginSequence q s) := by
  cases he : expand q with
  | error e =>
    rw [beginSequence_error he]
    rcases expand_eq_error he with rfl | rfl | rfl <;> exact ⟨nofun, nofun⟩
  | ok is =>
    cases is with
    | nil => rw [Machine.beginSequence, he]; trivial
    | cons i is => rw [beginSequence_cons he]; exact (h.called _).permitted_exec (by simpa using hb) i

theorem Invariant.permitted_hostReturn (h : Invariant s) (hb : s.busy = false) (c : Call) :
    Permitted (Machine.hostReturn c s) := by
  cases hok : s.ok with
  | false => rw [hostReturn_failed c hok]; trivial
  | true =>
    cases htodo : c.todo with
    | nil => rw [hostReturn_last hok htodo]; trivial
    | cons i is => rw [hostReturn_next hok htodo]; exact (h.called _).permitted_exec (by simpa using hb) i

theorem Invariant.permitted_hostIssue (h : Invariant s) (hb : s.busy = false) (op : HostOp) :
    Permitted (Machine.hostIssue op s) := by
  cases op with
  | wire frame =>
    rw [Machine.hostIssue]
    split
    · exact (h.called _).permitted_exec (by simpa using hb) _
    · exact ⟨nofun, nofun⟩
  | sendCommand bytes mask =>
    rw [Machine.hostIssue]
    split_ifs
    · exact (h.called _).permitted_issue (by simpa using hb) _
    · exact ⟨nofun, nofun⟩
  | sendByte b => exact (h.called _).permitted_issue (by simpa using hb) _
  | start => exact (h.called _).permitted_runOperation (by simpa using hb)
  | wait kind timeout => exact (h.called _).permitted_runWait (by simpa using hb) kind timeout
  | load | setTimeouts | getAck | readData | readIdent | reset => trivial
  | beginFramer enableUID =>
    cases enableUID with
    | true => exact Invariant.permitted_beginSequence (s := setInit s) { h with } hb .enableUIDQuery
    | false => trivial
  | sequence q => exact h.permitted_beginSequence hb q

theorem Invariant.permitted_hostTurn (h : Invariant s) (hb : s.busy = false) : Permitted (Machine.hostTurn s) := by
  rw [Machine.hostTurn]
  cases s.call with
  | some c => exact h.permitted_hostReturn hb c
  | none =>
    cases s.host with
    | nil => trivial
    | cons op rest => exact Invariant.permitted_hostIssue (s := setHost rest s) { h with } hb op

theorem Invariant.permitted_step (h : Invariant s) : Permitted (Machine.step s) := by
  rw [Machine.step]
  split_ifs with hb
  · exact h.permitted_resume hb
  · exact h.permitted_hostTurn (by simpa using hb)

end

/-- Settles O10: a busy machine is where its row can be taken, and an idle one starts operations only while it is idle. -/
theorem noStepFaultsOrPopsAnEmptyQueue : Obligations.NoStepFaultsOrPopsAnEmptyQueue := by
  intro s h
  have hstep := h.permitted_step
  refine ⟨fun f hf => ?_, fun hr => ?_, fun hr => ?_⟩
  · rwa [hf] at hstep
  · rw [hr] at hstep
    exact hstep.1 rfl
  · rw [hr] at hstep
    exact hstep.2 rfl

end Sys2Proof.Machine
end

section
/-! An idle framer with nothing to do (R129, R150). -/

namespace Sys2Proof.Machine

/-- Where no move is listed the environment makes the free one. -/
theorem envTurn_free {s : State} (h : s.env = []) : envTurn s = applyMove (Config.envMove s.draws) (draw 1 s) := by
  simp [envTurn, nextMove, h]

/-- Settles O50: the host's turn is a turn of the environment, whose move is the first one listed or the free one. -/
theorem idleFramerDoesNothing : Obligations.IdleFramerDoesNothing := by
  intro s hb hc hh
  have hstep : step s = .next (envTurn s) := by rw [step, if_neg (by simp [hb]), hostTurn, hc, hh]
  refine ⟨hstep, fun m ms he => ?_, fun he => ?_⟩
  · rw [hstep, envTurn_listed he]
    rfl
  · rw [hstep, envTurn_free he]
    rfl

end Sys2Proof.Machine
end

section
/-! Failures of a wait for data (R113, R115): an empty queue at every poll, for the acknowledgment, before a drain, and for a
payload byte. -/

namespace Sys2Proof.Machine

/-- An operation latched in `u` has sent its whole frame `bytes`, and nothing else of it is done; `queue` is what is in the queue
(R76). -/
structure FrameSent (bytes queue : List Byte) (u v : State) : Prop where
  busy    : v.busy = true
  lat     : v.lat = u.lat
  cfg     : v.cfg = u.cfg
  tx      : v.tx = u.tx ++ bytes
  rx      : v.rx = queue
  removed : v.removed = u.removed
  lastAck : v.lastAck = u.lastAck
  log     : v.log = u.log
  data    : v.data = u.data
  idBuf   : v.idBuf = u.idBuf

/-- An operation whose line is found LOW in time sends its whole frame (R75, R76). -/
theorem Latches.drive_frameSent {bytes : List Byte} {u : State} {lm tm : List EnvMove} (h : Latches bytes u)
    (rest : List EnvMove) (hl : Listens u.lat.tmoListen lm) (ht : tm.length = bytes.length) :
    ∃ v, drive (lm ++ tm ++ rest) (toWait .wl u) = andThen (afterFrame v) (drive rest) ∧
      FrameSent bytes (u.rx ++ arrived (lm ++ tm)) u v := by
  obtain ⟨n, hrun⟩ := drive_frame bytes rest h.busy h.init h.waitOnly h.len h.nonempty h.frame hl ht
  refine ⟨_, hrun, ?_⟩
  constructor <;> simp [transmitted, h.busy]

/-- An operation at a wait for data that stood in `u` has failed with `c`: nothing is taken, and the time-out is logged. -/
structure NoData (c : FailCause) (rest : List EnvMove) (u t : State) : Prop where
  failed  : FailEnd u t c [] [.data] rest
  rx      : t.rx = []
  removed : t.removed = u.removed
  lastAck : t.lastAck = u.lastAck
  data    : t.data = u.data
  idBuf   : t.idBuf = u.idBuf

theorem length_dataSamples (rx : List Byte) (ms : List EnvMove) : (dataSamples rx ms).length = ms.length := by
  induction ms generalizing rx with
  | nil => rfl
  | cons m ms ih => exact congrArg (· + 1) (ih _)

/-- A wait for data whose every poll finds the queue empty fails (R67, R70). -/
theorem AtWait.drive_noData {u : State} {T : Millis} {f : State → State} {c : FailCause} {ms : List EnvMove}
    (hw : AtWait rxAvail T .data f (fail c) u) (rest : List EnvMove) (he : u.elapsed = 0) (hT : T ≠ 0)
    (hl : ms.length = failingPolls T.toNat) (hrx : u.rx = []) (harr : arrived ms = []) :
    ∃ t, drive (ms ++ rest) u = .next t ∧ NoData c rest u t := by
  obtain ⟨n, hn⟩ := waitFor_zero_false_timedOut hT ((length_dataSamples [] ms).trans hl) (not_mem_dataSamples harr)
  have hrun := (drive_polls steady_rxAvail hw ms rest).2.1 n (by rw [pollSamples_rxAvail, he, hrx]; exact hn)
  refine ⟨_, hrun.trans (drive_idle rest rfl), ?_⟩
  constructor <;> simp [FailEnd, hrx, harr]

/-- A failure at a wait is a failure of the operation, whose bytes were sent before and which had logged nothing. -/
theorem NoData.failEnd {c : FailCause} {rest : List EnvMove} {bytes : List Byte} {u v t : State} (h : NoData c rest v t)
    (htx : v.tx = u.tx ++ bytes) (hlog : v.log = u.log) : FailEnd u t c bytes [.data] rest := by
  obtain ⟨hb, hp, hok, hv, hc, ht, hl, he⟩ := h.failed
  exact ⟨hb, hp, hok, hv, hc, by rw [ht, List.append_nil, htx], hlog ▸ hl, he⟩

/-! ### The acknowledgment and the drain -/

/-- Settles O29: the frame is sent, and the command is at its wait for the acknowledgment, whose every poll fails. -/
theorem noResponseFailsAfterTheFrame : Obligations.NoResponseFailsAfterTheFrame := by
  intro i s lm tm ms rest hne hready hT he hl htm hms hrx harr
  obtain ⟨hb, hi⟩ := hready
  obtain ⟨hae, -⟩ := ae_and_mask_of_ne_ident hne
  rw [arrived_append, List.append_eq_nil_iff] at harr
  obtain ⟨hbefore, harr⟩ := harr
  obtain ⟨v, hframe, hv⟩ := (latches_started i hi).drive_frameSent (tm := tm) (ms ++ rest) (started_tmoListen i s ▸ hl) htm
  have hvrx : v.rx = [] := hv.rx.trans (List.append_eq_nil_iff.2 ⟨hrx, hbefore⟩)
  have hwait := atWait_wa (s := toWait .wa v) hv.busy rfl
  rw [toWait_lat, hv.lat, started_waitOnly, started_tmoData] at hwait
  obtain ⟨t, hrun, ht⟩ := hwait.drive_noData rest rfl hT hms hvrx harr
  rw [afterFrame_ack (by rw [hv.lat, started_ae, hae]), andThen_next, hrun] at hframe
  have hid : (started i s).idBuf = s.idBuf := if_neg (pm_ne_drain_of_ne_ident hne)
  rw [List.append_assoc] at he
  exact ⟨t, (exec_eq i hb).trans (he ▸ hframe), ht.failEnd hv.tx hv.log, ht.rx, ht.removed.trans hv.removed,
    ht.lastAck.trans hv.lastAck, ht.data.trans hv.data, (ht.idBuf.trans hv.idBuf).trans hid⟩

/-- Settles O30: the byte is sent, and IDENT is at its wait before the drain, whose every poll fails. -/
theorem identWithoutResponseFails : Obligations.IdentWithoutResponseFails := by
  intro s lm ms rest m hready hT hcfg he hl hms hrx harr
  obtain ⟨hb, hi⟩ := hready
  rw [arrived_append, List.append_eq_nil_iff] at harr
  obtain ⟨hbefore, harr⟩ := harr
  obtain ⟨v, hframe, hv⟩ := (latches_started .ident hi).drive_frameSent (tm := [m]) (ms ++ rest) hl rfl
  have hvrx : v.rx = [] := hv.rx.trans (List.append_eq_nil_iff.2 ⟨hrx, hbefore⟩)
  have hwait := atWait_wd (s := toWait .wd v) hv.busy rfl
  rw [toWait_lat, hv.lat, started_tmoData] at hwait
  obtain ⟨t, hrun, ht⟩ := hwait.drive_noData rest rfl hT hms hvrx harr
  rw [afterFrame_wait (by rw [hv.lat]; rfl) (by rw [hv.lat]; rfl) (by rw [hv.cfg]; exact hcfg), andThen_next, hrun] at hframe
  rw [List.append_assoc] at he
  exact ⟨t, (exec_eq .ident hb).trans (he ▸ hframe), ht.failEnd hv.tx hv.log, ht.rx, ht.removed.trans hv.removed,
    ht.lastAck.trans hv.lastAck, ht.idBuf.trans hv.idBuf⟩

/-! ### The payload -/

/-- A payload read that stood in `u` has come to the wait for one more byte, having taken the bytes `ps` (R82). -/
structure AtPayloadWait (ps : List Byte) (u v : State) : Prop where
  busy    : v.busy = true
  phase   : v.phase = .wp
  elapsed : v.elapsed = 0
  lat     : v.lat = u.lat
  tx      : v.tx = u.tx
  lastAck : v.lastAck = u.lastAck
  log     : v.log = u.log
  removed : v.removed = u.removed ++ ps

/-- A payload read that has fewer bytes in time than it is to read comes to the wait for the next one (R82, D6). -/
theorem drive_payloadPart {bs : List ByteMoves} (rest : List EnvMove) {u : State} (hb : u.busy = true) (hp : u.phase = .wp)
    (he : u.elapsed = 0) (hpc : u.lat.pcnt ≤ 4) (hbs : u.rxi + bs.length < u.lat.pcnt)
    (ha : PayloadArrives u.lat.tmoData u.rx bs) :
    ∃ ps v, drive (bs.flatMap ByteMoves.moves ++ rest) u = drive rest v ∧ ps.length = bs.length ∧
      u.rx ++ arrived (bs.flatMap ByteMoves.moves) = ps ++ v.rx ∧ AtPayloadWait ps u v := by
  induction bs generalizing u with
  | nil => exact ⟨[], u, rfl, rfl, List.append_nil _, hb, hp, he, rfl, rfl, rfl, rfl, (List.append_nil _).symm⟩
  | cons b bs ih =>
    obtain ⟨hans, ha⟩ := ha
    rw [List.length_cons] at hbs
    have hnil : u.rx ++ arrived b.moves ≠ [] := by
      rw [ByteMoves.moves, arrived_append, ← List.append_assoc]
      exact List.append_ne_nil_of_left_ne_nil (answers_ne_nil hans) _
    obtain ⟨r, q, hq⟩ := List.exists_cons_of_ne_nil hnil
    obtain ⟨d, hd⟩ := dataSet_of_lt u.data (b := u.rxi) r (by omega)
    obtain ⟨n, hrun⟩ := drive_payload_byte b (bs.flatMap ByteMoves.moves ++ rest) hb hp he hans hq hd
    rw [hq, List.tail_cons] at ha
    rw [List.flatMap_cons, List.append_assoc, hrun, if_pos (by omega), arrived_append, ← List.append_assoc, hq]
    obtain ⟨ps, v, hrun', hps, hrx, hv⟩ :=
      ih (u := toWait .wp (payloadRead d r q n (bs.flatMap ByteMoves.moves ++ rest) (afterMoves b.moves u)))
        (by simpa [payloadRead] using hb) rfl rfl (by simpa [payloadRead] using hpc) (by simp [payloadRead]; omega)
        (by simpa [payloadRead] using ha)
    refine ⟨r :: ps, v, hrun', congrArg (· + 1) hps, congrArg (r :: ·) hrx, hv.busy, hv.phase, hv.elapsed,
      ?_, ?_, ?_, ?_, ?_⟩
    · simpa [payloadRead] using hv.lat
    · simpa [payloadRead] using hv.tx
    · simpa [payloadRead] using hv.lastAck
    · simpa [payloadRead] using hv.log
    · simpa [payloadRead] using hv.removed

/-- Settles O32: the acknowledgment is accepted, and after the bytes in time the command is at a payload wait whose every poll
fails. -/
theorem missingPayloadByteFails : Obligations.MissingPayloadByteFails := by
  intro i r q bs s lm tm dm em ms rest hpm hready hT he hl ht ha hem hq hr hbs hpay hlen hms harr
  obtain ⟨hb, hi⟩ := hready
  obtain ⟨hae, hm⟩ := ae_and_mask_of_fixed hpm
  obtain ⟨v, hrun, hv⟩ := (latches_started i hi).drive_atComparison (bs.flatMap ByteMoves.moves ++ (ms ++ rest))
    ((started_ae i s).trans hae) (ackMoves_started hl ht ha hem) hq
  have hck : rowCK v = .next (toPayload v) :=
    rowCK_payload (ackAccepted_iff.2 (by rw [hv.lastAck, hv.lat, started_mask_eq hm]; exact hr))
      (by rw [hv.lat, started_pm, hpm])
  have hpcnt : v.lat.pcnt = 4 := by rw [hv.lat, started_pcnt_fixed hpm]
  have htmo : v.lat.tmoData = s.tmoData := by rw [hv.lat, started_tmoData]
  obtain ⟨ps, w, hpart, hps, hrx, hw⟩ := drive_payloadPart (bs := bs) (u := toPayload v) (ms ++ rest) hv.busy rfl rfl
    (by simp [hpcnt]) (by simpa [hpcnt] using hbs) (by simpa [htmo, hv.rx] using hpay)
  rw [toPayload_rx, hv.rx] at hrx
  have hwrx : w.rx = [] := by
    rw [hrx, List.length_append, hps] at hlen
    exact List.length_eq_zero_iff.1 (by omega)
  rw [hwrx, List.append_nil] at hrx
  have hwait := atWait_wp hw.busy hw.phase
  rw [hw.lat, toPayload_lat, htmo] at hwait
  obtain ⟨t, hend, hfail⟩ := hwait.drive_noData rest hw.elapsed hT hms hwrx harr
  refine ⟨t, ?_, hfail.failEnd (hw.tx.trans hv.tx) (hw.log.trans hv.log), ?_, hfail.rx, ?_⟩
  · rw [exec_eq i hb, he, List.append_assoc, List.append_assoc]
    exact hrun.trans (by rw [hck, andThen_next, hpart, hend])
  · rw [hfail.lastAck, hw.lastAck, toPayload_lastAck, hv.lastAck]
  · rw [hfail.removed, hw.removed, toPayload_removed, hv.removed, hrx, List.append_assoc]
    rfl

end Sys2Proof.Machine
end

section
/-! What a failure records (R117): the rows of the table are read off the procedures of R65, R74, R82 and R83, with which the
sequencer agrees (R85). -/

namespace Sys2Proof.Machine

/-! ### What is recorded -/

/-- What the table of R117 speaks of: the bytes sent and removed, `LAST_ACK` and the log; and the two output buffers. -/
structure Record where
  tx      : List Byte
  removed : List Byte
  lastAck : Byte
  log     : List WaitKind
  data    : DataRegs
  idBuf   : List Byte

/-- What a state records. -/
def recordOf (s : State) : Record :=
  { tx := s.tx, removed := s.removed, lastAck := s.lastAck, log := s.log, data := s.data, idBuf := s.idBuf }

/-- `bytes` have been sent (R76). -/
def Record.sent (bytes : List Byte) (a : Record) : Record := { a with tx := a.tx ++ bytes }

/-- A time-out has been logged (R68). -/
def Record.logged (kind : WaitKind) (a : Record) : Record := { a with log := a.log ++ [kind] }

/-- The bytes `ps` have been removed (R10). -/
def Record.took (ps : List Byte) (a : Record) : Record := { a with removed := a.removed ++ ps }

/-- `r` has been stored in `LAST_ACK` (R79). -/
def Record.acked (r : Byte) (a : Record) : Record := { a with lastAck := r }

/-- The payload registers are `d` now (R82). -/
def Record.stored (d : DataRegs) (a : Record) : Record := { a with data := d }

/-- `bytes` have been removed and appended to `IDBUF` (R83). -/
def Record.drained (bytes : List Byte) (a : Record) : Record :=
  { a with removed := a.removed ++ bytes, idBuf := a.idBuf ++ bytes }

theorem Record.sent_nil (a : Record) : a.sent [] = a := by simp [sent]
theorem Record.sent_sent (xs ys : List Byte) (a : Record) : (a.sent xs).sent ys = a.sent (xs ++ ys) := by simp [sent]
theorem Record.took_nil (a : Record) : a.took [] = a := by simp [took]
theorem Record.took_took (xs ys : List Byte) (a : Record) : (a.took xs).took ys = a.took (xs ++ ys) := by simp [took]
theorem Record.drained_nil (a : Record) : a.drained [] = a := by simp [drained]
theorem Record.drained_drained (xs ys : List Byte) (a : Record) : (a.drained xs).drained ys = a.drained (xs ++ ys) := by
  simp [drained]

/-! ### What holds where a procedure ends -/

/-- What holds of the state a procedure leaves: `Q` where it returns, `F` of the cause where it fails. -/
def Ended.Leaves (Q : State → Prop) (F : FailCause → State → Prop) : Ended → Prop
  | .returned t => Q t
  | .failed c t => F c t
  | .unfinished | .stopped _ => True

section
variable {Q : State → Prop} {F : FailCause → State → Prop} {s : State}

theorem Ended.Leaves.imp {P : State → Prop} {x : Ended} (hx : x.Leaves P F) (h : ∀ t, P t → Q t) : x.Leaves Q F := by
  cases x with
  | returned t => exact h t hx
  | failed c t => exact hx
  | unfinished | stopped => trivial

theorem leaves_procThen {P : State → Prop} {x : Ended} {k : State → Ended} (hx : x.Leaves P F)
    (hk : ∀ t, P t → (k t).Leaves Q F) : (procThen x k).Leaves Q F := by
  cases x with
  | returned t => exact hk t hx
  | failed c t => exact hx
  | unfinished | stopped => trivial

/-- A turn of the environment takes a listed move and changes nothing that is recorded. -/
theorem leaves_procTurn {k : State → Ended}
    (hk : ∀ t, recordOf t = recordOf s → t.env.length < s.env.length → (k t).Leaves Q F) : (procTurn k s).Leaves Q F := by
  cases he : s.env with
  | nil => rw [procTurn, he]; trivial
  | cons m ms =>
    rw [procTurn, he]
    exact hk _ rfl (by simp [he])

/-- A sample of a predicate changes nothing that is recorded. -/
theorem recordOf_procSample (kind : WaitKind) (s : State) : recordOf (procSample kind s).2 = recordOf s := by
  cases kind with
  | listen =>
    obtain ⟨n, hn⟩ := readyLevel_snd s
    rw [procSample, hn]
    rfl
  | data => rfl

/-- A wait records nothing but its time-out (R65, R68). -/
theorem leaves_procWait {kind : WaitKind} {T e : Millis} {c : FailCause} {ms : List EnvMove}
    (hF : ∀ t, recordOf t = (recordOf s).logged kind → F c t) :
    (procWait kind T c ms e s).Leaves (fun t => recordOf t = recordOf s) F := by
  induction ms generalizing e s with
  | nil => trivial
  | cons m ms ih =>
    have hp : recordOf (procSample kind (applyMove m (setEnv ms s))).2 = recordOf s := recordOf_procSample kind _
    rw [procWait, ← hp]
    rw [← hp] at hF
    split_ifs
    · rfl
    · exact hF _ rfl
    · exact ih hF

/-- The frame is sent and nothing else is recorded (R76). -/
theorem leaves_procTransmit (bytes : List Byte) :
    (procTransmit bytes s).Leaves (fun t => recordOf t = (recordOf s).sent bytes) F := by
  induction bytes generalizing s with
  | nil => exact (Record.sent_nil _).symm
  | cons b bs ih =>
    refine leaves_procTurn fun t ht _ => ?_
    have h : (recordOf (txPush b t)).sent bs = (recordOf s).sent (b :: bs) := by
      rw [← ht, ← List.singleton_append, ← Record.sent_sent]
      rfl
    exact h ▸ ih (s := txPush b t)

/-- The byte that is read is removed, and nothing else is recorded (R10, R78). -/
theorem leaves_procRead {k : Byte → State → Ended}
    (hk : ∀ r t, recordOf t = (recordOf s).took [r] → t.env.length < s.env.length → (k r t).Leaves Q F) :
    (procRead k s).Leaves Q F := by
  refine leaves_procTurn fun t ht hlt => leaves_procTurn fun u hu hlt' => ?_
  cases hq : u.rx with
  | nil => rw [rxPop_nil hq]; trivial
  | cons r q =>
    rw [rxPop_cons hq]
    refine hk r _ ?_ (hlt'.trans hlt)
    rw [← ht, ← hu]
    rfl

/-- SENDCMD: its two waits may fail, and after the read of the acknowledgment the mask decides (R74). -/
theorem leaves_procSendCommand {frame : List Byte} {mask : Byte}
    (hlisten : ∀ t, recordOf t = (recordOf s).logged .listen → F .notListening t)
    (hdata : ∀ t, recordOf t = ((recordOf s).sent frame).logged .data → F .noResponse t)
    (hmismatch : ∀ r t, ackAccepted r mask = false → recordOf t = (((recordOf s).sent frame).took [r]).acked r →
      F .ackMismatch t) :
    (procSendCommand frame mask s).Leaves
      (fun t => ∃ r, ackAccepted r mask = true ∧ recordOf t = (((recordOf s).sent frame).took [r]).acked r) F := by
  refine leaves_procThen (leaves_procWait hlisten) fun s1 h1 => leaves_procThen (leaves_procTransmit frame) fun s2 h2 => ?_
  rw [h1] at h2
  rw [← h2] at hdata hmismatch ⊢
  refine leaves_procThen (leaves_procWait hdata) fun s3 h3 => leaves_procRead fun r s4 h4 _ => leaves_procTurn fun s5 h5 _ => ?_
  rw [h3] at h4
  have hr : recordOf s5 = ((recordOf s2).took [r]).acked r := by
    rw [h5, ← h4]
    rfl
  have hack : s5.lastAck = r := congrArg Record.lastAck hr
  rw [hack]
  split_ifs with hm
  · exact ⟨r, hm, hr⟩
  · exact hmismatch r s5 (by simpa using hm) hr

/-- READBYTES of the last `n` bytes: each goes to its register, and the wait of each may fail (R82, D6). -/
theorem leaves_procReadBytes {n j : Nat} (hn : j + n = 4)
    (hF : ∀ t d ps, ps.length < n → recordOf t = (((recordOf s).took ps).stored d).logged .data → F .payloadTimeout t) :
    (procReadBytes n j s).Leaves (fun t => ∃ d ps, ps.length = n ∧ dataList d = (dataList s.data).take j ++ ps ∧
      recordOf t = ((recordOf s).took ps).stored d) F := by
  induction n generalizing j s with
  | zero =>
    refine ⟨s.data, [], rfl, ?_, by rw [Record.took_nil]; rfl⟩
    rw [List.append_nil, List.take_of_length_le (by simp [dataList]; omega)]
  | succ n ih =>
    refine leaves_procThen (leaves_procWait fun t ht => hF t s.data [] (Nat.succ_pos n) ?_) fun t ht =>
      leaves_procRead fun r u hu _ => ?_
    · rw [ht, Record.took_nil]
      rfl
    · rw [ht] at hu
      have hdata : u.data = s.data := congrArg Record.data hu
      cases hd : dataSet u.data j r with
      | none => trivial
      | some d =>
        have hmore : ∀ ps d',
            ((recordOf { u with data := d }).took ps).stored d' = ((recordOf s).took (r :: ps)).stored d' := by
          intro ps d'
          rw [← List.singleton_append, ← Record.took_took, ← hu]
          rfl
        obtain ⟨htake, -⟩ := dataList_dataSet hd
        refine (ih (by omega) fun t d' ps hps ht =>
          hF t d' (r :: ps) (Nat.succ_lt_succ hps) (hmore ps d' ▸ ht)).imp ?_
        rintro v ⟨d', ps, hps, hlist, hv⟩
        refine ⟨d', r :: ps, congrArg (· + 1) hps, ?_, (hmore ps d').symm ▸ hv⟩
        rw [hlist, htake, hdata, List.append_assoc]
        rfl

/-- The drain takes what it appends to `IDBUF`, and its loop does not fail (R83). -/
theorem leaves_procDrainLoop :
    (procDrainLoop s.env s).Leaves (fun t => ∃ bytes, recordOf t = (recordOf s).drained bytes) F := by
  induction hl : s.env.length using Nat.strong_induction_on generalizing s with
  | _ l ih =>
    rw [procDrainLoop_eq]
    refine leaves_procTurn fun t ht hlt => ?_
    split_ifs
    · refine leaves_procRead fun r u hu hlt' => ?_
      split_ifs
      · refine (ih _ (hl ▸ hlt'.trans hlt) (s := storeIdent r u) rfl).imp fun v ⟨bytes, hv⟩ => ⟨r :: bytes, ?_⟩
        have hr : recordOf (storeIdent r u) = (recordOf s).drained [r] := by
          rw [← ht]
          exact congrArg (fun a : Record => { a with idBuf := a.idBuf ++ [r] }) hu
        rw [hv, hr, Record.drained_drained, List.singleton_append]
      · trivial
    · exact ⟨[], by rw [Record.drained_nil, ht]⟩

/-- DRAIN: its wait, where it has one, may fail (R83, D7). -/
theorem leaves_procDrain (hF : ∀ t, recordOf t = (recordOf s).logged .data → F .noResponse t) :
    (procDrain s).Leaves (fun t => ∃ bytes, recordOf t = (recordOf s).drained bytes) F := by
  rw [procDrain]
  split_ifs
  · refine leaves_procThen (leaves_procWait hF) fun t ht => ?_
    rw [← ht]
    exact leaves_procDrainLoop
  · exact leaves_procDrainLoop

end

/-! ### The table -/

/-- The rows of R117: what a command that began with `a` recorded leaves recorded, with the cause of its failure, or none after
a success. -/
inductive TableRow (i : Instr) (a : Record) : Option FailCause → Record → Prop where
  /-- The line is not LOW in time (R112). -/
  | notListening : TableRow i a (some .notListening) (a.logged .listen)
  /-- The first byte does not come in time (R113). -/
  | noResponse : TableRow i a (some .noResponse) ((a.sent (encode i)).logged .data)
  /-- The acknowledgment does not pass the mask (R114). -/
  | ackMismatch (r : Byte) (hi : i ≠ .ident) (hr : ackAccepted r ((descriptorOf i).mask.getD 0) = false) :
      TableRow i a (some .ackMismatch) (((a.sent (encode i)).took [r]).acked r)
  /-- A payload byte does not come in time (R115). -/
  | payloadTimeout (r : Byte) (ps : List Byte) (d : DataRegs) (hpm : (descriptorOf i).pm = .fixed)
      (hr : ackAccepted r ((descriptorOf i).mask.getD 0) = true) (hps : ps.length < 4) :
      TableRow i a (some .payloadTimeout) ((((((a.sent (encode i)).took [r]).acked r).took ps).stored d).logged .data)
  /-- The acknowledgment passes, and no payload is to come. -/
  | acknowledged (r : Byte) (hi : i ≠ .ident) (hpm : (descriptorOf i).pm ≠ .fixed)
      (hr : ackAccepted r ((descriptorOf i).mask.getD 0) = true) :
      TableRow i a none (((a.sent (encode i)).took [r]).acked r)
  /-- The acknowledgment passes, and the payload is read. -/
  | payload (r : Byte) (d : DataRegs) (hpm : (descriptorOf i).pm = .fixed)
      (hr : ackAccepted r ((descriptorOf i).mask.getD 0) = true) :
      TableRow i a none (((((a.sent (encode i)).took [r]).acked r).took (dataList d)).stored d)
  /-- The queue is drained. -/
  | drained (bytes : List Byte) (hi : i = .ident) : TableRow i a none ((a.sent (encode i)).drained bytes)

section
variable {i : Instr} {s : State} {mask : Byte}

/-- A procedure of command `i` ends in a row of the table, having begun with `a` recorded. -/
def EndsInRow (i : Instr) (a : Record) (x : Ended) : Prop :=
  x.Leaves (fun t => TableRow i a none (recordOf t)) fun c t => TableRow i a (some c) (recordOf t)

/-- SENDCMD of a command's frame under the command's mask (R74). -/
theorem leaves_sendCommand_row (hi : i ≠ .ident) (hm : (descriptorOf i).mask = some mask) :
    (procSendCommand (encode i) mask s).Leaves
      (fun t => ∃ r, ackAccepted r ((descriptorOf i).mask.getD 0) = true ∧
        recordOf t = (((recordOf s).sent (encode i)).took [r]).acked r)
      fun c t => TableRow i (recordOf s) (some c) (recordOf t) := by
  have hmask : (descriptorOf i).mask.getD 0 = mask := by rw [hm]; rfl
  rw [hmask]
  exact leaves_procSendCommand (fun t ht => ht ▸ .notListening) (fun t ht => ht ▸ .noResponse)
    fun r t hr ht => ht ▸ .ackMismatch r hi (hmask.symm ▸ hr)

/-- A command with an acknowledgment and nothing more (R90, R91, R94). -/
theorem endsInRow_acknowledged (hi : i ≠ .ident) (hm : (descriptorOf i).mask = some mask)
    (hpm : (descriptorOf i).pm ≠ .fixed) : EndsInRow i (recordOf s) (procSendCommand (encode i) mask s) :=
  (leaves_sendCommand_row hi hm).imp fun _ ⟨r, hr, ht⟩ => ht ▸ .acknowledged r hi hpm hr

/-- A command with an acknowledgment and a payload (R89, R92). -/
theorem endsInRow_payload (hi : i ≠ .ident) (hm : (descriptorOf i).mask = some mask) (hpm : (descriptorOf i).pm = .fixed) :
    EndsInRow i (recordOf s) (procThen (procSendCommand (encode i) mask s) (procReadBytes 4 0)) := by
  refine leaves_procThen (leaves_sendCommand_row hi hm) fun t ⟨r, hr, ht⟩ => ?_
  refine (leaves_procReadBytes rfl fun u d ps hps hu => ?_).imp fun u ⟨d, ps, _, hd, hu⟩ => ?_
  · rw [hu, ht]
    exact .payloadTimeout r ps d hpm hr hps
  · obtain rfl : dataList d = ps := hd
    rw [hu, ht]
    exact .payload r d hpm hr

/-- IDENT, its buffer empty (R93). -/
theorem endsInRow_ident : EndsInRow .ident (recordOf (begun .ident s)) (procedureOf .ident s) := by
  refine leaves_procThen (leaves_procWait fun t ht => ?_) fun s1 h1 =>
    leaves_procThen (leaves_procTransmit (encode .ident)) fun s2 h2 =>
      (leaves_procDrain fun t ht => ?_).imp fun t ⟨bytes, ht⟩ => ?_
  · exact ht ▸ .notListening
  · rw [ht, h2, h1]
    exact .noResponse
  · rw [ht, h2, h1]
    exact .drained bytes rfl

/-- Every procedure ends in a row of the table. -/
theorem endsInRow_procedureOf (i : Instr) (s : State) : EndsInRow i (recordOf (begun i s)) (procedureOf i s) := by
  cases i with
  | rdpage | uid => exact endsInRow_payload (s := s) nofun rfl rfl
  | wrpage | status | progee => exact endsInRow_acknowledged (s := s) nofun rfl nofun
  | ident => exact endsInRow_ident

/-- What is recorded is part of what the two forms are compared by. -/
theorem recordOf_congr {u t : State} (h : compared u = compared t) : recordOf u = recordOf t := by
  simp only [compared, Comparison.mk.injEq] at h
  simp [recordOf, h]

/-- The result of a command: `ok`, and after a failure its cause. -/
def hasResult (t : State) : Option FailCause → Prop
  | none => t.ok = true
  | some c => t.ok = false ∧ t.cause = c

/-- An ended command is a row of the table, and its result is the row's (R117). -/
theorem exec_tableRow {t : State} (h : exec i s = .next t) (ht : t.busy = false) :
    ∃ c, hasResult t c ∧ TableRow i (recordOf (begun i s)) c (recordOf t) := by
  have hrow := endsInRow_procedureOf i s
  have hagree := agrees_exec i (idle_of_exec h)
  rw [h] at hagree
  cases hx : procedureOf i s with
  | returned p =>
    rw [hx] at hrow hagree
    obtain ⟨u, hu, -, -, hok, hcmp, -⟩ := hagree
    obtain rfl := Host.Outcome.next.inj hu
    exact ⟨none, hok, recordOf_congr hcmp ▸ hrow⟩
  | failed c p =>
    rw [hx] at hrow hagree
    obtain ⟨u, hu, -, -, hok, hcause, hcmp, -⟩ := hagree
    obtain rfl := Host.Outcome.next.inj hu
    exact ⟨some c, ⟨hok, hcause⟩, recordOf_congr hcmp ▸ hrow⟩
  | unfinished =>
    rw [hx] at hagree
    obtain ⟨u, hu, hb⟩ := hagree
    obtain rfl := Host.Outcome.next.inj hu
    exact absurd (ht.symm.trans hb) Bool.false_ne_true
  | stopped r =>
    rw [hx] at hagree
    cases hagree

end

/-- Settles O37: the sequencer ends as the procedure does, and each end of a procedure is a row of the table. -/
theorem endedCommandsRecordTheTable : Obligations.EndedCommandsRecordTheTable := by
  intro i s t _ h ht
  obtain ⟨used, popped, henv, hq, hrem⟩ := exec_takesHead h
  refine ⟨used, popped, henv, hq, hrem, ?_⟩
  have hpop : ∀ ps, t.removed = s.removed ++ ps → popped = ps := fun ps hps => List.append_cancel_left (hrem.symm.trans hps)
  have hnone : t.removed = s.removed → popped = [] := fun hps => hpop [] (hps.trans (List.append_nil _).symm)
  have hmore : ∀ r ps, t.removed = s.removed ++ [r] ++ ps → popped = r :: ps :=
    fun r ps hps => hpop (r :: ps) (hps.trans (List.append_assoc _ _ _))
  obtain ⟨c, hresult, hrow⟩ := exec_tableRow h ht
  generalize hb : recordOf t = b at hrow
  have hack := congrArg Record.lastAck hb
  have hlog := congrArg Record.log hb
  have htx := congrArg Record.tx hb
  have hremoved := congrArg Record.removed hb
  by_cases hi : i = .ident
  · rw [if_pos hi]
    subst hi
    cases hrow with
    | notListening => exact .inl ⟨hresult.1, hresult.2, hack, hlog, htx, hnone hremoved⟩
    | noResponse => exact .inr (.inl ⟨hresult.1, hresult.2, hack, hlog, htx, hnone hremoved⟩)
    | drained bytes =>
      have hid : t.idBuf = bytes := congrArg Record.idBuf hb
      exact .inr (.inr ⟨hresult, hack, hlog, htx, hid ▸ hpop bytes hremoved⟩)
    | ackMismatch r hi | acknowledged r hi => exact absurd rfl hi
    | payloadTimeout r ps d hpm | payload r d hpm => cases hpm
  · rw [if_neg hi]
    cases hrow with
    | notListening => exact .inl ⟨hresult.1, hresult.2, hack, hlog, htx, hnone hremoved⟩
    | noResponse => exact .inr (.inl ⟨hresult.1, hresult.2, hack, hlog, htx, hnone hremoved⟩)
    | ackMismatch r _ hr =>
      obtain rfl : t.lastAck = r := hack
      exact .inr (.inr (.inl ⟨hresult.1, hresult.2, hr, hlog, htx, hpop _ hremoved⟩))
    | payloadTimeout r ps d hpm hr hps =>
      obtain rfl : t.lastAck = r := hack
      exact .inr (.inr (.inr (.inl ⟨hresult.1, hresult.2, hr, hpm, hlog, htx, ps, hmore _ ps hremoved, hps⟩)))
    | acknowledged r _ hpm hr =>
      obtain rfl : t.lastAck = r := hack
      exact .inr (.inr (.inr (.inr ⟨hresult, hr, hlog, htx, by rw [if_neg hpm]; exact hpop _ hremoved⟩)))
    | payload r d hpm hr =>
      obtain rfl : t.lastAck = r := hack
      obtain rfl : t.data = d := congrArg Record.data hb
      exact .inr (.inr (.inr (.inr ⟨hresult, hr, hlog, htx, by rw [if_pos hpm]; exact hmore _ _ hremoved⟩)))
    | drained bytes hident => exact absurd hident hi

end Sys2Proof.Machine
end

section
/-! Commands end (R67, R130, R148): with both timeouts non-zero each part of a procedure has a number of listed moves that carry it
to its end, and the sequencer ends where the procedure does (R85). -/

namespace Sys2Proof.Machine

/-- A procedure has come to an end: it has failed, or it has returned in a state with `P`. -/
def Ended.Completes (P : State → Prop) : Ended → Prop
  | .returned t => P t
  | .failed _ _ => True
  | .unfinished | .stopped _ => False

/-- At least `n` moves are listed, and `D` is the data timeout, which no procedure writes. -/
structure HasMoves (D : Millis) (n : Nat) (s : State) : Prop where
  tmoData : s.tmoData = D
  listed  : n ≤ s.env.length

section
variable {P Q : State → Prop} {D T : Millis} {n : Nat} {s : State}

theorem Ended.Completes.imp {x : Ended} (hx : x.Completes P) (h : ∀ t, P t → Q t) : x.Completes Q := by
  cases x with
  | returned t => exact h t hx
  | failed c t => trivial
  | unfinished | stopped => exact hx.elim

theorem completes_procThen {x : Ended} {k : State → Ended} (hx : x.Completes P) (hk : ∀ t, P t → (k t).Completes Q) :
    (procThen x k).Completes Q := by
  cases x with
  | returned t => exact hk t hx
  | failed c t => trivial
  | unfinished | stopped => exact hx.elim

/-- A primitive takes one listed move, which empties no queue (R8). -/
theorem completes_procTurn {k : State → Ended} (hs : HasMoves D (n + 1) s)
    (hk : ∀ t, HasMoves D n t → (s.rx ≠ [] → t.rx ≠ []) → (k t).Completes Q) : (procTurn k s).Completes Q := by
  obtain ⟨hd, hn⟩ := hs
  cases he : s.env with
  | nil => simp [he] at hn
  | cons m ms =>
    rw [procTurn, he]
    refine hk _ ⟨hd, ?_⟩ fun hq => ?_
    · simpa [he] using hn
    · simp [hq]

/-- A settled read of a queue that is not empty takes two listed moves (R78). -/
theorem completes_procRead {k : Byte → State → Ended} (hs : HasMoves D (n + 2) s) (hq : s.rx ≠ [])
    (hk : ∀ r t, HasMoves D n t → (k r t).Completes Q) : (procRead k s).Completes Q := by
  refine completes_procTurn hs fun t ht htq => completes_procTurn ht fun u hu huq => ?_
  obtain ⟨r, q, hrx⟩ := List.exists_cons_of_ne_nil (huq (htq hq))
  rw [rxPop_cons hrx]
  exact hk r _ ⟨hu.tmoData, hu.listed⟩

/-- A sample of a wait's predicate draws a free level at most (R27). -/
theorem procSample_snd (kind : WaitKind) (s : State) : ∃ d, (procSample kind s).2 = draw d s := by
  cases kind with
  | listen => exact readyLevel_snd s
  | data => exact ⟨0, rfl⟩

/-- A data wait's predicate holds of a queue that is not empty (R70). -/
theorem rx_ne_nil_of_procSample {s : State} (h : (procSample .data s).1 = true) : s.rx ≠ [] := by
  simpa [procSample, rxAvail] using h

/-- Each sleep before the deadline leaves a wait one poll less (R67). -/
theorem failingPolls_afterSleep {e : Millis} (he : elapsedRight T e) (hT : e.toNat < T.toNat) :
    failingPolls (T.toNat - e.toNat) = failingPolls (T.toNat - (afterSleep e).toNat) + 1 := by
  obtain ⟨hmod, -⟩ := he fun h0 => by simp [h0] at hT
  have hbound := T.isLt
  have hs := afterSleep_toNat (e := e)
  simp only [failingPolls, failingSleeps, pollInc] at hmod hs ⊢
  rw [hs (by omega)]
  omega

/-- A wait with a deadline ends within the polls of a failing wait, and a data wait that returns has found a byte (R65, R67). -/
theorem completes_procWait {kind : WaitKind} {c : FailCause} {e : Millis} (hT : T ≠ 0) (he : elapsedRight T e)
    (hs : HasMoves D (failingPolls (T.toNat - e.toNat) + n) s) :
    (procWait kind T c s.env e s).Completes fun t => HasMoves D n t ∧ (kind = .data → t.rx ≠ []) := by
  obtain ⟨hd, hn⟩ := hs
  generalize hms : s.env = ms
  rw [hms] at hn
  induction ms generalizing s e with
  | nil => simp [failingPolls] at hn
  | cons m ms ih =>
    obtain ⟨j, hj⟩ := procSample_snd kind (applyMove m (setEnv ms s))
    have hlen : failingPolls (T.toNat - e.toNat) + n ≤ ms.length + 1 := hn
    rw [procWait, hj]
    split_ifs with hholds hlate
    · refine ⟨⟨hd, ?_⟩, fun hkind => ?_⟩
      · show n ≤ ms.length
        simp only [failingPolls] at hlen
        omega
      · subst hkind
        exact rx_ne_nil_of_procSample hholds
    · trivial
    · have hlt : e.toNat < T.toNat := Nat.lt_of_not_le fun hle => hlate (deadlinePassed_iff.2 ⟨hT, hle⟩)
      rw [failingPolls_afterSleep he hlt] at hlen
      exact ih (elapsedRight_afterSleep he (.inr hlt)) hd (by omega) rfl

/-- A wait from its start, `elapsed` being 0 (R65). -/
theorem completes_procWait_zero {kind : WaitKind} {c : FailCause} (hT : T ≠ 0) (hs : HasMoves D (failingPolls T.toNat + n) s) :
    (procWait kind T c s.env 0 s).Completes fun t => HasMoves D n t ∧ (kind = .data → t.rx ≠ []) :=
  completes_procWait hT (elapsedRight_zero T) hs

/-- A frame takes one listed move for each byte (R76). -/
theorem completes_procTransmit (bytes : List Byte) (hs : HasMoves D (bytes.length + n) s) :
    (procTransmit bytes s).Completes (HasMoves D n) := by
  induction bytes generalizing s with
  | nil => exact Nat.zero_add n ▸ hs
  | cons b bs ih =>
    have hs' : HasMoves D (bs.length + n + 1) s := by
      rwa [List.length_cons, Nat.add_right_comm] at hs
    exact completes_procTurn hs' fun t ht _ => ih (s := txPush b t) ⟨ht.tmoData, ht.listed⟩

/-- SENDCMD ends within the polls of its two waits, one move for each byte and three for the acknowledgment (R74). -/
theorem completes_procSendCommand {frame : List Byte} {mask : Byte} (hT : s.tmoListen ≠ 0) (hD : D ≠ 0)
    (hs : HasMoves D (failingPolls s.tmoListen.toNat + (frame.length + (failingPolls D.toNat + (n + 3)))) s) :
    (procSendCommand frame mask s).Completes (HasMoves D n) := by
  refine completes_procThen (completes_procWait_zero hT hs) fun s1 ⟨h1, _⟩ =>
    completes_procThen (completes_procTransmit frame h1) fun s2 h2 => ?_
  rw [h2.tmoData]
  refine completes_procThen (completes_procWait_zero hD h2) fun s3 ⟨h3, hq⟩ =>
    completes_procRead (n := n + 1) h3 (hq rfl) fun r s4 h4 =>
      completes_procTurn (n := n) ⟨h4.tmoData, h4.listed⟩ fun s5 h5 _ => ?_
  split_ifs
  · exact h5
  · trivial

/-- READBYTES of the last `n` bytes ends within the polls of a wait and two moves for each byte (R82, D6). -/
theorem completes_procReadBytes {j : Nat} (hD : D ≠ 0) (hn : j + n ≤ 4) (hs : HasMoves D (n * (failingPolls D.toNat + 2)) s) :
    (procReadBytes n j s).Completes fun _ => True := by
  induction n generalizing j s with
  | zero => trivial
  | succ n ih =>
    rw [procReadBytes, hs.tmoData]
    have hs' : HasMoves D (failingPolls D.toNat + (n * (failingPolls D.toNat + 2) + 2)) s := by
      rwa [Nat.succ_mul, Nat.add_comm, Nat.add_assoc, Nat.add_comm 2] at hs
    refine completes_procThen (completes_procWait_zero hD hs') fun t ⟨ht, hq⟩ =>
      completes_procRead ht (hq rfl) fun r u hu => ?_
    obtain ⟨d, hd⟩ := dataSet_of_lt u.data r (b := j) (by omega)
    rw [hd]
    exact ih (by omega) ⟨hu.tmoData, hu.listed⟩

/-- A command with an acknowledgment and nothing more (R90, R91, R94). -/
theorem completes_acknowledged {frame : List Byte} {mask : Byte} (hT : s.tmoListen ≠ 0) (hD : s.tmoData ≠ 0)
    (hs : rowBound s.tmoListen s.tmoData frame.length 0 ≤ s.env.length) :
    (procSendCommand frame mask s).Completes fun _ => True := by
  have hmoves : failingPolls s.tmoListen.toNat + (frame.length + (failingPolls s.tmoData.toNat + (0 + 3))) ≤ s.env.length := by
    rw [rowBound] at hs
    omega
  exact (completes_procSendCommand hT hD ⟨rfl, hmoves⟩).imp fun _ _ => trivial

/-- A command with an acknowledgment and a payload (R89, R92). -/
theorem completes_payload {frame : List Byte} {mask : Byte} (hT : s.tmoListen ≠ 0) (hD : s.tmoData ≠ 0)
    (hs : rowBound s.tmoListen s.tmoData frame.length 4 ≤ s.env.length) :
    (procThen (procSendCommand frame mask s) (procReadBytes 4 0)).Completes fun _ => True :=
  completes_procThen
    (completes_procSendCommand (n := 4 * (failingPolls s.tmoData.toNat + 2)) hT hD ⟨rfl, by rw [rowBound] at hs; omega⟩)
    fun _ ht => completes_procReadBytes hD (by decide) ht

/-- The procedure of every command with an acknowledgment ends within the bound (R148). -/
theorem completes_procedureOf {i : Instr} (hi : i ≠ .ident) (hT : s.tmoListen ≠ 0) (hD : s.tmoData ≠ 0)
    (hs : rowBound s.tmoListen s.tmoData (encode i).length (descriptorOf i).pcnt ≤ s.env.length) :
    (procedureOf i s).Completes fun _ => True := by
  cases i with
  | ident => exact absurd rfl hi
  | rdpage | uid => exact completes_payload hT hD hs
  | wrpage | status | progee => exact completes_acknowledged hT hD hs

/-- Where the procedure of a command has come to an end, so has the sequencer (R85). -/
theorem exec_ends_of_completes {i : Instr} (hb : s.busy = false) (h : (procedureOf i s).Completes P) :
    ∃ t, exec i s = .next t ∧ t.busy = false ∧ t.phase = .idle := by
  have hagree := agrees_exec i hb
  cases hx : procedureOf i s with
  | returned p | failed c p =>
    rw [hx] at hagree
    obtain ⟨t, ht, hbusy, hphase, -⟩ := hagree
    exact ⟨t, ht, hbusy, hphase⟩
  | unfinished | stopped =>
    rw [hx] at h
    exact h.elim

end

/-- Settles O36: the listed moves carry the command's procedure to its end, and the sequencer ends with it. -/
theorem everyAcknowledgedCommandEnds : Obligations.EveryAcknowledgedCommandEnds :=
  fun _ _ hi hb hT hD hs => exec_ends_of_completes hb (completes_procedureOf hi hT hD hs)

end Sys2Proof.Machine
end
